-- ==== Sys2Proof/Word.lean ====
section
/-! DEFINITION. The bit-vector types of the engine (spec/00_scope.md R10, R11; spec/30_encoding.md R90). -/

namespace Sys2Proof

/-- A byte (R10): an unsigned 8-bit value. -/
abbrev Byte := BitVec 8

/-- A word (R11): four bytes `(a0, a1, a2, a3)` seen as a 32-bit value with `a0` least significant. -/
abbrev Word32 := BitVec 32

/-- A Block128 (R10): sixteen bytes `b[0] … b[15]` seen as the 128-bit value whose bits `8i+7 … 8i` are `b[i]`. -/
abbrev Block128 := BitVec 128

/-- A command word (R90): the 32-bit value the host writes to `CMD`. -/
abbrev CmdWord := BitVec 32

end Sys2Proof
end

