-- ==== Sys2Proof/Config.lean ====
section
/-! DEFINITION. What the platform fixes for one engine: the two open parameters of the spec, `AW` and `ACCESSIBLE`
(spec/00_scope.md R7; spec/92_eei_decisions.md D17, D28).

The spec says the model TAKES them as arguments. They are plain data carried by the state (`State.platform`) that no step
changes, so a statement about every state is a statement about every `AW` and every `ACCESSIBLE`
(notes/assumptions/1.md, DESIGN CHOICE). -/

namespace Sys2Proof

/-- The addresses `base … base + size - 1` of the buffer memory. -/
structure Region where
  base : Nat
  size : Nat
deriving DecidableEq, Repr

/-- One platform (R7): `aw` is the parameter `AW`; `holes` lists the parts of `[0, 2^AW)` that are NOT `ACCESSIBLE`.
The domain of `ACCESSIBLE` is finite, so every predicate on it is such a list. -/
structure Platform where
  aw    : Nat
  holes : List Region
deriving DecidableEq, Repr

/-- The spec's bound on the open parameter (R7): `AW >= 8`. -/
def Platform.legal (p : Platform) : Bool := decide (8 ≤ p.aw)

/-- The platform `State.reset` stands on: `AW = 32`, the value of every test vector of the spec, and R7's default
`ACCESSIBLE`, true everywhere. DESIGN CHOICE (notes/assumptions/1.md): no statement rests on it. -/
def Config.platform : Platform := { aw := 32, holes := [] }

end Sys2Proof
end

