-- ==== Sys2Proof/Syntax.lean ====
section
/-! DEFINITION. The engine's instruction set: one constructor per row of spec/opcode_table.json
(spec/30_encoding.md R91, R94), and the two tags the fields name (spec/10_state.md R26). -/

namespace Sys2Proof

/-- The algorithm tag `ALG` (R26): codes 0, 1, 2. Code 3 "is never stored", so the type has no value for it. -/
inductive Alg where
  | aes128
  | aes192
  | aes256
deriving DecidableEq, Repr

/-- The mode tag `MODE` (R26): codes 0 to 4. Codes 5 to 7 "are never stored", so the type has no value for them. -/
inductive Mode where
  | ecb
  | cbc
  | cfb
  | ofb
  | ctr
deriving DecidableEq, Repr

/-- The nine commands (R94), with the operand fields each uses (R91). The fields are kept as the raw codes of the word:
a word with `ALG = 3` or `MODE` in 5 to 7 "is decoded to that row and fails inside the command" (R92). -/
inductive Instr where
  /-- `KEXP` (R170): expand the key for the algorithm code `alg`. -/
  | kexp (alg : BitVec 2)
  /-- `KINV` (R180): derive the decryption round keys. -/
  | kinv
  /-- `MSTART` (R230): start a mode session; `ivp` says an IV is supplied in register `IV`. -/
  | mstart (mode : BitVec 3) (ivp : Bool)
  /-- `ENCB` (R240): one encrypt step on `DIN`. -/
  | encb
  /-- `DECB` (R245): one decrypt step on `DIN`. -/
  | decb
  /-- `ENCBUF` (R270): encrypt a buffer with padding. -/
  | encbuf
  /-- `DECBUF` (R275): decrypt a buffer, validate and remove padding. -/
  | decbuf
  /-- `INIT` (R300): construct the whole context. -/
  | init (alg : BitVec 2) (mode : BitVec 3) (ivp : Bool)
  /-- `CLEAR` (R310): discard the context. -/
  | clear
deriving DecidableEq, Repr

end Sys2Proof
end

