-- ==== Sys2Proof/WellFormed.lean ====
section
/-! DEFINITION. Which instructions name an operation the engine performs (spec/30_encoding.md R96, third class, and R99).

An ill-formed instruction still has an encoding and a meaning: its word decodes to its row and the command fails with
`NOT_IMPLEMENTED` (R92, R96). -/

namespace Sys2Proof

/-- The algorithm code has a table entry (R91): it is not 3. -/
def algImplemented (alg : BitVec 2) : Bool := decide (alg ≠ 3)

/-- The mode code has a table entry (R91): it is not 5, 6 or 7. -/
def modeImplemented (mode : BitVec 3) : Bool := decide (mode.toNat < 5)

/-- Every tag the instruction carries has a table entry (R96). -/
def Instr.wellFormed : Instr → Bool
  | .kexp alg => algImplemented alg
  | .kinv => true
  | .mstart mode _ => modeImplemented mode
  | .encb => true
  | .decb => true
  | .encbuf => true
  | .decbuf => true
  | .init alg mode _ => algImplemented alg && modeImplemented mode
  | .clear => true

end Sys2Proof
end

