-- ==== Sys2Proof/Decode.lean ====
section
/-! DEFINITION. Decoding a command word and, after it, encoding an instruction (spec/30_encoding.md R90 to R98).

`decode` is total on every 32-bit value and rejects by name; `encode` is written from the assembler table R98. -/

namespace Sys2Proof

/-- Why a word is no command (R96, first two classes). Both end in `ILLEGAL_COMMAND`. -/
inductive IllegalWord where
  /-- `OP = 0x00` or `OP` in 0x0A to 0xFF. -/
  | opcode
  /-- A nonzero reserved bit 31:14, or a nonzero field the opcode does not use. -/
  | field
deriving DecidableEq, Repr

/-- The opcodes 0x01 to 0x09 of the opcode map R94. -/
inductive Opcode where
  | kexp
  | kinv
  | mstart
  | encb
  | decb
  | encbuf
  | decbuf
  | init
  | clear
deriving DecidableEq, Repr

/-! ### The fields of the word (R91) -/

/-- `OP`, bits 7:0. -/
def cmdOp (w : CmdWord) : BitVec 8 := w.extractLsb' 0 8
/-- `ALG`, bits 9:8. -/
def cmdAlg (w : CmdWord) : BitVec 2 := w.extractLsb' 8 2
/-- `MODE`, bits 12:10. -/
def cmdMode (w : CmdWord) : BitVec 3 := w.extractLsb' 10 3
/-- `IVP`, bit 13. -/
def cmdIvp (w : CmdWord) : Bool := w.getLsbD 13
/-- Bits 31:14, "must be 0". -/
def cmdReserved (w : CmdWord) : BitVec 18 := w.extractLsb' 14 18

/-! ### The opcode map (R94) -/

/-- The row of R94 an `OP` value names, if any. -/
def opcodeOf (op : BitVec 8) : Option Opcode :=
  match op.toNat with
  | 0x01 => some .kexp
  | 0x02 => some .kinv
  | 0x03 => some .mstart
  | 0x04 => some .encb
  | 0x05 => some .decb
  | 0x06 => some .encbuf
  | 0x07 => some .decbuf
  | 0x08 => some .init
  | 0x09 => some .clear
  | _ => none

/-- The `OP` value of a row of R94. -/
def opcodeBits : Opcode → BitVec 8
  | .kexp => 0x01
  | .kinv => 0x02
  | .mstart => 0x03
  | .encb => 0x04
  | .decb => 0x05
  | .encbuf => 0x06
  | .decbuf => 0x07
  | .init => 0x08
  | .clear => 0x09

/-- R94, column "Fields used": the opcodes that use `ALG`. -/
def usesAlg : Opcode → Bool
  | .kexp => true
  | .kinv => false
  | .mstart => false
  | .encb => false
  | .decb => false
  | .encbuf => false
  | .decbuf => false
  | .init => true
  | .clear => false

/-- R94, column "Fields used": the opcodes that use `MODE`. -/
def usesMode : Opcode → Bool
  | .kexp => false
  | .kinv => false
  | .mstart => true
  | .encb => false
  | .decb => false
  | .encbuf => false
  | .decbuf => false
  | .init => true
  | .clear => false

/-- R94, column "Fields used": the opcodes that use `IVP`. -/
def usesIvp : Opcode → Bool
  | .kexp => false
  | .kinv => false
  | .mstart => true
  | .encb => false
  | .decb => false
  | .encbuf => false
  | .decbuf => false
  | .init => true
  | .clear => false

/-- The command of a row with its used fields taken from the word (R92, last line). -/
def instrOf (op : Opcode) (alg : BitVec 2) (mode : BitVec 3) (ivp : Bool) : Instr :=
  match op with
  | .kexp => .kexp alg
  | .kinv => .kinv
  | .mstart => .mstart mode ivp
  | .encb => .encb
  | .decb => .decb
  | .encbuf => .encbuf
  | .decbuf => .decbuf
  | .init => .init alg mode ivp
  | .clear => .clear

/-- R92: decoding of a word, total on every 32-bit value, its tests in the rule's order. -/
def decode (w : CmdWord) : Except IllegalWord Instr :=
  match opcodeOf (cmdOp w) with
  | none => .error .opcode
  | some op =>
    if cmdReserved w ≠ 0 then .error .field
    else if usesAlg op = false ∧ cmdAlg w ≠ 0 then .error .field
    else if usesMode op = false ∧ cmdMode w ≠ 0 then .error .field
    else if usesIvp op = false ∧ cmdIvp w ≠ false then .error .field
    else .ok (instrOf op (cmdAlg w) (cmdMode w) (cmdIvp w))

/-! ### Encoding (R91, R98) -/

/-- The word with the given fields and the reserved bits 0 (R91). -/
def fieldsWord (op : Opcode) (alg : BitVec 2) (mode : BitVec 3) (ivp : Bool) : CmdWord :=
  0#18 ++ BitVec.ofBool ivp ++ mode ++ alg ++ opcodeBits op

/-- R98: the word of an instruction; the fields an opcode does not use are 0. -/
def encode : Instr → CmdWord
  | .kexp alg => fieldsWord .kexp alg 0 false
  | .kinv => fieldsWord .kinv 0 0 false
  | .mstart mode ivp => fieldsWord .mstart 0 mode ivp
  | .encb => fieldsWord .encb 0 0 false
  | .decb => fieldsWord .decb 0 0 false
  | .encbuf => fieldsWord .encbuf 0 0 false
  | .decbuf => fieldsWord .decbuf 0 0 false
  | .init alg mode ivp => fieldsWord .init alg mode ivp
  | .clear => fieldsWord .clear 0 0 false

/-- The low `nbits` bits of `w` as the 32-bit word written to `CMD`, the bits above `nbits` zero. -/
def tableWord (nbits w : Nat) : CmdWord := BitVec.ofNat 32 (w % 2 ^ nbits)

/-- The host's reading of the decoder on a row of spec/opcode_table.json: every row is one 32-bit word (R90, R97). -/
def decodeTableWord (nbits w : Nat) : Option Instr := (decode (tableWord nbits w)).toOption

end Sys2Proof
end

