-- ==== Sys2Proof/Machine/State.lean ====
section
/-! DEFINITION. The machine's state as plain data (spec/10_state.md R20 to R35), the reasons a step can stop, and the state
after reset.

Three groups of fields: the architectural state R20 lists, all of it; the buffer memory and the platform's parameters, which
belong to the platform (R21, R61, R7) and which a command reads; and the model's own two fields, `pending` and `hostData`,
the host's side of the register port (notes/assumptions/2.md and 3.md). -/

namespace Sys2Proof.Machine

/-- The outcome codes of `STATUS.CODE` (spec/60_exceptions.md R331). Their numbers are `statusCodeBits`. -/
inductive StatusCode where
  | success
  | nullArgument
  /-- Reserved: never raised by the engine (R333). -/
  | parseError
  | invalidPadding
  | notImplemented
  | missingPadding
  /-- Reserved: never raised by the engine (R333). -/
  | allocationFailure
  | illegalCommand
  | notReady
  | addrRange
  | dstTooSmall
deriving DecidableEq, Repr

/-- The offending argument of `STATUS.ARG` (R332): none, `iv`, `src`. Their numbers are `statusArgBits`. -/
inductive StatusArg where
  | none
  | iv
  | src
deriving DecidableEq, Repr

/-- The buffer memory (spec/20_memory.md R60, R61): bytes by address, in one canonical form (`Memory.wf`). -/
abbrev Memory := List Host.Cell

/-- What an address that is not listed reads as. DESIGN CHOICE (notes/assumptions/5.md): the contents the platform's memory
starts with are not the engine's (R61). -/
def unlistedByte : Byte := 0

/-- The canonical form: addresses strictly rising, and no listed byte equal to what an unlisted address reads as. -/
def Memory.wf : Memory → Bool
  | [] => true
  | [c] => decide (c.2 ≠ unlistedByte)
  | c :: d :: m => decide (c.2 ≠ unlistedByte) && decide (c.1 < d.1) && Memory.wf (d :: m)

/-- What can happen to the engine and its memory between two commands: the host's actions (R8), the reset (R370), and a byte
of the buffer memory changed by the host or another agent (R61). -/
inductive HostAction where
  /-- `HostRead(reg)` (R8, R34): `reg` is a register number of R33. -/
  | read (reg : BitVec 8)
  /-- `HostWrite(reg, value)` (R8, R34): a write to `CMD` issues a command. -/
  | write (reg : BitVec 8) (value : Nat)
  /-- `Reset` (R370). -/
  | reset
  /-- The host or another agent stores a byte in the buffer memory (R61, R376). -/
  | memPut (addr : Nat) (value : Byte)
deriving DecidableEq, Repr

/-- The state of one engine with its memory and its host's pending actions. -/
structure State where
  /-- `AW` and `ACCESSIBLE` (R7): fixed for the machine, changed by no step. -/
  platform   : Platform
  /-- The buffer memory (R60, R61), the platform's. -/
  mem        : Memory
  /-- `KEY_LO` (R22). -/
  keyLo      : Block128
  /-- `KEY_HI` (R22). -/
  keyHi      : Block128
  /-- `IV` (R22). -/
  iv         : Block128
  /-- The chaining state `S`, read through `CHAIN` (R24). -/
  chain      : Block128
  /-- `DIN` (R22). -/
  din        : Block128
  /-- `DOUT` (R22). -/
  dout       : Block128
  /-- `EK[0..14]` (R25). -/
  ek         : Vector Block128 15
  /-- `DK[0..14]` (R25). -/
  dk         : Vector Block128 15
  /-- The tag `ALG` (R26). -/
  alg        : Alg
  /-- The tag `MODE` (R26). -/
  mode       : Mode
  /-- `EK_VALID` (R27). -/
  ekValid    : Bool
  /-- `DK_VALID` (R27). -/
  dkValid    : Bool
  /-- `MS_VALID` (R27). -/
  msValid    : Bool
  /-- `IV_VALID` (R27). -/
  ivValid    : Bool
  /-- `STATUS.CODE` (R30). -/
  statusCode : StatusCode
  /-- `STATUS.ARG` (R30). -/
  statusArg  : StatusArg
  /-- `SRC_ADDR` (R32), an unsigned `AW`-bit value (R14): below `2^AW` by the invariant `descriptorsFit`. -/
  srcAddr    : Nat
  /-- `SRC_LEN` (R32), as `srcAddr`. -/
  srcLen     : Nat
  /-- `DST_ADDR` (R32), as `srcAddr`. -/
  dstAddr    : Nat
  /-- `DST_LEN` (R32), as `srcAddr`. -/
  dstLen     : Nat
  /-- The model's own: the actions still to come, the next one first (R76: one single total order). -/
  pending    : List HostAction
  /-- The model's own: the value the latest `HostRead` returned to the host, `none` before the first. -/
  hostData   : Option Nat
deriving DecidableEq, Repr

/-- Why the machine stops. The engine itself never stops (R337, R338): no command raises any of these. -/
inductive Fault where
  /-- Raised by `HostAction.memPut` at an address outside `[0, 2^AW)`: the spec has no such address (R60). Safe: the action
  is no action of the spec's world, and nothing is claimed of what follows it. -/
  | noSuchAddress (addr : Nat)
deriving DecidableEq, Repr

/-- Why a step has no meaning. -/
inductive Refusal where
  /-- Raised by an arm of `exec` whose instruction has no meaning yet: no arm does. Safe. -/
  | notModelled (mnemonic : String)
deriving DecidableEq, Repr

/-- A round-key file of fifteen zero blocks. -/
def zeroFile : Vector Block128 15 := Vector.replicate 15 0

/-- The state after `Reset` on the platform `p` (R35, R371): every element of R20 is zero. No action is pending, nothing has
been read yet, and the memory lists nothing (notes/assumptions/5.md). -/
def State.resetOn (p : Platform) : State where
  platform := p
  mem := []
  keyLo := 0
  keyHi := 0
  iv := 0
  chain := 0
  din := 0
  dout := 0
  ek := zeroFile
  dk := zeroFile
  alg := .aes128
  mode := .ecb
  ekValid := false
  dkValid := false
  msValid := false
  ivValid := false
  statusCode := .success
  statusArg := .none
  srcAddr := 0
  srcLen := 0
  dstAddr := 0
  dstLen := 0
  pending := []
  hostData := none

/-- The machine right after reset (R35, R371), on `Config.platform`. -/
def State.reset : State := State.resetOn Config.platform

end Sys2Proof.Machine
end

