-- ==== Sys2Proof/Machine/Ops.lean ====
section
/-! DEFINITION. The shared operations over memory and over the state (spec/20_memory.md R60 to R63; spec/60_exceptions.md
R330, R336; spec/10_state.md R25, R36; spec/70_reset_and_hazards.md R371).

The engine takes no exception and returns from none (R343, R344): its only exceptional mechanism is `failWith`. -/

namespace Sys2Proof.Machine

/-! ### Bytes of the buffer memory -/

/-- The byte at an address (R61: `Mem` is a total function). -/
def Memory.read : Memory → Nat → Byte
  | [], _ => unlistedByte
  | (x, v) :: m, a => if a = x then v else Memory.read m a

/-- Store a byte, keeping the canonical form. -/
def Memory.write : Memory → Nat → Byte → Memory
  | [], a, b => if b = unlistedByte then [] else [(a, b)]
  | (x, v) :: m, a, b =>
    if a < x then (if b = unlistedByte then (x, v) :: m else (a, b) :: (x, v) :: m)
    else if a = x then (if b = unlistedByte then m else (a, b) :: m)
    else (x, v) :: Memory.write m a b

/-- `MemRead(addr, n)` (R62): the bytes at `addr … addr + n - 1`, lowest address first. -/
def memRead (m : Memory) (addr n : Nat) : List Byte :=
  (List.range n).map fun j => Memory.read m (addr + j)

/-- `MemWrite(addr, n, v)` (R63), `n` the length of `v`: `v[j]` at `addr + j`. -/
def memWrite (m : Memory) (addr : Nat) : List Byte → Memory
  | [] => m
  | b :: bs => memWrite (Memory.write m addr b) (addr + 1) bs

/-! ### Ending a command -/

/-- The outcome of every step of this engine: a next state, a fault, or a refusal. -/
abbrev Result := Host.Outcome State Fault Refusal

/-- The state with a new `STATUS` (R336, R337: both fields are overwritten). -/
def withStatus (code : StatusCode) (arg : StatusArg) (s : State) : State :=
  { s with statusCode := code, statusArg := arg }

/-- `fail CODE(arg)` (R336): the command ends, `STATUS` is written and nothing else changes. -/
def failWith (code : StatusCode) (arg : StatusArg) (s : State) : Result :=
  .next (withStatus code arg s)

/-- `succeed` (R15): the command ends with code 0 and argument 0. -/
def succeed (s : State) : Result := .next (withStatus .success .none s)

/-! ### Round-key files and reset -/

/-- The fifteen entries a command writes to `EK` or `DK` (R25, R170, R180, R300): `rk[i]` for `i <= n`, zero above. -/
def keyFile (n : Nat) (rk : List Block128) : Vector Block128 15 :=
  Vector.ofFn fun i => if i.val ≤ n then rk.getD i.val 0 else 0

/-- Entries 0 to `n` of a round-key file, `EK[0..n]` or `DK[0..n]` (R207). -/
def fileKeys (n : Nat) (f : Vector Block128 15) : List Block128 := f.toList.take (n + 1)

/-- `Reset` (R35, R371): every element of R20 becomes zero. The buffer memory "is not changed by `Reset`", and the platform
and the host's side of the port are no engine state (R21). -/
def resetEngine (s : State) : State :=
  { State.resetOn s.platform with mem := s.mem, pending := s.pending, hostData := s.hostData }

end Sys2Proof.Machine
end

