-- ==== Sys2Proof/Machine/Operands.lean ====
section
/-! DEFINITION. The operand forms: byte and word views of a block, the tags named by the word's fields, the key taken from
the key registers, and the register map (spec/00_scope.md R10, R11, R13; spec/20_memory.md R64, R65; spec/30_encoding.md R91,
R93; spec/41_key_schedule.md R160, R161; spec/10_state.md R33). -/

namespace Sys2Proof.Machine

/-! ### Byte order -/

/-- Byte `b[i]` of a block: bits `8i+7 … 8i` (R10). -/
def blockByte (x : Block128) (i : Nat) : Byte := x.extractLsb' (8 * i) 8

/-- The unsigned number whose byte `i`, least significant first, is `bs[i]` (R10). -/
def leNat : List Byte → Nat
  | [] => 0
  | b :: bs => b.toNat + 256 * leNat bs

/-- The block with `b[i] = bs[i]`, for sixteen bytes (R10, R64). -/
def blockOfBytes (bs : List Byte) : Block128 := BitVec.ofNat 128 (leNat bs)

/-- The sixteen bytes of a block, `b[0]` first (R64, R122). -/
def blockBytes (x : Block128) : List Byte := (List.range 16).map (blockByte x)

/-- The block with `b[i] = f i`. -/
def blockOf (f : Nat → Byte) : Block128 := blockOfBytes ((List.range 16).map f)

/-- Byte `a_i` of a word (R11: `a0` least significant). -/
def wordByte (w : Word32) (i : Nat) : Byte := w.extractLsb' (8 * i) 8

/-- The word `(a0, a1, a2, a3)` (R11). -/
def wordOf (a0 a1 a2 a3 : Byte) : Word32 := a3 ++ a2 ++ a1 ++ a0

/-- Word `j` of a block: bits `32j+31 … 32j` (R11). -/
def blockWord (x : Block128) (j : Nat) : Word32 := x.extractLsb' (32 * j) 32

/-- The block `w0 ∥ w1 ∥ w2 ∥ w3` (R11, R14: left operand at the lower indices). -/
def blockOfWords (w0 w1 w2 w3 : Word32) : Block128 := w3 ++ w2 ++ w1 ++ w0

/-- A block written as 32 hex digits in FIPS order, the leftmost two digits `b[0]` (R13). -/
def fips (n : Nat) : Block128 := blockOf fun i => BitVec.ofNat 8 (n >>> (8 * (15 - i)))

/-! ### Tags and sizes -/

/-- The algorithm a code of the `ALG` field names (R91); `none` for code 3. -/
def algOf (code : BitVec 2) : Option Alg :=
  match code.toNat with
  | 0 => some .aes128
  | 1 => some .aes192
  | 2 => some .aes256
  | _ => none

/-- The mode a code of the `MODE` field names (R91); `none` for codes 5 to 7. -/
def modeOf (code : BitVec 3) : Option Mode :=
  match code.toNat with
  | 0 => some .ecb
  | 1 => some .cbc
  | 2 => some .cfb
  | 3 => some .ofb
  | 4 => some .ctr
  | _ => none

/-- The two-bit code of an algorithm tag (R26). -/
def algCode : Alg → BitVec 2
  | .aes128 => 0
  | .aes192 => 1
  | .aes256 => 2

/-- The three-bit code of a mode tag (R26). -/
def modeCode : Mode → BitVec 3
  | .ecb => 0
  | .cbc => 1
  | .cfb => 2
  | .ofb => 3
  | .ctr => 4

/-- `Nk(a)`, key words (R160). -/
def nk : Alg → Nat
  | .aes128 => 4
  | .aes192 => 6
  | .aes256 => 8

/-- `Nr(a)`, rounds (R160). -/
def nr : Alg → Nat
  | .aes128 => 10
  | .aes192 => 12
  | .aes256 => 14

/-- `KeyBytes(a, lo, hi)` (R161): the first `4 Nk(a)` bytes of `lo ∥ hi`; the bytes above are not read. -/
def keyBytes (a : Alg) (lo hi : Block128) : List Byte :=
  (blockBytes lo ++ blockBytes hi).take (4 * nk a)

/-! ### The register map (R33) -/

/-- What a register number names. -/
inductive Reg where
  | cmd
  | status
  | ctx
  | keyLo
  | keyHi
  | iv
  | chain
  | din
  | dout
  | srcAddr
  | srcLen
  | dstAddr
  | dstLen
  | ek (i : Fin 15)
  | dk (i : Fin 15)
  | reserved
deriving DecidableEq, Repr

/-- R33: the register a number names. -/
def regOf (n : BitVec 8) : Reg :=
  match n.toNat with
  | 0x00 => .cmd
  | 0x01 => .status
  | 0x02 => .ctx
  | 0x04 => .keyLo
  | 0x05 => .keyHi
  | 0x06 => .iv
  | 0x07 => .chain
  | 0x08 => .din
  | 0x09 => .dout
  | 0x0A => .srcAddr
  | 0x0B => .srcLen
  | 0x0C => .dstAddr
  | 0x0D => .dstLen
  | k =>
    if h : 0x10 ≤ k ∧ k < 0x1F then .ek ⟨k - 0x10, by omega⟩
    else if h : 0x20 ≤ k ∧ k < 0x2F then .dk ⟨k - 0x20, by omega⟩
    else .reserved

/-- R33: the width in bits of what a register number names; a reserved number is read at "the widest width, 128 bits" (R34),
and so is `CMD`. -/
def regWidth (p : Platform) : Reg → Nat
  | .cmd => 128
  | .status => 32
  | .ctx => 32
  | .keyLo => 128
  | .keyHi => 128
  | .iv => 128
  | .chain => 128
  | .din => 128
  | .dout => 128
  | .srcAddr => p.aw
  | .srcLen => p.aw
  | .dstAddr => p.aw
  | .dstLen => p.aw
  | .ek _ => 128
  | .dk _ => 128
  | .reserved => 128

end Sys2Proof.Machine
end

