-- ==== Sys2Proof/Machine/Flags.lean ====
section
/-! DEFINITION. The status and context words and the valid flags (spec/10_state.md R26, R27, R30, R31;
spec/60_exceptions.md R331, R332). -/

namespace Sys2Proof.Machine

/-- The number of an outcome code (R331). -/
def statusCodeBits : StatusCode → BitVec 8
  | .success => 0
  | .nullArgument => 1
  | .parseError => 2
  | .invalidPadding => 3
  | .notImplemented => 4
  | .missingPadding => 5
  | .allocationFailure => 6
  | .illegalCommand => 8
  | .notReady => 9
  | .addrRange => 10
  | .dstTooSmall => 11

/-- The number of an offending argument (R30, R332). -/
def statusArgBits : StatusArg → BitVec 4
  | .none => 0
  | .iv => 1
  | .src => 2

/-- The register `STATUS` (R30): `CODE` in bits 7:0, `ARG` in 11:8, bits 30:12 reserved, `BUSY` in bit 31, which every host
read sees as 0 because a command is one atomic transition (R9, R380). -/
def statusWord (s : State) : BitVec 32 := 0#20 ++ statusArgBits s.statusArg ++ statusCodeBits s.statusCode

/-- The register `CTX` (R31): `ALG` in bits 1:0, `MODE` in 4:2, then `EK_VALID`, `DK_VALID`, `MS_VALID`, `IV_VALID` in bits
5 to 8; bits 31:9 read as 0. -/
def ctxWord (s : State) : BitVec 32 :=
  0#23 ++ BitVec.ofBool s.ivValid ++ BitVec.ofBool s.msValid ++ BitVec.ofBool s.dkValid ++ BitVec.ofBool s.ekValid
    ++ modeCode s.mode ++ algCode s.alg

/-- The state with its four valid flags set as given (R27). -/
def withFlags (ek dk ms iv : Bool) (s : State) : State :=
  { s with ekValid := ek, dkValid := dk, msValid := ms, ivValid := iv }

/-- The modes whose decrypt step runs the inverse cipher and so needs `DK_VALID` (R224, R245, R275: `MODE = 0` or `MODE = 1`). -/
def needsDk : Mode → Bool
  | .ecb => true
  | .cbc => true
  | .cfb => false
  | .ofb => false
  | .ctr => false

/-- A session of mode `m` may not be started without an IV (R225): every mode but ECB needs one. -/
def needsIv : Mode → Bool
  | .ecb => false
  | .cbc => true
  | .cfb => true
  | .ofb => true
  | .ctr => true

end Sys2Proof.Machine
end

