-- ==== Sys2Proof/Machine/Primitives.lean ====
section
/-! DEFINITION. The block primitives and the AES byte, word and state functions (spec/40_block_primitives.md). Pure functions:
none reads or writes state (R120). -/

namespace Sys2Proof.Machine

/-! ### The Block128 value and the counter (R121, R126 to R128) -/

/-- `Xor128(x, y)` (R121). -/
def xor128 (x y : Block128) : Block128 := x ^^^ y

/-- `ByteSwap(x)` (R126): `ByteSwap(x)[i] = x[15 - i]`. -/
def byteSwap (x : Block128) : Block128 := blockOf fun i => blockByte x (15 - i)

/-- `LaneInc(x)` (R127): the lane value plus 1 modulo `2^128`, the carry through all 128 bits. -/
def laneInc (x : Block128) : Block128 := x + 1

/-- `IncBE(x)` (R128). -/
def incBE (x : Block128) : Block128 := byteSwap (laneInc (byteSwap x))

/-! ### The field GF(2^8) (R123) -/

/-- `XTime(a)`: multiplication by `x`, reduced by 0x11b. -/
def xtime (a : Byte) : Byte := if a.getLsbD 7 then (a <<< 1) ^^^ 0x1b#8 else a <<< 1

/-- The loop of `GMul`: `n` bits of `b` from bit `k` up, with the running product `r` and the running `a`. -/
def gmulLoop (b : Byte) : (n k : Nat) → (r a : Byte) → Byte
  | 0, _, r, _ => r
  | n + 1, k, r, a => gmulLoop b n (k + 1) (if b.getLsbD k then r ^^^ a else r) (xtime a)

/-- `GMul(a, b)` (R123). -/
def gmul (a b : Byte) : Byte := gmulLoop b 8 0 0 a

/-- `GInv(a)` (R123): the `b` with `GMul(a, b) = 0x01`, and 0 for `a = 0`. -/
def ginv (a : Byte) : Byte :=
  (((List.range 256).map (BitVec.ofNat 8)).find? fun b => gmul a b == 1).getD 0

/-! ### The substitution tables (R124, R125) -/

/-- Entry `a` of a table of sixteen rows of sixteen bytes: row the high hex digit of `a`, column the low one. -/
def tableByte (rows : List Nat) (a : Byte) : Byte :=
  BitVec.ofNat 8 (rows.getD (a.toNat / 16) 0 >>> (8 * (15 - a.toNat % 16)))

/-- The table of R124, one number a row, its leftmost byte the entry of column x0. -/
def sboxRows : List Nat :=
  [0x637c777bf26b6fc53001672bfed7ab76,
   0xca82c97dfa5947f0add4a2af9ca472c0,
   0xb7fd9326363ff7cc34a5e5f171d83115,
   0x04c723c31896059a071280e2eb27b275] ++
  [0x09832c1a1b6e5aa0523bd6b329e32f84,
   0x53d100ed20fcb15b6acbbe394a4c58cf,
   0xd0efaafb434d338545f9027f503c9fa8,
   0x51a3408f929d38f5bcb6da2110fff3d2] ++
  [0xcd0c13ec5f974417c4a77e3d645d1973,
   0x60814fdc222a908846eeb814de5e0bdb,
   0xe0323a0a4906245cc2d3ac629195e479,
   0xe7c8376d8dd54ea96c56f4ea657aae08] ++
  [0xba78252e1ca6b4c6e8dd741f4bbd8b8a,
   0x703eb5664803f60e613557b986c11d9e,
   0xe1f8981169d98e949b1e87e9ce5528df,
   0x8ca1890dbfe6426841992d0fb054bb16]

/-- `SBox(a)` (R124), by its table. -/
def sbox (a : Byte) : Byte := tableByte sboxRows a

/-- The algebraic definition of `SBox` (R124). -/
def sboxAlgebraic (a : Byte) : Byte :=
  let b := ginv a
  b ^^^ b.rotateLeft 1 ^^^ b.rotateLeft 2 ^^^ b.rotateLeft 3 ^^^ b.rotateLeft 4 ^^^ 0x63#8

/-- The table of R125, laid out as `sboxRows`. -/
def invSboxRows : List Nat :=
  [0x52096ad53036a538bf40a39e81f3d7fb,
   0x7ce339829b2fff87348e4344c4dee9cb,
   0x547b9432a6c2233dee4c950b42fac34e,
   0x082ea16628d924b2765ba2496d8bd125] ++
  [0x72f8f66486689816d4a45ccc5d65b692,
   0x6c704850fdedb9da5e154657a78d9d84,
   0x90d8ab008cbcd30af7e45805b8b34506,
   0xd02c1e8fca3f0f02c1afbd0301138a6b] ++
  [0x3a9111414f67dcea97f2cfcef0b4e673,
   0x96ac7422e7ad3585e2f937e81c75df6e,
   0x47f11a711d29c5896fb7620eaa18be1b,
   0xfc563e4bc6d279209adbc0fe78cd5af4] ++
  [0x1fdda8338807c731b11210592780ec5f,
   0x60517fa919b54a0d2de57a9f93c99cef,
   0xa0e03b4dae2af5b0c8ebbb3c83539961,
   0x172b047eba77d626e169146355210c7d]

/-- `InvSBox(a)` (R125). -/
def invSbox (a : Byte) : Byte := tableByte invSboxRows a

/-! ### Word functions of the key schedule (R129, R130) -/

/-- `SubWord(w)` (R129). -/
def subWord (w : Word32) : Word32 :=
  wordOf (sbox (wordByte w 0)) (sbox (wordByte w 1)) (sbox (wordByte w 2)) (sbox (wordByte w 3))

/-- `RotWord((a0, a1, a2, a3)) = (a1, a2, a3, a0)` (R129). -/
def rotWord (w : Word32) : Word32 := wordOf (wordByte w 1) (wordByte w 2) (wordByte w 3) (wordByte w 0)

/-- `Rcon(j)` for `j` in 1 to 10 (R130); outside that range it "is never used". -/
def rcon (j : Nat) : Byte :=
  [0x01#8, 0x02#8, 0x04#8, 0x08#8, 0x10#8, 0x20#8, 0x40#8, 0x80#8, 0x1b#8, 0x36#8].getD (j - 1) 0

/-- `RconWord(j) = (Rcon(j), 0x00, 0x00, 0x00)` (R130). -/
def rconWord (j : Nat) : Word32 := wordOf (rcon j) 0 0 0

/-! ### State functions of the cipher (R131 to R134) -/

/-- `SubBytes(s)` (R131). -/
def subBytes (s : Block128) : Block128 := blockOf fun i => sbox (blockByte s i)

/-- `InvSubBytes(s)` (R131). -/
def invSubBytes (s : Block128) : Block128 := blockOf fun i => invSbox (blockByte s i)

/-- `ShiftRows(s)[i] = s[(5 i) mod 16]` (R132). -/
def shiftRows (s : Block128) : Block128 := blockOf fun i => blockByte s (5 * i % 16)

/-- `InvShiftRows(s)[i] = s[(13 i) mod 16]` (R132). -/
def invShiftRows (s : Block128) : Block128 := blockOf fun i => blockByte s (13 * i % 16)

/-- Row `r` of the matrix of R133 applied to a column. -/
def mixRow (r : Nat) (a0 a1 a2 a3 : Byte) : Byte :=
  match r with
  | 0 => gmul 0x02 a0 ^^^ gmul 0x03 a1 ^^^ a2 ^^^ a3
  | 1 => a0 ^^^ gmul 0x02 a1 ^^^ gmul 0x03 a2 ^^^ a3
  | 2 => a0 ^^^ a1 ^^^ gmul 0x02 a2 ^^^ gmul 0x03 a3
  | _ => gmul 0x03 a0 ^^^ a1 ^^^ a2 ^^^ gmul 0x02 a3

/-- Row `r` of the matrix of R134 applied to a column. -/
def invMixRow (r : Nat) (a0 a1 a2 a3 : Byte) : Byte :=
  match r with
  | 0 => gmul 0x0e a0 ^^^ gmul 0x0b a1 ^^^ gmul 0x0d a2 ^^^ gmul 0x09 a3
  | 1 => gmul 0x09 a0 ^^^ gmul 0x0e a1 ^^^ gmul 0x0b a2 ^^^ gmul 0x0d a3
  | 2 => gmul 0x0d a0 ^^^ gmul 0x09 a1 ^^^ gmul 0x0e a2 ^^^ gmul 0x0b a3
  | _ => gmul 0x0b a0 ^^^ gmul 0x0d a1 ^^^ gmul 0x09 a2 ^^^ gmul 0x0e a3

/-- Each column `(s[4c], s[4c+1], s[4c+2], s[4c+3])` of the state (R12) replaced row by row. -/
def mapColumns (row : Nat → Byte → Byte → Byte → Byte → Byte) (s : Block128) : Block128 :=
  blockOf fun i => row (i % 4) (blockByte s (4 * (i / 4))) (blockByte s (4 * (i / 4) + 1))
    (blockByte s (4 * (i / 4) + 2)) (blockByte s (4 * (i / 4) + 3))

/-- `MixColumns(s)` (R133). -/
def mixColumns (s : Block128) : Block128 := mapColumns mixRow s

/-- `InvMixColumns(s)` (R134). -/
def invMixColumns (s : Block128) : Block128 := mapColumns invMixRow s

/-! ### Round functions (R135, R136) -/

/-- `EncRound(s, k)` (R135). -/
def encRound (s k : Block128) : Block128 := xor128 (mixColumns (subBytes (shiftRows s))) k

/-- `EncLast(s, k)` (R135). -/
def encLast (s k : Block128) : Block128 := xor128 (subBytes (shiftRows s)) k

/-- `DecRound(s, k)` (R136). -/
def decRound (s k : Block128) : Block128 := xor128 (invMixColumns (invSubBytes (invShiftRows s))) k

/-- `DecLast(s, k)` (R136). -/
def decLast (s k : Block128) : Block128 := xor128 (invSubBytes (invShiftRows s)) k

end Sys2Proof.Machine
end

