-- ==== Sys2Proof/Machine/Schedule.lean ====
section
/-! DEFINITION. The key schedule functions `Expand` and `Invert` (spec/41_key_schedule.md R165, R176). -/

namespace Sys2Proof.Machine

/-- Word `i` of the key, for `i < Nk` (R165). -/
def keyWord (key : List Byte) (i : Nat) : Word32 :=
  wordOf (key.getD (4 * i) 0) (key.getD (4 * i + 1) 0) (key.getD (4 * i + 2) 0) (key.getD (4 * i + 3) 0)

/-- `w[i]` from `w[i-1]` and `w[i-Nk]`, for `i >= Nk` (R165). -/
def nextWord (nkw i : Nat) (prev old : Word32) : Word32 :=
  if i % nkw = 0 then old ^^^ (subWord (rotWord prev) ^^^ rconWord (i / nkw))
  else if nkw = 8 ∧ i % nkw = 4 then old ^^^ subWord prev
  else old ^^^ prev

/-- The loop of R165: `n` more words after `w[0 .. i-1]`. -/
def wordsFrom (nkw : Nat) : (n i : Nat) → List Word32 → List Word32
  | 0, _, w => w
  | n + 1, i, w => wordsFrom nkw n (i + 1) (w ++ [nextWord nkw i (w.getD (i - 1) 0) (w.getD (i - nkw) 0)])

/-- The schedule words `w[0]` to `w[4 (Nr + 1) - 1]` (R165). -/
def scheduleWords (a : Alg) (key : List Byte) : List Word32 :=
  wordsFrom (nk a) (4 * (nr a + 1) - nk a) (nk a) ((List.range (nk a)).map (keyWord key))

/-- Round key `r` of a list of schedule words (R165). -/
def roundKey (w : List Word32) (r : Nat) : Block128 :=
  blockOfWords (w.getD (4 * r) 0) (w.getD (4 * r + 1) 0) (w.getD (4 * r + 2) 0) (w.getD (4 * r + 3) 0)

/-- `Expand(a, key)` (R165): the round keys 0 to `Nr(a)`. -/
def expand (a : Alg) (key : List Byte) : List Block128 :=
  (List.range (nr a + 1)).map (roundKey (scheduleWords a key))

/-- `Expand(a, KeyBytes(a, KEY_LO, KEY_HI))`: the schedule `KEXP` and `INIT` write (R170, R300). -/
def State.expandKey (s : State) (a : Alg) : List Block128 := expand a (keyBytes a s.keyLo s.keyHi)

/-- `Invert(ek)` (R176) for a sequence `ek[0..n]`: order reversed, every interior key through `InvMixColumns`. -/
def invert (ek : List Block128) : List Block128 :=
  (List.range ek.length).map fun i =>
    if i = 0 ∨ i = ek.length - 1 then ek.getD (ek.length - 1 - i) 0
    else invMixColumns (ek.getD (ek.length - 1 - i) 0)

end Sys2Proof.Machine
end

