-- ==== Sys2Proof/Machine/Cipher.lean ====
section
/-! DEFINITION. The block functions `E` and `D` (spec/42_round_function.md R203, R204) and their use over the engine's
round-key files (R207). -/

namespace Sys2Proof.Machine

/-- The rounds of `E` after the first xor, over `ek[1..n]`: `EncRound` for each key but the last, `EncLast` with the last. -/
def encRounds (s : Block128) : List Block128 → Block128
  | [] => s
  | [k] => encLast s k
  | k :: k' :: ks => encRounds (encRound s k) (k' :: ks)

/-- The rounds of `D` after the first xor, over `dk[1..n]`. -/
def decRounds (s : Block128) : List Block128 → Block128
  | [] => s
  | [k] => decLast s k
  | k :: k' :: ks => decRounds (decRound s k) (k' :: ks)

/-- `E(p, ek)` (R203) for a sequence `ek[0..n]`; the spec uses it with `n >= 1`. -/
def blockEncrypt (p : Block128) : List Block128 → Block128
  | [] => p
  | k :: ks => encRounds (xor128 p k) ks

/-- `D(c, dk)` (R204) for a sequence `dk[0..n]`. -/
def blockDecrypt (c : Block128) : List Block128 → Block128
  | [] => c
  | k :: ks => decRounds (xor128 c k) ks

/-- `Enc(x)` (R207): `E(x, EK[0..Nr(ALG)])`. -/
def State.enc (s : State) (x : Block128) : Block128 := blockEncrypt x (fileKeys (nr s.alg) s.ek)

/-- `Dec(x)` (R207): `D(x, DK[0..Nr(ALG)])`. -/
def State.dec (s : State) (x : Block128) : Block128 := blockDecrypt x (fileKeys (nr s.alg) s.dk)

end Sys2Proof.Machine
end

