-- ==== Sys2Proof/Machine/ModeStep.lean ====
section
/-! DEFINITION. The mode-of-operation state machine: one step in each direction (spec/43_modes.md R221 to R224). -/

namespace Sys2Proof.Machine

/-- `ModeEnc(m, x, s)` (R222): the output block and the next chaining state, over the block cipher `enc`. -/
def modeEnc (enc : Block128 → Block128) (m : Mode) (x s : Block128) : Block128 × Block128 :=
  match m with
  | .ecb => (enc x, s)
  | .cbc => (enc (xor128 x s), enc (xor128 x s))
  | .cfb => (xor128 (enc s) x, xor128 (enc s) x)
  | .ofb => (xor128 (enc s) x, enc s)
  | .ctr => (xor128 x (enc s), incBE s)

/-- `ModeDec(m, x, s)` (R223): only ECB and CBC run the inverse cipher `dec` (R224). -/
def modeDec (enc dec : Block128 → Block128) (m : Mode) (x s : Block128) : Block128 × Block128 :=
  match m with
  | .ecb => (dec x, s)
  | .cbc => (xor128 (dec x) s, x)
  | .cfb => (xor128 (enc s) x, x)
  | .ofb => (xor128 (enc s) x, enc s)
  | .ctr => (xor128 x (enc s), incBE s)

/-- One encrypt step of the current session on `x`: `ModeEnc(MODE, x, S)` over `Enc`. -/
def State.encStep (s : State) (x : Block128) : Block128 × Block128 := modeEnc s.enc s.mode x s.chain

/-- One decrypt step of the current session on `x`: `ModeDec(MODE, x, S)` over `Enc` and `Dec`. -/
def State.decStep (s : State) (x : Block128) : Block128 × Block128 := modeDec s.enc s.dec s.mode x s.chain

end Sys2Proof.Machine
end

