-- ==== Sys2Proof/Machine/Padding.lean ====
section
/-! DEFINITION. PKCS#7 padding and the checks made before a buffer command touches memory (spec/44_buffer.md R261 to R263;
spec/20_memory.md R71, R72). -/

namespace Sys2Proof.Machine

/-- `PadLen(n) = 16 - (n mod 16)` (R261). -/
def padLen (n : Nat) : Nat := 16 - n % 16

/-- `Pad(t)` (R261), for `t` of 0 to 15 bytes: `t` followed by `16 - r` bytes of value `16 - r`. -/
def pad (t : List Byte) : Block128 :=
  blockOfBytes (t ++ List.replicate (16 - t.length) (BitVec.ofNat 8 (16 - t.length)))

/-- `PadCheck(b)` (R263): the padding length `k = b[15]`, or `none`. -/
def padCheck (b : Block128) : Option Nat :=
  let k := (blockByte b 15).toNat
  if 1 ≤ k ∧ k ≤ 16 ∧ ((List.range k).all fun j => blockByte b (16 - k + j) == blockByte b 15) = true then some k else none

/-- `Req` of `ENCBUF` (R262): `SRC_LEN + PadLen(SRC_LEN) = 16 * (SRC_LEN div 16 + 1)`. -/
def encReq (n : Nat) : Nat := 16 * (n / 16 + 1)

/-- The region holds the address. -/
def Region.holds (r : Region) (x : Nat) : Bool := decide (r.base ≤ x) && decide (x < r.base + r.size)

/-- `ACCESSIBLE(x)` (R7, R71): `x` is in `[0, 2^AW)` and in no hole of the platform. -/
def accessible (p : Platform) (x : Nat) : Bool := decide (x < 2 ^ p.aw) && !(p.holes.any fun r => Region.holds r x)

/-- `ACCESSIBLE(x)` for every `x` in `[addr, addr + n)` (R72 (b)). -/
def rangeAccessible (p : Platform) (addr n : Nat) : Bool := (List.range n).all fun j => accessible p (addr + j)

/-- `[a, a + n)` and `[b, b + m)` share no address. -/
def rangesDisjoint (a n b m : Nat) : Bool := decide (n = 0 ∨ m = 0 ∨ a + n ≤ b ∨ b + m ≤ a)

/-- `RangeOK` (R72) for the source `[src, src + n)` and the destination `[dst, dst + req)`, all sums naturals. With `n = 0`
the source address is not examined. -/
def rangeOk (p : Platform) (src n dst req : Nat) : Bool :=
  decide ((n = 0 ∨ src + n ≤ 2 ^ p.aw) ∧ dst + req ≤ 2 ^ p.aw)
    && (rangeAccessible p src n && rangeAccessible p dst req)
    && (rangesDisjoint src n dst req || decide (dst = src))

end Sys2Proof.Machine
end

