-- ==== Sys2Proof/Machine/Buffer.lean ====
section
/-! DEFINITION. The commands `ENCBUF` and `DECBUF` (spec/44_buffer.md R270, R275, R278), their chunk loops in the order of
spec/20_memory.md R75: read chunk `i`, compute, write block `i`, then chunk `i + 1`. -/

namespace Sys2Proof.Machine

/-- Source chunk `i` as a block (R64). -/
def srcChunk (s : State) (i : Nat) : Block128 := blockOfBytes (memRead s.mem (s.srcAddr + 16 * i) 16)

/-- The state after an encrypt step on `x` whose output is written as destination block `i`. -/
def encBlockTo (i : Nat) (x : Block128) (s : State) : State :=
  { s with chain := (s.encStep x).2, mem := memWrite s.mem (s.dstAddr + 16 * i) (blockBytes (s.encStep x).1) }

/-- The state after a decrypt step on `x` of which the first `keep` output bytes are written as destination block `i`. -/
def decBlockTo (i keep : Nat) (x : Block128) (s : State) : State :=
  { s with chain := (s.decStep x).2, mem := memWrite s.mem (s.dstAddr + 16 * i) ((blockBytes (s.decStep x).1).take keep) }

/-- The loop of R270: `n` full chunks from chunk `i` up. -/
def encChunks : (n i : Nat) → State → State
  | 0, _, s => s
  | n + 1, i, s => encChunks n (i + 1) (encBlockTo i (srcChunk s i) s)

/-- The loop of R275: `n` chunks from chunk `i` up, each written whole. -/
def decChunks : (n i : Nat) → State → State
  | 0, _, s => s
  | n + 1, i, s => decChunks n (i + 1) (decBlockTo i 16 (srcChunk s i) s)

/-- The final, possibly empty, partial chunk of R270: the `r = SRC_LEN mod 16` bytes above the full chunks, padded. -/
def encTail (s : State) : Block128 := pad (memRead s.mem (s.srcAddr + 16 * (s.srcLen / 16)) (s.srcLen % 16))

/-- The real run of `ENCBUF` (R270): every full chunk, then the padded final chunk; `DST_LEN` the bytes written. -/
def encRun (s : State) : Result :=
  let s1 := encChunks (s.srcLen / 16) 0 s
  succeed { encBlockTo (s.srcLen / 16) (encTail s1) s1 with dstLen := encReq s.srcLen }

/-- `ENCBUF` (R270), its tests in the rule's order. -/
def execEncbuf (s : State) : Result :=
  if s.msValid = false then failWith .notReady .none s
  else if 2 ^ s.platform.aw ≤ encReq s.srcLen then failWith .addrRange .none s
  else if s.dstAddr = 0 then succeed { s with dstLen := encReq s.srcLen }
  else if s.srcAddr = 0 ∧ 0 < s.srcLen then failWith .nullArgument .src s
  else if s.dstLen < encReq s.srcLen then failWith .dstTooSmall .none s
  else if rangeOk s.platform s.srcAddr s.srcLen s.dstAddr (encReq s.srcLen) = false then failWith .addrRange .none s
  else encRun s

/-- The real run of `DECBUF` (R275): every chunk but the last, then the last one checked for padding. With invalid padding
nothing of the last block is written, `S` has advanced through all `q` steps and `DST_LEN` counts the bytes written (R278). -/
def decRun (s : State) : Result :=
  let q := s.srcLen / 16
  let s1 := decChunks (q - 1) 0 s
  let x := srcChunk s1 (q - 1)
  match padCheck (s1.decStep x).1 with
  | none => failWith .invalidPadding .none { s1 with chain := (s1.decStep x).2, dstLen := 16 * (q - 1) }
  | some k => succeed { decBlockTo (q - 1) (16 - k) x s1 with dstLen := s.srcLen - k }

/-- `DECBUF` (R275), its tests in the rule's order. -/
def execDecbuf (s : State) : Result :=
  if s.msValid = false then failWith .notReady .none s
  else if needsDk s.mode = true ∧ s.dkValid = false then failWith .notReady .none s
  else if s.srcLen = 0 ∨ s.srcLen % 16 ≠ 0 then failWith .missingPadding .none s
  else if s.dstAddr = 0 then succeed { s with dstLen := s.srcLen }
  else if s.srcAddr = 0 then failWith .nullArgument .src s
  else if s.dstLen < s.srcLen then failWith .dstTooSmall .none s
  else if rangeOk s.platform s.srcAddr s.srcLen s.dstAddr s.srcLen = false then failWith .addrRange .none s
  else decRun s

end Sys2Proof.Machine
end

