-- ==== Sys2Proof/Machine/KeySchedule.lean ====
section
/-! DEFINITION. The commands `KEXP` and `KINV` (spec/41_key_schedule.md R170, R180). -/

namespace Sys2Proof.Machine

/-- `KEXP` (R170). -/
def execKexp (alg : BitVec 2) (s : State) : Result :=
  match algOf alg with
  | none => failWith .notImplemented .none s
  | some a =>
    succeed (withFlags true false false false
      { s with ek := keyFile (nr a) (s.expandKey a), dk := zeroFile, alg := a, mode := .ecb, chain := 0 })

/-- `KINV` (R180). -/
def execKinv (s : State) : Result :=
  if s.ekValid = false then failWith .notReady .none s
  else succeed { s with dk := keyFile (nr s.alg) (invert (fileKeys (nr s.alg) s.ek)), dkValid := true }

end Sys2Proof.Machine
end

