-- ==== Sys2Proof/Machine/Modes.lean ====
section
/-! DEFINITION. The commands `MSTART`, `ENCB` and `DECB` (spec/43_modes.md R230, R240, R245). -/

namespace Sys2Proof.Machine

/-- `MSTART` (R230). -/
def execMstart (mode : BitVec 3) (ivp : Bool) (s : State) : Result :=
  match modeOf mode with
  | none => failWith .notImplemented .none s
  | some m =>
    if s.ekValid = false then failWith .notReady .none s
    else if needsIv m = true ∧ ivp = false then failWith .nullArgument .iv s
    else succeed { s with mode := m, chain := if ivp then s.iv else 0, ivValid := ivp, msValid := true }

/-- `ENCB` (R240). -/
def execEncb (s : State) : Result :=
  if s.msValid = false then failWith .notReady .none s
  else succeed { s with dout := (s.encStep s.din).1, chain := (s.encStep s.din).2 }

/-- `DECB` (R245). -/
def execDecb (s : State) : Result :=
  if s.msValid = false then failWith .notReady .none s
  else if needsDk s.mode = true ∧ s.dkValid = false then failWith .notReady .none s
  else succeed { s with dout := (s.decStep s.din).1, chain := (s.decStep s.din).2 }

end Sys2Proof.Machine
end

