-- ==== Sys2Proof/Machine/Session.lean ====
section
/-! DEFINITION. The commands `INIT` and `CLEAR` (spec/45_session_control.md R300, R310). -/

namespace Sys2Proof.Machine

/-- The context `INIT` builds for the algorithm `a`, the mode `m` and the IV flag (R300). -/
def initContext (a : Alg) (m : Mode) (ivp : Bool) (s : State) : State :=
  withFlags true true true ivp
    { s with ek := keyFile (nr a) (s.expandKey a), dk := keyFile (nr a) (invert (s.expandKey a)), alg := a, mode := m,
             chain := if ivp then s.iv else 0 }

/-- `INIT` (R300). -/
def execInit (alg : BitVec 2) (mode : BitVec 3) (ivp : Bool) (s : State) : Result :=
  match algOf alg, modeOf mode with
  | some a, some m =>
    if needsIv m = true ∧ ivp = false then failWith .nullArgument .iv s
    else succeed (initContext a m ivp s)
  | _, _ => failWith .notImplemented .none s

/-- `CLEAR` (R310). -/
def execClear (s : State) : Result :=
  succeed (withFlags false false false false
    { s with keyLo := 0, keyHi := 0, iv := 0, din := 0, dout := 0, chain := 0, ek := zeroFile, dk := zeroFile,
             alg := .aes128, mode := .ecb, srcAddr := 0, srcLen := 0, dstAddr := 0, dstLen := 0 })

end Sys2Proof.Machine
end

