-- ==== Sys2Proof/Machine/Dispatch.lean ====
section
/-! DEFINITION. The meaning of each instruction, one arm per constructor of `Instr`. -/

namespace Sys2Proof.Machine

def exec (i : Instr) (s : State) : Host.Outcome State Fault Refusal :=
  match i with
  | .kexp alg => Sys2Proof.Machine.execKexp alg s
  | .kinv => Sys2Proof.Machine.execKinv s
  | .mstart mode ivp => Sys2Proof.Machine.execMstart mode ivp s
  | .encb => Sys2Proof.Machine.execEncb s
  | .decb => Sys2Proof.Machine.execDecb s
  | .encbuf => Sys2Proof.Machine.execEncbuf s
  | .decbuf => Sys2Proof.Machine.execDecbuf s
  | .init alg mode ivp => Sys2Proof.Machine.execInit alg mode ivp s
  | .clear => Sys2Proof.Machine.execClear s

end Sys2Proof.Machine
end

