-- ==== Sys2Proof/Machine/Port.lean ====
section
/-! DEFINITION. The host's register port and what each pending action does (spec/10_state.md R29 to R34; spec/00_scope.md
R8, R9; spec/30_encoding.md R92, R96; spec/20_memory.md R61, R76; spec/70_reset_and_hazards.md R370). -/

namespace Sys2Proof.Machine

/-- A word written to `CMD` (R29): a word that is no command ends in `ILLEGAL_COMMAND` and changes nothing else (R96). -/
def issueCommand (w : CmdWord) (s : State) : Result :=
  match decode w with
  | .ok i => exec i s
  | .error _ => failWith .illegalCommand .none s

/-- The value a host read of a register returns (R34): the register's current value; 0 for `CMD` and reserved numbers. -/
def readRegister (r : Reg) (s : State) : Nat :=
  match r with
  | .cmd => 0
  | .status => (statusWord s).toNat
  | .ctx => (ctxWord s).toNat
  | .keyLo => s.keyLo.toNat
  | .keyHi => s.keyHi.toNat
  | .iv => s.iv.toNat
  | .chain => s.chain.toNat
  | .din => s.din.toNat
  | .dout => s.dout.toNat
  | .srcAddr => s.srcAddr
  | .srcLen => s.srcLen
  | .dstAddr => s.dstAddr
  | .dstLen => s.dstLen
  | .ek i => (s.ek[i.val]).toNat
  | .dk i => (s.dk[i.val]).toNat
  | .reserved => 0

/-- A host write to a register (R34): the number, of the register's width, is stored in a writable operand or descriptor
register; a write to a read-only register or a reserved number is ignored. -/
def writeRegister (r : Reg) (v : Nat) (s : State) : State :=
  match r with
  | .keyLo => { s with keyLo := BitVec.ofNat 128 v }
  | .keyHi => { s with keyHi := BitVec.ofNat 128 v }
  | .iv => { s with iv := BitVec.ofNat 128 v }
  | .din => { s with din := BitVec.ofNat 128 v }
  | .srcAddr => { s with srcAddr := v % 2 ^ s.platform.aw }
  | .srcLen => { s with srcLen := v % 2 ^ s.platform.aw }
  | .dstAddr => { s with dstAddr := v % 2 ^ s.platform.aw }
  | .dstLen => { s with dstLen := v % 2 ^ s.platform.aw }
  | .cmd => s
  | .status => s
  | .ctx => s
  | .chain => s
  | .dout => s
  | .ek _ => s
  | .dk _ => s
  | .reserved => s

/-- `HostRead(reg)` (R8, R34): the value goes to the host and nothing of the engine changes. -/
def hostRead (n : BitVec 8) (s : State) : State := { s with hostData := some (readRegister (regOf n) s) }

/-- `HostWrite(reg, value)` (R8, R34): a write to `CMD` issues the word; any other write stores or is ignored. -/
def hostWrite (n : BitVec 8) (v : Nat) (s : State) : Result :=
  if regOf n = .cmd then issueCommand (BitVec.ofNat 32 v) s else .next (writeRegister (regOf n) v s)

/-- A byte of the buffer memory changed between commands by the host or another agent (R61). -/
def putByte (a : Nat) (b : Byte) (s : State) : Result :=
  if a < 2 ^ s.platform.aw then .next { s with mem := Memory.write s.mem a b } else .fault (.noSuchAddress a)

/-- What one action does to the state it finds. -/
def perform (a : HostAction) (s : State) : Result :=
  match a with
  | .read n => .next (hostRead n s)
  | .write n v => hostWrite n v s
  | .reset => .next (resetEngine s)
  | .memPut x b => putByte x b s

/-- One step: the next pending action is taken and performed; with none pending the engine does nothing (R342: it has no
activity of its own). -/
def takeAction (s : State) : Result :=
  match s.pending with
  | [] => .next s
  | a :: rest => perform a { s with pending := rest }

/-- The write to `CMD` of the word `w` put before the actions already pending. -/
def queueCommand (w : CmdWord) (s : State) : State := { s with pending := .write 0x00 w.toNat :: s.pending }

end Sys2Proof.Machine
end

