-- ==== Sys2Proof/Machine/Step.lean ====
section
/-! DEFINITION. One step of the machine: the next pending action of the host or the platform, whole (spec/00_scope.md R8, R9;
spec/20_memory.md R76). The engine has no program counter and no instruction fetch (spec/10_state.md R23); what stands for
fetching is taking the next pending action, a write to `CMD` for a command. -/

namespace Sys2Proof.Machine

/-- One step of the machine. -/
def step (s : State) : Host.Outcome State Fault Refusal := takeAction s

/-- The state in which the next step issues the word `w` (its low `nbits` bits) to `CMD`. -/
def State.withFetchWord (s : State) (nbits w : Nat) : State := queueCommand (tableWord nbits w) s

end Sys2Proof.Machine
end

