-- ==== Sys2Proof/Machine/Lanes.lean ====
section
/-! DEFINITION. The lane-level formulation of the key schedule, the document's datapath (spec/40_block_primitives.md R137 to
R139; spec/41_key_schedule.md R185 to R187). No command calls it: the normative definition is `expand`, and R188 states that
the two are equal. -/

namespace Sys2Proof.Machine

/-- `KeyGenAssist(x, rc)` (R137). -/
def keyGenAssist (x : Block128) (rc : Byte) : Block128 :=
  blockOfWords (subWord (blockWord x 1)) (rotWord (subWord (blockWord x 1)) ^^^ wordOf rc 0 0 0)
    (subWord (blockWord x 3)) (rotWord (subWord (blockWord x 3)) ^^^ wordOf rc 0 0 0)

/-- `Shl32(x)` (R138): the lane shifted by one word toward the higher byte indices. -/
def shl32 (x : Block128) : Block128 := blockOfWords 0 (blockWord x 0) (blockWord x 1) (blockWord x 2)

/-- `Bcast(x, j)` (R138). -/
def bcast (x : Block128) (j : Nat) : Block128 :=
  blockOfWords (blockWord x j) (blockWord x j) (blockWord x j) (blockWord x j)

/-- One xor with the shifted lane. -/
def cascadeStep (x : Block128) : Block128 := xor128 x (shl32 x)

/-- `Cascade(x)` (R138). -/
def cascade (x : Block128) : Block128 := cascadeStep (cascadeStep (cascadeStep x))

/-- `Lo64(x)` (R139): bytes 0 to 7. -/
def lo64 (x : Block128) : BitVec 64 := x.extractLsb' 0 64

/-- `Hi64(x)` (R139): bytes 8 to 15. -/
def hi64 (x : Block128) : BitVec 64 := x.extractLsb' 64 64

/-- `Join(p, q)` (R139): `p` in the low half. -/
def join (p q : BitVec 64) : Block128 := q ++ p

/-- Entry `j` of a sequence given by its entry 0 and its step from entry `j-1` to entry `j`. -/
def laneSeq {α : Type} (next : Nat → α → α) (first : α) : Nat → α
  | 0 => first
  | j + 1 => next (j + 1) (laneSeq next first j)

/-- R185: round key `i` from round key `i-1`. -/
def lane128Next (i : Nat) (x : Block128) : Block128 := xor128 (cascade x) (bcast (keyGenAssist x (rcon i)) 3)

/-- R185: the eleven round keys. -/
def lanes128 (lo : Block128) : List Block128 := (List.range 11).map (laneSeq lane128Next lo)

/-- R186: `(L_j, H_j)` from `(L_(j-1), H_(j-1))`. -/
def lane192Next (j : Nat) (x : Block128 × Block128) : Block128 × Block128 :=
  let l := xor128 (cascade x.1) (bcast (keyGenAssist x.2 (rcon j)) 1)
  let v := xor128 (xor128 x.2 (shl32 x.2)) (bcast l 3)
  (l, join (lo64 v) 0)

/-- R186: round key `r`, `L_(2m)`, the splice of `H_(2m)` and `L_(2m+1)`, or the splice of `L_(2m+1)` and `H_(2m+1)`, for
`m = r div 3`. -/
def lane192Key (lo hi : Block128) (r : Nat) : Block128 :=
  let seq := laneSeq lane192Next (lo, join (lo64 hi) 0)
  match r % 3 with
  | 0 => (seq (2 * (r / 3))).1
  | 1 => join (lo64 (seq (2 * (r / 3))).2) (lo64 (seq (2 * (r / 3) + 1)).1)
  | _ => join (hi64 (seq (2 * (r / 3) + 1)).1) (lo64 (seq (2 * (r / 3) + 1)).2)

/-- R186: the thirteen round keys. -/
def lanes192 (lo hi : Block128) : List Block128 := (List.range 13).map (lane192Key lo hi)

/-- R187: `(RK[2j], RK[2j+1])` from `(RK[2j-2], RK[2j-1])`. -/
def lane256Next (j : Nat) (x : Block128 × Block128) : Block128 × Block128 :=
  let p := xor128 (cascade x.1) (bcast (keyGenAssist x.2 (rcon j)) 3)
  (p, xor128 (cascade x.2) (bcast (keyGenAssist p 0) 2))

/-- R187: round key `r`. -/
def lane256Key (lo hi : Block128) (r : Nat) : Block128 :=
  let seq := laneSeq lane256Next (lo, hi)
  if r % 2 = 0 then (seq (r / 2)).1 else (seq (r / 2)).2

/-- R187: the fifteen round keys. -/
def lanes256 (lo hi : Block128) : List Block128 := (List.range 15).map (lane256Key lo hi)

end Sys2Proof.Machine
end

