-- ==== Sys2Proof/Safety.lean ====
section
/-! DEFINITION. What counts as a safe state, and the terms the statements use: invariants of the state, the conditions of a
real buffer run, the block stream a buffer stands for, and the failure table of spec/60_exceptions.md R340. -/

namespace Sys2Proof.Machine

/-! ### Invariants -/

/-- The rule R28 of spec/10_state.md, clauses (a) to (e) and (g); (f) holds by the types of the two tags. -/
def SessionInv (s : State) : Prop :=
  (s.dkValid = true → s.ekValid = true) ∧
  (s.msValid = true → s.ekValid = true) ∧
  (s.msValid = true → s.mode ≠ .ecb → s.ivValid = true) ∧
  (s.msValid = false → s.mode = .ecb ∧ s.ivValid = false ∧ s.chain = 0) ∧
  (s.ekValid = false → s.alg = .aes128 ∧ ∀ i : Fin 15, s.ek[i.val] = 0 ∧ s.dk[i.val] = 0) ∧
  (s.dkValid = false → ∀ i : Fin 15, s.dk[i.val] = 0)

/-- What the flags `EK_VALID` and `DK_VALID` mean (R27): `EK` is the expansion of some key of the algorithm's length, zero
above `Nr` (R25), and `DK` is `Invert` of the current `EK`, zero above `Nr`. -/
def ScheduleInv (s : State) : Prop :=
  (s.ekValid = true → ∃ key : List Byte, key.length = 4 * nk s.alg ∧ s.ek = keyFile (nr s.alg) (expand s.alg key)) ∧
  (s.dkValid = true → s.ekValid = true ∧ s.dk = keyFile (nr s.alg) (invert (fileKeys (nr s.alg) s.ek)))

/-- Every descriptor register holds an unsigned `AW`-bit value (R14, R32). -/
def descriptorsFit (s : State) : Prop :=
  s.srcAddr < 2 ^ s.platform.aw ∧ s.srcLen < 2 ^ s.platform.aw ∧ s.dstAddr < 2 ^ s.platform.aw ∧ s.dstLen < 2 ^ s.platform.aw

/-- `STATUS` holds a code the engine produces (R333), and an argument exactly with `NULL_ARGUMENT` (R332). -/
def statusLegal (s : State) : Prop :=
  s.statusCode ≠ .parseError ∧ s.statusCode ≠ .allocationFailure ∧ (s.statusArg ≠ .none ↔ s.statusCode = .nullArgument)

/-- The data of the state is as the spec lays it out: the memory in its canonical form, the descriptors of their width, the
status one the engine produces. -/
def DataInv (s : State) : Prop := Memory.wf s.mem = true ∧ descriptorsFit s ∧ statusLegal s

/-! ### Real runs of the buffer commands -/

/-- No test of R270 before the real run of `ENCBUF` holds. -/
def encRunOk (s : State) : Bool :=
  s.msValid && decide (encReq s.srcLen < 2 ^ s.platform.aw) && decide (s.dstAddr ≠ 0)
    && decide (s.srcAddr ≠ 0 ∨ s.srcLen = 0) && decide (encReq s.srcLen ≤ s.dstLen)
    && rangeOk s.platform s.srcAddr s.srcLen s.dstAddr (encReq s.srcLen)

/-- No test of R275 before the real run of `DECBUF` holds. -/
def decRunOk (s : State) : Bool :=
  s.msValid && (!needsDk s.mode || s.dkValid) && decide (0 < s.srcLen ∧ s.srcLen % 16 = 0) && decide (s.dstAddr ≠ 0)
    && decide (s.srcAddr ≠ 0) && decide (s.srcLen ≤ s.dstLen)
    && rangeOk s.platform s.srcAddr s.srcLen s.dstAddr s.srcLen

/-- The outputs and the final chaining state of a mode step taken over a sequence of blocks, in order (R220, R250). -/
def stream (f : Block128 → Block128 → Block128 × Block128) : List Block128 → Block128 → List Block128 × Block128
  | [], s => ([], s)
  | x :: xs, s => ((f x s).1 :: (stream f xs (f x s).2).1, (stream f xs (f x s).2).2)

/-- The `k` full 16-byte chunks at the front of a byte sequence, as blocks (R64). -/
def fullChunks (k : Nat) (bs : List Byte) : List Block128 :=
  (List.range k).map fun i => blockOfBytes ((bs.drop (16 * i)).take 16)

/-- The blocks `ENCBUF` encrypts for the source bytes `bs` (R270): the full chunks, then the padded rest. -/
def paddedBlocks (bs : List Byte) : List Block128 :=
  fullChunks (bs.length / 16) bs ++ [pad (bs.drop (16 * (bs.length / 16)))]

/-- The bytes of a sequence of blocks, in order. -/
def blocksBytes (xs : List Block128) : List Byte := xs.flatMap blockBytes

/-- What `ENCBUF` computes on the source bytes in memory: the output blocks and the final chaining state. -/
def encOutput (s : State) : List Block128 × Block128 :=
  stream (modeEnc s.enc s.mode) (paddedBlocks (memRead s.mem s.srcAddr s.srcLen)) s.chain

/-- What `DECBUF` computes on the source bytes in memory, before validation: the decrypted blocks and the final chaining
state. -/
def decOutput (s : State) : List Block128 × Block128 :=
  stream (modeDec s.enc s.dec s.mode) (fullChunks (s.srcLen / 16) (memRead s.mem s.srcAddr s.srcLen)) s.chain

/-- The last decrypted block of a `DECBUF`, the one `PadCheck` examines (R275). -/
def decLastBlock (s : State) : Block128 := (decOutput s).1.getLastD 0

/-- Memory bytes after the bytes `v` have been stored from `addr` up: the byte at `a` (R63). -/
def storedByte (m : Memory) (addr : Nat) (v : List Byte) (a : Nat) : Byte :=
  if addr ≤ a ∧ a < addr + v.length then v.getD (a - addr) 0 else Memory.read m a

/-! ### The failure table of R340 -/

/-- What a row of the table answers when its test is the first that holds. -/
inductive RowAnswer where
  | fails (code : StatusCode) (arg : StatusArg)
  | sizing
deriving DecidableEq, Repr

/-- The algorithm field, the mode field and the `IVP` field of an instruction that uses them. -/
def algField : Instr → Option (BitVec 2)
  | .kexp a => some a
  | .init a _ _ => some a
  | .kinv => none
  | .mstart _ _ => none
  | .encb => none
  | .decb => none
  | .encbuf => none
  | .decbuf => none
  | .clear => none

/-- As `algField`, for `MODE` and `IVP`. -/
def modeField : Instr → Option (BitVec 3 × Bool)
  | .mstart m v => some (m, v)
  | .init _ m v => some (m, v)
  | .kexp _ => none
  | .kinv => none
  | .encb => none
  | .decb => none
  | .encbuf => none
  | .decbuf => none
  | .clear => none

/-- R331, code 9: a valid flag the command needs is 0. -/
def flagMissing (i : Instr) (s : State) : Bool :=
  match i with
  | .kinv => !s.ekValid
  | .mstart _ _ => !s.ekValid
  | .encb => !s.msValid
  | .decb => !s.msValid || (needsDk s.mode && !s.dkValid)
  | .encbuf => !s.msValid
  | .decbuf => !s.msValid || (needsDk s.mode && !s.dkValid)
  | .kexp _ => false
  | .init _ _ _ => false
  | .clear => false

/-- The required destination size of a buffer command (R262). -/
def reqOf (i : Instr) (s : State) : Nat :=
  if i = .encbuf then encReq s.srcLen else s.srcLen

/-- Steps 2 to 10 of the table R340 for an instruction in a state, in the table's order: the test, and its answer. -/
def failureRows (i : Instr) (s : State) : List (Bool × RowAnswer) :=
  let buf : Bool := decide (i = .encbuf ∨ i = .decbuf)
  [ (decide (algField i = some 3) || decide (∃ m ∈ modeField i, 5 ≤ m.1.toNat), .fails .notImplemented .none),
    (flagMissing i s, .fails .notReady .none),
    (decide (∃ m ∈ modeField i, m.1 ≠ 0 ∧ m.2 = false), .fails .nullArgument .iv),
    (decide (i = .decbuf ∧ (s.srcLen = 0 ∨ s.srcLen % 16 ≠ 0)), .fails .missingPadding .none),
    (decide (i = .encbuf ∧ 2 ^ s.platform.aw ≤ reqOf i s), .fails .addrRange .none),
    (buf && decide (s.dstAddr = 0), .sizing),
    (buf && decide (s.srcAddr = 0 ∧ 0 < s.srcLen), .fails .nullArgument .src),
    (buf && decide (s.dstLen < reqOf i s), .fails .dstTooSmall .none),
    (buf && !rangeOk s.platform s.srcAddr s.srcLen s.dstAddr (reqOf i s), .fails .addrRange .none) ]

/-- The answer of the first row whose test holds. -/
def firstAnswer (i : Instr) (s : State) : Option RowAnswer :=
  ((failureRows i s).find? fun r => r.1).map fun r => r.2

/-- R335: the codes a command can end with, `SUCCESS` among them. -/
def allowedCodes : Instr → List StatusCode
  | .kexp _ => [.success, .notImplemented]
  | .kinv => [.success, .notReady]
  | .mstart _ _ => [.success, .nullArgument, .notImplemented, .notReady]
  | .encb => [.success, .notReady]
  | .decb => [.success, .notReady]
  | .encbuf => [.success, .nullArgument, .notReady, .addrRange, .dstTooSmall]
  | .decbuf => [.success, .nullArgument, .invalidPadding, .missingPadding, .notReady, .addrRange, .dstTooSmall]
  | .init _ _ _ => [.success, .nullArgument, .notImplemented]
  | .clear => [.success]

/-! ### Sequences of block commands -/

/-- The outputs and the final state of the command `i` issued once for each block of a sequence, the block written to `DIN`
before it (R229, R283); `none` as soon as one does not succeed. -/
def blockRun (i : Instr) : List Block128 → State → Option (List Block128 × State)
  | [], s => some ([], s)
  | x :: xs, s =>
    match exec i { s with din := x } with
    | .next t => if t.statusCode = .success then (blockRun i xs t).map fun r => (t.dout :: r.1, r.2) else none
    | .fault _ => none
    | .refused _ => none

/-! ### The opcode table (R95) -/

/-- The rows of R95: opcode, match and mask. -/
def commandTable : List (Opcode × CmdWord × CmdWord) :=
  [ (.kexp, 0x00000001, 0xFFFFFCFF), (.kinv, 0x00000002, 0xFFFFFFFF), (.mstart, 0x00000003, 0xFFFFC3FF),
    (.encb, 0x00000004, 0xFFFFFFFF), (.decb, 0x00000005, 0xFFFFFFFF), (.encbuf, 0x00000006, 0xFFFFFFFF),
    (.decbuf, 0x00000007, 0xFFFFFFFF), (.init, 0x00000008, 0xFFFFC0FF), (.clear, 0x00000009, 0xFFFFFFFF) ]

/-! ### Numbers a block stands for -/

/-- The big-endian value of a block (R66, R128): `b[0]` most significant. -/
def beValue (x : Block128) : Nat := ((List.range 16).map fun i => (blockByte x i).toNat * 256 ^ (15 - i)).sum

end Sys2Proof.Machine
end

