-- ==== Sys2Proof/Certificates/Slice0/Obligations.lean ====
section
/-! DEFINITION. The statements about the engine, each from a numbered rule of spec/ or from the sections its docstring
names. -/

open Sys2Proof Sys2Proof.Machine

/-! ### Encoding -/

/-- spec/30_encoding.md sections 1, 3 and 5. A word decodes to an instruction exactly when it is that instruction's encoding:
no bit of an encoding is dropped and no other word has its meaning. -/
def Obligations.DecodeIffEncode : Prop :=
  ∀ (w : CmdWord) (i : Instr), decode w = .ok i ↔ encode i = w

/-- R92, R95. A word selects the row whose match it equals under the row's mask, its used fields taken from the word; no word
matches two rows; a word that matches none fails with `ILLEGAL_COMMAND`; a word of a row whose tag has no table entry fails
inside the command with `NOT_IMPLEMENTED`. -/
def Obligations.WordsSelectTableRows : Prop :=
  (∀ (w : CmdWord), ∀ r ∈ commandTable,
    (w &&& r.2.2 = r.2.1 ↔ decode w = .ok (instrOf r.1 (cmdAlg w) (cmdMode w) (cmdIvp w)))) ∧
  (∀ (w : CmdWord), ∀ r ∈ commandTable, ∀ r' ∈ commandTable, w &&& r.2.2 = r.2.1 → w &&& r'.2.2 = r'.2.1 → r = r') ∧
  (∀ (w : CmdWord) (s : State), (∀ r ∈ commandTable, w &&& r.2.2 ≠ r.2.1) →
    issueCommand w s = .next { s with statusCode := .illegalCommand, statusArg := .none }) ∧
  (∀ (w : CmdWord) (i : Instr) (s : State), decode w = .ok i → i.wellFormed = false →
    issueCommand w s = .next { s with statusCode := .notImplemented, statusArg := .none })

/-- R96. The three classes of word that name no operation the engine performs: an illegal opcode, an illegal field, a tag
with no table entry; nothing but `STATUS` changes. -/
def Obligations.UnperformedWordsFail : Prop :=
  (∀ (w : CmdWord) (s : State), (cmdOp w = 0 ∨ 0x0A ≤ (cmdOp w).toNat) →
    issueCommand w s = .next { s with statusCode := .illegalCommand, statusArg := .none }) ∧
  (∀ (w : CmdWord) (s : State), 1 ≤ (cmdOp w).toNat → (cmdOp w).toNat ≤ 9 →
    (cmdReserved w ≠ 0 ∨ (cmdOp w ≠ 0x01 ∧ cmdOp w ≠ 0x08 ∧ cmdAlg w ≠ 0) ∨
      (cmdOp w ≠ 0x03 ∧ cmdOp w ≠ 0x08 ∧ (cmdMode w ≠ 0 ∨ cmdIvp w = true))) →
    issueCommand w s = .next { s with statusCode := .illegalCommand, statusArg := .none }) ∧
  (∀ (s : State), exec (.kexp 3) s = .next { s with statusCode := .notImplemented, statusArg := .none }) ∧
  (∀ (mode : BitVec 3) (v : Bool) (s : State), 5 ≤ mode.toNat →
    exec (.mstart mode v) s = .next { s with statusCode := .notImplemented, statusArg := .none }) ∧
  (∀ (alg : BitVec 2) (mode : BitVec 3) (v : Bool) (s : State), (alg = 3 ∨ 5 ≤ mode.toNat) →
    exec (.init alg mode v) s = .next { s with statusCode := .notImplemented, statusArg := .none })

/-- spec/30_encoding.md sections 3 and 5, and section 4 for the two illegal words (V33 of spec/95_test_vectors.md issues such
words). Words and what they decode to. That the decoder tells an illegal opcode from an illegal field by two names is the model's
own (notes/assumptions/14.md): the host sees one code for both. -/
def Obligations.SampleWordsDecode : Prop :=
  decode 0x00000201 = .ok (.kexp 2) ∧ decode 0x00000002 = .ok .kinv ∧ decode 0x00002403 = .ok (.mstart 1 true) ∧
  decode 0x00001003 = .ok (.mstart 4 false) ∧ decode 0x00000004 = .ok .encb ∧ decode 0x00000005 = .ok .decb ∧
  decode 0x00000006 = .ok .encbuf ∧ decode 0x00000007 = .ok .decbuf ∧ decode 0x00002508 = .ok (.init 1 1 true) ∧
  decode 0x00000009 = .ok .clear ∧ decode 0x00000000 = .error .opcode ∧ decode 0x00004004 = .error .field

/-! ### Steps and the host's port -/

/-- spec/10_state.md section 7 and spec/20_memory.md section 5; the queue of pending actions, and that a number of `2^32` or more
written to `CMD` is taken modulo `2^32`, are the model's own (notes/assumptions/2.md, 4.md). When the next pending action writes
to `CMD` a word that decodes to an instruction, the step is that instruction's, on the state from which the action has been
taken. -/
def Obligations.StepRunsDecodedCommand : Prop :=
  (∀ (s : State) (w : Nat) (rest : List HostAction) (i : Instr), s.pending = .write 0x00 w :: rest →
    decode (BitVec.ofNat 32 w) = .ok i → step s = exec i { s with pending := rest }) ∧
  (∀ (s : State) (nbits w : Nat) (i : Instr), decodeTableWord nbits w = some i → step (s.withFetchWord nbits w) = exec i s)

/-- spec/00_scope.md section 4, spec/10_state.md section 8, spec/20_memory.md section 5, spec/30_encoding.md sections 1 and 4,
spec/70_reset_and_hazards.md section 1; the queue, the idle step, the field that holds the value read, a number of `2^32` or more
written to `CMD` taken modulo `2^32`, the canonical memory, what a reset leaves of the host's side and the fault of an address that
does not exist are the model's own (notes/assumptions/2.md, 3.md, 4.md, 5.md, 8.md, 10.md). What a step does when
the next action is not a write of a legal word to `CMD`. -/
def Obligations.StepPerformsAction : Prop :=
  (∀ (s : State), s.pending = [] → step s = .next s) ∧
  (∀ (s : State) (n : BitVec 8) (rest : List HostAction), s.pending = .read n :: rest →
    step s = .next { s with pending := rest, hostData := some (readRegister (regOf n) s) }) ∧
  (∀ (s : State) (n : BitVec 8) (v : Nat) (rest : List HostAction), s.pending = .write n v :: rest → regOf n ≠ .cmd →
    step s = .next { writeRegister (regOf n) v s with pending := rest }) ∧
  (∀ (s : State) (w : Nat) (e : IllegalWord) (rest : List HostAction), s.pending = .write 0x00 w :: rest →
    decode (BitVec.ofNat 32 w) = .error e →
    step s = .next { s with pending := rest, statusCode := .illegalCommand, statusArg := .none }) ∧
  (∀ (s : State) (rest : List HostAction), s.pending = .reset :: rest →
    step s = .next { State.resetOn s.platform with mem := s.mem, pending := rest, hostData := s.hostData }) ∧
  (∀ (s : State) (a : Nat) (b : Byte) (rest : List HostAction), s.pending = .memPut a b :: rest → a < 2 ^ s.platform.aw →
    Memory.wf s.mem = true → ∃ t, step s = .next t ∧ t = { s with mem := t.mem, pending := rest } ∧
      ∀ x, Memory.read t.mem x = if x = a then b else Memory.read s.mem x) ∧
  (∀ (s : State) (a : Nat) (b : Byte) (rest : List HostAction), s.pending = .memPut a b :: rest → 2 ^ s.platform.aw ≤ a →
    step s = .fault (.noSuchAddress a))

/-- R33, R34. The register map: what a read of each number returns, with no side effect; which numbers store what is written;
and that every other write is ignored, but for `CMD`, which runs a command. A number is written at the register's width. The
field that holds the value read is the model's own (notes/assumptions/3.md). -/
def Obligations.HostPortFollowsRegisterMap : Prop :=
  (∀ (s : State) (n : BitVec 8), hostRead n s = { s with hostData := (hostRead n s).hostData }) ∧
  (∀ (s : State),
    (hostRead 0x00 s).hostData = some 0 ∧ (hostRead 0x01 s).hostData = some (statusWord s).toNat ∧
    (hostRead 0x02 s).hostData = some (ctxWord s).toNat ∧ (hostRead 0x04 s).hostData = some s.keyLo.toNat ∧
    (hostRead 0x05 s).hostData = some s.keyHi.toNat ∧ (hostRead 0x06 s).hostData = some s.iv.toNat ∧
    (hostRead 0x07 s).hostData = some s.chain.toNat ∧ (hostRead 0x08 s).hostData = some s.din.toNat ∧
    (hostRead 0x09 s).hostData = some s.dout.toNat ∧ (hostRead 0x0A s).hostData = some s.srcAddr ∧
    (hostRead 0x0B s).hostData = some s.srcLen ∧ (hostRead 0x0C s).hostData = some s.dstAddr ∧
    (hostRead 0x0D s).hostData = some s.dstLen ∧
    (∀ i : Fin 15, (hostRead (BitVec.ofNat 8 (0x10 + i.val)) s).hostData = some (s.ek[i.val]).toNat) ∧
    (∀ i : Fin 15, (hostRead (BitVec.ofNat 8 (0x20 + i.val)) s).hostData = some (s.dk[i.val]).toNat) ∧
    (∀ n : BitVec 8, (n = 0x03 ∨ n = 0x0E ∨ n = 0x0F ∨ n = 0x1F ∨ 0x2F ≤ n.toNat) → (hostRead n s).hostData = some 0)) ∧
  (∀ (s : State) (x : Block128),
    hostWrite 0x04 x.toNat s = .next { s with keyLo := x } ∧ hostWrite 0x05 x.toNat s = .next { s with keyHi := x } ∧
    hostWrite 0x06 x.toNat s = .next { s with iv := x } ∧ hostWrite 0x08 x.toNat s = .next { s with din := x }) ∧
  (∀ (s : State) (v : Nat), v < 2 ^ s.platform.aw →
    hostWrite 0x0A v s = .next { s with srcAddr := v } ∧ hostWrite 0x0B v s = .next { s with srcLen := v } ∧
    hostWrite 0x0C v s = .next { s with dstAddr := v } ∧ hostWrite 0x0D v s = .next { s with dstLen := v }) ∧
  (∀ (s : State) (n : BitVec 8) (v : Nat),
    (n ∈ [0x01#8, 0x02#8, 0x03#8, 0x07#8, 0x09#8, 0x0E#8, 0x0F#8] ∨ 0x10 ≤ n.toNat) → hostWrite n v s = .next s) ∧
  (∀ (s : State) (w : CmdWord), hostWrite 0x00 w.toNat s = issueCommand w s) ∧
  (∀ (s : State) (n : BitVec 8), descriptorsFit s → readRegister (regOf n) s < 2 ^ regWidth s.platform (regOf n))

/-- R30, R337. The fields of `STATUS`; every command overwrites both `CODE` and `ARG` whatever they were, so that a failure
neither sticks nor blocks; an argument stands there exactly with `NULL_ARGUMENT`, and a success reads 0; a host write to it is
ignored, and no host action but a command (and reset) writes it. -/
def Obligations.StatusHoldsLatestOutcome : Prop :=
  (∀ (s : State), (statusWord s).extractLsb' 0 8 = statusCodeBits s.statusCode ∧
    (statusWord s).extractLsb' 8 4 = statusArgBits s.statusArg ∧ (statusWord s).extractLsb' 12 19 = 0 ∧
    (statusWord s).getLsbD 31 = false) ∧
  statusWord State.reset = 0 ∧
  (∀ (w : CmdWord) (s : State) (c : StatusCode) (a : StatusArg), issueCommand w (withStatus c a s) = issueCommand w s) ∧
  (∀ (w : CmdWord) (s : State), ∃ t, issueCommand w s = .next t ∧
    (t.statusArg ≠ .none ↔ t.statusCode = .nullArgument) ∧ (t.statusCode = .success ↔ statusWord t = 0)) ∧
  (∀ (s : State), statusWord (withStatus .nullArgument .iv s) = 0x101 ∧ statusWord (withStatus .nullArgument .src s) = 0x201) ∧
  (∀ (s : State) (v : Nat), hostWrite 0x01 v s = .next s) ∧
  (∀ (s t : State) (n : BitVec 8) (v : Nat), regOf n ≠ .cmd → hostWrite n v s = .next t →
    t.statusCode = s.statusCode ∧ t.statusArg = s.statusArg) ∧
  (∀ (s : State) (n : BitVec 8), statusWord (hostRead n s) = statusWord s)

/-- R31. The fields of `CTX`, 0 at reset; a host write to it is ignored; the tags are changed only by `KEXP`, `MSTART`, `INIT`
and `CLEAR`. -/
def Obligations.CtxShowsTagsAndFlags : Prop :=
  (∀ (s : State), (ctxWord s).extractLsb' 0 2 = algCode s.alg ∧ (ctxWord s).extractLsb' 2 3 = modeCode s.mode ∧
    (ctxWord s).getLsbD 5 = s.ekValid ∧ (ctxWord s).getLsbD 6 = s.dkValid ∧ (ctxWord s).getLsbD 7 = s.msValid ∧
    (ctxWord s).getLsbD 8 = s.ivValid ∧ (ctxWord s).extractLsb' 9 23 = 0) ∧
  ctxWord State.reset = 0 ∧
  (∀ (s : State) (v : Nat), hostWrite 0x02 v s = .next s) ∧
  (∀ (i : Instr) (s t : State), exec i s = .next t → (t.alg ≠ s.alg ∨ t.mode ≠ s.mode) →
    (∃ a, i = .kexp a) ∨ (∃ m v, i = .mstart m v) ∨ (∃ a m v, i = .init a m v) ∨ i = .clear)

/-- R35, R371. After `Reset` every element of the engine's state is zero, the buffer memory is unchanged, and reading any
register returns 0; `CLEAR` reaches the same state. -/
def Obligations.ResetZeroesEngine : Prop :=
  (∀ (s : State), ∃ t, perform .reset s = .next t ∧ t.keyLo = 0 ∧ t.keyHi = 0 ∧ t.iv = 0 ∧ t.chain = 0 ∧ t.din = 0 ∧
    t.dout = 0 ∧ (∀ i : Fin 15, t.ek[i.val] = 0 ∧ t.dk[i.val] = 0) ∧ t.alg = .aes128 ∧ t.mode = .ecb ∧
    t.ekValid = false ∧ t.dkValid = false ∧ t.msValid = false ∧ t.ivValid = false ∧ statusWord t = 0 ∧ ctxWord t = 0 ∧
    t.srcAddr = 0 ∧ t.srcLen = 0 ∧ t.dstAddr = 0 ∧ t.dstLen = 0 ∧ t.mem = s.mem ∧ t.platform = s.platform ∧
    (∀ n : BitVec 8, readRegister (regOf n) t = 0) ∧ exec .clear s = .next t) ∧
  (∀ (p : Platform) (n : BitVec 8), readRegister (regOf n) (State.resetOn p) = 0)

/-- spec/70_reset_and_hazards.md section 1 (an inference the spec marks as its own). On the reset state every command that
names an operation, but for `KEXP`, `INIT` and `CLEAR`, fails with `NOT_READY`; `KEXP` succeeds and expands the all-zero key.
`MSTART` with `MODE` 5 to 7 names no operation and is left to `UnperformedWordsFail` and `MstartStartsSession`
(notes/assumptions/18.md). -/
def Obligations.FirstCommandAfterReset : Prop :=
  (∀ (p : Platform) (i : Instr), i.wellFormed = true → (∀ a, i ≠ .kexp a) → (∀ a m v, i ≠ .init a m v) → i ≠ .clear →
    exec i (State.resetOn p) = .next { State.resetOn p with statusCode := .notReady, statusArg := .none }) ∧
  (∀ (p : Platform), ∃ t, exec (.kexp 0) (State.resetOn p) = .next t ∧ t.statusCode = .success ∧
    t.ek[1] = fips 0x62636363626363636263636362636363 ∧ t.ek[10] = fips 0xb4ef5bcb3e92e21123e951cf6f8f188e)

/-! ### Bytes, memory, primitives -/

/-- R64, R122. A chunk read from memory becomes the block whose byte `b[i]` is the byte at `a + i`; a block written puts `b[i]`
at `a + i` and changes no other byte; `b[0]` is the least significant byte of the 128-bit value. The canonical form of the memory
is the model's own (notes/assumptions/5.md). -/
def Obligations.BlocksLoadAndStoreInByteOrder : Prop :=
  (∀ (m : Memory) (a i : Nat), i < 16 → blockByte (blockOfBytes (memRead m a 16)) i = Memory.read m (a + i)) ∧
  (∀ (m : Memory) (a : Nat) (x : Block128), Memory.wf m = true → ∀ c,
    Memory.read (memWrite m a (blockBytes x)) c = if a ≤ c ∧ c < a + 16 then blockByte x (c - a) else Memory.read m c) ∧
  (∀ (x : Block128), (blockByte x 0).toNat = x.toNat % 256 ∧ (blockByte x 15).toNat = x.toNat / 2 ^ 120)

/-- R62, R63. `MemRead` returns the bytes of the range, lowest address first; `MemWrite` stores the vector in the range and
changes no other address, and with an empty vector changes nothing. The canonical form of the memory is the model's own
(notes/assumptions/5.md). -/
def Obligations.MemReadAndMemWrite : Prop :=
  (∀ (m : Memory) (addr n : Nat), (memRead m addr n).length = n ∧
    ∀ j < n, (memRead m addr n).getD j 0 = Memory.read m (addr + j)) ∧
  (∀ (m : Memory) (addr : Nat) (v : List Byte), Memory.wf m = true → ∀ a,
    Memory.read (memWrite m addr v) a = if addr ≤ a ∧ a < addr + v.length then v.getD (a - addr) 0 else Memory.read m a) ∧
  (∀ (m : Memory) (addr : Nat), memWrite m addr [] = m ∧ memRead m addr 0 = [])

/-- spec/40_block_primitives.md section 3 (text the spec marks as general knowledge). The substitution tables agree with the
algebraic definition on all 256 inputs and are inverse to each other. -/
def Obligations.SboxAgreesWithAlgebra : Prop :=
  ∀ a : Byte, sbox a = sboxAlgebraic a ∧ invSbox (sbox a) = a ∧ sbox (invSbox a) = a ∧
    (a ≠ 0 → gmul a (ginv a) = 1) ∧ ginv 0 = 0

/-- R126, R127, R128. `ByteSwap`, `LaneInc` and `IncBE`: the counter is the big-endian value, incremented modulo `2^128` with
the carry through all sixteen bytes; all-0xFF wraps to all-zero; the period is `2^128`. -/
def Obligations.CounterIncrementIsBigEndian : Prop :=
  (∀ (x : Block128),
    (∀ i < 16, blockByte (byteSwap x) i = blockByte x (15 - i)) ∧ byteSwap (byteSwap x) = x ∧
    (laneInc x).toNat = (x.toNat + 1) % 2 ^ 128 ∧
    incBE x = byteSwap (laneInc (byteSwap x)) ∧ beValue (incBE x) = (beValue x + 1) % 2 ^ 128 ∧
    ((∀ j < 16, blockByte x j = 0xff) → incBE x = 0) ∧
    (∀ j < 16, blockByte x j ≠ 0xff → (∀ k, j < k → k < 16 → blockByte x k = 0xff) →
      ∀ i < 16, blockByte (incBE x) i = if i < j then blockByte x i else if i = j then blockByte x j + 1 else 0) ∧
    (∀ n : Nat, incBE^[n] x = x ↔ 2 ^ 128 ∣ n)) ∧
  Function.Bijective incBE

/-- spec/40_block_primitives.md section 5 (text the spec marks as general knowledge). The state functions of the cipher are
inverse in pairs, the row shifts commute with the byte substitutions, and the column mixes are linear over xor. -/
def Obligations.CipherLayersInvert : Prop :=
  (∀ x : Block128, invSubBytes (subBytes x) = x ∧ subBytes (invSubBytes x) = x) ∧
  (∀ x : Block128, invShiftRows (shiftRows x) = x ∧ shiftRows (invShiftRows x) = x) ∧
  (∀ x : Block128, invMixColumns (mixColumns x) = x ∧ mixColumns (invMixColumns x) = x) ∧
  (∀ x : Block128, shiftRows (subBytes x) = subBytes (shiftRows x) ∧
    invShiftRows (invSubBytes x) = invSubBytes (invShiftRows x)) ∧
  (∀ x y : Block128, mixColumns (xor128 x y) = xor128 (mixColumns x) (mixColumns y) ∧
    invMixColumns (xor128 x y) = xor128 (invMixColumns x) (invMixColumns y)) ∧
  invMixColumns 0 = 0

/-! ### Key schedule -/

/-- R161. The key is the first `4 Nk` bytes of the two key lanes; the bytes above are ignored. -/
def Obligations.KeyBytesComeFromKeyLanes : Prop :=
  (∀ (a : Alg) (lo hi : Block128), (keyBytes a lo hi).length = 4 * nk a ∧
    ∀ n < 4 * nk a, (keyBytes a lo hi).getD n 0 = if n < 16 then blockByte lo n else blockByte hi (n - 16)) ∧
  (∀ (lo hi hi' : Block128), keyBytes .aes128 lo hi = keyBytes .aes128 lo hi') ∧
  (∀ (lo hi hi' : Block128), (∀ i < 8, blockByte hi i = blockByte hi' i) → keyBytes .aes192 lo hi = keyBytes .aes192 lo hi')

/-- spec/41_key_schedule.md section 2 (text the spec marks as general knowledge). The expanded round keys are cut from the
words of the recurrence, in order. -/
def Obligations.ExpansionFollowsWordRecurrence : Prop :=
  ∀ (a : Alg) (key : List Byte),
    (scheduleWords a key).length = 4 * (nr a + 1) ∧
    (∀ i < nk a, (scheduleWords a key).getD i 0 =
      wordOf (key.getD (4 * i) 0) (key.getD (4 * i + 1) 0) (key.getD (4 * i + 2) 0) (key.getD (4 * i + 3) 0)) ∧
    (∀ i, nk a ≤ i → i < 4 * (nr a + 1) →
      (scheduleWords a key).getD i 0 = (scheduleWords a key).getD (i - nk a) 0 ^^^
        (if i % nk a = 0 then subWord (rotWord ((scheduleWords a key).getD (i - 1) 0)) ^^^ wordOf (rcon (i / nk a)) 0 0 0
         else if nk a = 8 ∧ i % nk a = 4 then subWord ((scheduleWords a key).getD (i - 1) 0)
         else (scheduleWords a key).getD (i - 1) 0)) ∧
    (expand a key).length = nr a + 1 ∧
    (∀ r ≤ nr a, ∀ j < 4, blockWord ((expand a key).getD r 0) j = (scheduleWords a key).getD (4 * r + j) 0)

/-- spec/41_key_schedule.md section 4, last rule (an inference the spec marks as its own). The lane-level schedules of the
document's datapath equal the word recurrence for every key of every size, whatever the unused half of `hi` holds. -/
def Obligations.LaneSchedulesEqualExpansion : Prop :=
  ∀ (lo hi : Block128),
    lanes128 lo = expand .aes128 (keyBytes .aes128 lo hi) ∧
    lanes192 lo hi = expand .aes192 (keyBytes .aes192 lo hi) ∧
    lanes256 lo hi = expand .aes256 (keyBytes .aes256 lo hi)

/-- R176. `Invert` reverses the order and passes every interior key through `InvMixColumns`; it loses nothing. -/
def Obligations.InvertReversesAndTransforms : Prop :=
  (∀ (ek : List Block128) (n : Nat), 1 ≤ n → ek.length = n + 1 →
    (invert ek).length = n + 1 ∧ (invert ek).getD 0 0 = ek.getD n 0 ∧ (invert ek).getD n 0 = ek.getD 0 0 ∧
    ∀ i, 1 ≤ i → i ≤ n - 1 → (invert ek).getD i 0 = invMixColumns (ek.getD (n - i) 0) ∧
      ek.getD (n - i) 0 = mixColumns ((invert ek).getD i 0)) ∧
  (∀ (ek ek' : List Block128), invert ek = invert ek' → ek = ek')

/-- R190. Key-schedule self-consistency: decrypting under the inverted schedule undoes encrypting, for every algorithm, key
and block. -/
def Obligations.ScheduleSelfConsistency : Prop :=
  ∀ (a : Alg) (key : List Byte) (p : Block128), blockDecrypt (blockEncrypt p (expand a key)) (invert (expand a key)) = p

/-- spec/42_round_function.md section 2 (an inference the spec marks as its own). The identity holds for arbitrary round keys,
in both orders. -/
def Obligations.DecryptionInvertsEncryption : Prop :=
  ∀ (ek : List Block128) (x : Block128), 2 ≤ ek.length →
    blockDecrypt (blockEncrypt x ek) (invert ek) = x ∧ blockEncrypt (blockDecrypt x (invert ek)) ek = x

/-- R209. The FIPS-197 known answers for the three key sizes. -/
def Obligations.KnownAnswers : Prop :=
  blockEncrypt (fips 0x00112233445566778899aabbccddeeff)
    (expand .aes128 (keyBytes .aes128 (fips 0x000102030405060708090a0b0c0d0e0f) 0))
    = fips 0x69c4e0d86a7b0430d8cdb78070b4c55a ∧
  blockEncrypt (fips 0x00112233445566778899aabbccddeeff)
    (expand .aes192 (keyBytes .aes192 (fips 0x000102030405060708090a0b0c0d0e0f) (fips 0x10111213141516170000000000000000)))
    = fips 0xdda97ca4864cdfe06eaf70a0ec0d7191 ∧
  blockEncrypt (fips 0x00112233445566778899aabbccddeeff)
    (expand .aes256 (keyBytes .aes256 (fips 0x000102030405060708090a0b0c0d0e0f) (fips 0x101112131415161718191a1b1c1d1e1f)))
    = fips 0x8ea2b7ca516745bfeafc49904b496089

/-- spec/42_round_function.md section 3 (an inference the spec marks as its own). `Enc` and `Dec` are `E` and `D` over entries
0 to `Nr(ALG)` of the files, and read no entry above. -/
def Obligations.CipherReadsUsedKeysOnly : Prop :=
  (∀ (s : State) (x : Block128),
    s.enc x = blockEncrypt x ((List.range (nr s.alg + 1)).map fun i => s.ek.toList.getD i 0) ∧
    s.dec x = blockDecrypt x ((List.range (nr s.alg + 1)).map fun i => s.dk.toList.getD i 0)) ∧
  (∀ (s t : State), t.alg = s.alg → (∀ i : Fin 15, i.val ≤ nr s.alg → t.ek[i.val] = s.ek[i.val] ∧ t.dk[i.val] = s.dk[i.val]) →
    t.enc = s.enc ∧ t.dec = s.dec)

/-! ### Commands over registers -/

/-- R170. `KEXP` for each algorithm, and its failure for code 3. -/
def Obligations.KexpExpandsKey : Prop :=
  (∀ (alg : BitVec 2), decode (BitVec.ofNat 32 (0x01 + alg.toNat * 2 ^ 8)) = .ok (.kexp alg)) ∧
  (∀ (w : CmdWord) (s : State), cmdOp w = 0x01 → (∀ alg, w ≠ encode (.kexp alg)) →
    issueCommand w s = .next { s with statusCode := .illegalCommand, statusArg := .none }) ∧
  (∀ (s : State), exec (.kexp 3) s = .next { s with statusCode := .notImplemented, statusArg := .none }) ∧
  (∀ (a : Alg) (s : State), ∃ t, exec (.kexp (algCode a)) s = .next t ∧
    (∀ i : Fin 15, t.ek[i.val] = if i.val ≤ nr a then (expand a (keyBytes a s.keyLo s.keyHi)).getD i.val 0 else 0) ∧
    (∀ i : Fin 15, t.dk[i.val] = 0) ∧ t.alg = a ∧ t.mode = .ecb ∧ t.chain = 0 ∧
    t.ekValid = true ∧ t.dkValid = false ∧ t.msValid = false ∧ t.ivValid = false ∧
    t.statusCode = .success ∧ t.statusArg = .none ∧ (ctxWord t).toNat = 0x20 + (algCode a).toNat ∧
    t.ek[0] = s.keyLo ∧ (a = .aes256 → t.ek[1] = s.keyHi) ∧
    (a = .aes192 → ∀ i < 8, blockByte t.ek[1] i = blockByte s.keyHi i) ∧
    (∃ u, exec (.kexp (algCode a)) t = .next u ∧ u.ek = t.ek) ∧
    t = { s with ek := t.ek, dk := t.dk, alg := t.alg, mode := t.mode, chain := t.chain, ekValid := t.ekValid,
                 dkValid := t.dkValid, msValid := t.msValid, ivValid := t.ivValid, statusCode := t.statusCode,
                 statusArg := t.statusArg } ∧
    ∀ x, Memory.read t.mem x = Memory.read s.mem x)

/-- R180. `KINV` writes the inverted schedule and its flag and nothing else of the context; without an encryption schedule it
fails. -/
def Obligations.KinvInvertsSchedule : Prop :=
  decode 0x00000002 = .ok .kinv ∧
  (∀ (w : CmdWord) (s : State), cmdOp w = 0x02 → w ≠ 0x00000002 →
    issueCommand w s = .next { s with statusCode := .illegalCommand, statusArg := .none }) ∧
  (∀ (s : State), s.ekValid = false → exec .kinv s = .next { s with statusCode := .notReady, statusArg := .none }) ∧
  (∀ (s : State), s.ekValid = true → ∃ t, exec .kinv s = .next t ∧
    (∀ i : Fin 15, t.dk[i.val] = if i.val ≤ nr s.alg then
      (invert ((List.range (nr s.alg + 1)).map fun j => s.ek.toList.getD j 0)).getD i.val 0 else 0) ∧
    t.dkValid = true ∧ t.statusCode = .success ∧ t.statusArg = .none ∧ exec .kinv t = .next t ∧
    t = { s with dk := t.dk, dkValid := t.dkValid, statusCode := t.statusCode, statusArg := t.statusArg } ∧
    ∀ x, Memory.read t.mem x = Memory.read s.mem x)

/-- R230. `MSTART`: its three failures in order, and the session it starts. -/
def Obligations.MstartStartsSession : Prop :=
  (∀ (mode : BitVec 3) (v : Bool),
    decode (BitVec.ofNat 32 (0x03 + mode.toNat * 2 ^ 10 + v.toNat * 0x2000)) = .ok (.mstart mode v)) ∧
  (∀ (w : CmdWord) (s : State), cmdOp w = 0x03 → (∀ mode v, w ≠ encode (.mstart mode v)) →
    issueCommand w s = .next { s with statusCode := .illegalCommand, statusArg := .none }) ∧
  (∀ (mode : BitVec 3) (v : Bool) (s : State), 5 ≤ mode.toNat →
    exec (.mstart mode v) s = .next { s with statusCode := .notImplemented, statusArg := .none }) ∧
  (∀ (m : Mode) (v : Bool) (s : State), s.ekValid = false →
    exec (.mstart (modeCode m) v) s = .next { s with statusCode := .notReady, statusArg := .none }) ∧
  (∀ (m : Mode) (s : State), s.ekValid = true → m ≠ .ecb →
    exec (.mstart (modeCode m) false) s = .next { s with statusCode := .nullArgument, statusArg := .iv }) ∧
  (∀ (m : Mode) (v : Bool) (s : State), s.ekValid = true → (m ≠ .ecb → v = true) →
    ∃ t, exec (.mstart (modeCode m) v) s = .next t ∧ t.mode = m ∧ (v = true → t.chain = s.iv) ∧ (v = false → t.chain = 0) ∧
      t.ivValid = v ∧ t.msValid = true ∧ t.statusCode = .success ∧ t.statusArg = .none ∧
      t = { s with mode := t.mode, chain := t.chain, ivValid := t.ivValid, msValid := t.msValid,
                   statusCode := t.statusCode, statusArg := t.statusArg } ∧
      ∀ x, Memory.read t.mem x = Memory.read s.mem x)

/-- R240. `ENCB`: one encrypt step of the session's mode on `DIN`. -/
def Obligations.EncbEncryptsOneBlock : Prop :=
  decode 0x00000004 = .ok .encb ∧
  (∀ (w : CmdWord) (s : State), cmdOp w = 0x04 → w ≠ 0x00000004 →
    issueCommand w s = .next { s with statusCode := .illegalCommand, statusArg := .none }) ∧
  (∀ (s : State), s.msValid = false → exec .encb s = .next { s with statusCode := .notReady, statusArg := .none }) ∧
  (∀ (s : State), s.msValid = true → ∃ t, exec .encb s = .next t ∧ t.statusCode = .success ∧ t.statusArg = .none ∧
    (s.mode = .ecb → t.dout = s.enc s.din ∧ t.chain = s.chain) ∧
    (s.mode = .cbc → t.dout = s.enc (s.din ^^^ s.chain) ∧ t.chain = t.dout) ∧
    (s.mode = .cfb → t.dout = s.enc s.chain ^^^ s.din ∧ t.chain = t.dout) ∧
    (s.mode = .ofb → t.dout = s.enc s.chain ^^^ s.din ∧ t.chain = s.enc s.chain) ∧
    (s.mode = .ctr → t.dout = s.din ^^^ s.enc s.chain ∧ t.chain = incBE s.chain) ∧
    (∀ x, s.enc x = blockEncrypt x ((List.range (nr s.alg + 1)).map fun i => s.ek.toList.getD i 0)) ∧
    t = { s with dout := t.dout, chain := t.chain, statusCode := t.statusCode, statusArg := t.statusArg } ∧
    ∀ x, Memory.read t.mem x = Memory.read s.mem x)

/-- R245. `DECB`: one decrypt step of the session's mode on `DIN`; ECB and CBC need the decryption schedule, the other modes do
not; in OFB and CTR it is the same function as `ENCB`. -/
def Obligations.DecbDecryptsOneBlock : Prop :=
  decode 0x00000005 = .ok .decb ∧
  (∀ (w : CmdWord) (s : State), cmdOp w = 0x05 → w ≠ 0x00000005 →
    issueCommand w s = .next { s with statusCode := .illegalCommand, statusArg := .none }) ∧
  (∀ (s : State), (s.msValid = false ∨ ((s.mode = .ecb ∨ s.mode = .cbc) ∧ s.dkValid = false)) →
    exec .decb s = .next { s with statusCode := .notReady, statusArg := .none }) ∧
  (∀ (s : State), s.msValid = true → ((s.mode = .ecb ∨ s.mode = .cbc) → s.dkValid = true) →
    ∃ t, exec .decb s = .next t ∧ t.statusCode = .success ∧ t.statusArg = .none ∧
      (s.mode = .ecb → t.dout = s.dec s.din ∧ t.chain = s.chain) ∧
      (s.mode = .cbc → t.dout = s.dec s.din ^^^ s.chain ∧ t.chain = s.din) ∧
      (s.mode = .cfb → t.dout = s.enc s.chain ^^^ s.din ∧ t.chain = s.din) ∧
      (s.mode = .ofb → t.dout = s.enc s.chain ^^^ s.din ∧ t.chain = s.enc s.chain) ∧
      (s.mode = .ctr → t.dout = s.din ^^^ s.enc s.chain ∧ t.chain = incBE s.chain) ∧
      ((s.mode = .ofb ∨ s.mode = .ctr) → exec .encb s = .next t) ∧
      (∀ x, s.dec x = blockDecrypt x ((List.range (nr s.alg + 1)).map fun i => s.dk.toList.getD i 0)) ∧
      t = { s with dout := t.dout, chain := t.chain, statusCode := t.statusCode, statusArg := t.statusArg } ∧
      ∀ x, Memory.read t.mem x = Memory.read s.mem x)

/-- R300. `INIT`: its two failures in order, the context it builds, and that it leaves the state of `KEXP`, `KINV`, `MSTART`
when each of these succeeds. -/
def Obligations.InitBuildsContext : Prop :=
  (∀ (alg : BitVec 2) (mode : BitVec 3) (v : Bool),
    decode (BitVec.ofNat 32 (0x08 + alg.toNat * 2 ^ 8 + mode.toNat * 2 ^ 10 + v.toNat * 0x2000)) = .ok (.init alg mode v)) ∧
  (∀ (w : CmdWord) (s : State), cmdOp w = 0x08 → (∀ alg mode v, w ≠ encode (.init alg mode v)) →
    issueCommand w s = .next { s with statusCode := .illegalCommand, statusArg := .none }) ∧
  (∀ (alg : BitVec 2) (mode : BitVec 3) (v : Bool) (s : State), (alg = 3 ∨ 5 ≤ mode.toNat) →
    exec (.init alg mode v) s = .next { s with statusCode := .notImplemented, statusArg := .none }) ∧
  (∀ (a : Alg) (m : Mode) (s : State), m ≠ .ecb →
    exec (.init (algCode a) (modeCode m) false) s = .next { s with statusCode := .nullArgument, statusArg := .iv }) ∧
  (∀ (a : Alg) (m : Mode) (v : Bool) (s : State), (m ≠ .ecb → v = true) →
    ∃ t, exec (.init (algCode a) (modeCode m) v) s = .next t ∧
      (∀ i : Fin 15, t.ek[i.val] = if i.val ≤ nr a then (expand a (keyBytes a s.keyLo s.keyHi)).getD i.val 0 else 0) ∧
      (∀ i : Fin 15, t.dk[i.val] =
        if i.val ≤ nr a then (invert (expand a (keyBytes a s.keyLo s.keyHi))).getD i.val 0 else 0) ∧
      t.alg = a ∧ t.mode = m ∧ (v = true → t.chain = s.iv) ∧ (v = false → t.chain = 0) ∧
      t.ekValid = true ∧ t.dkValid = true ∧ t.msValid = true ∧ t.ivValid = v ∧
      t.statusCode = .success ∧ t.statusArg = .none ∧
      (ctxWord t).toNat = 0xE0 + v.toNat * 0x100 + 4 * (modeCode m).toNat + (algCode a).toNat ∧
      (∃ s1 s2, exec (.kexp (algCode a)) s = .next s1 ∧ exec .kinv s1 = .next s2 ∧
        exec (.mstart (modeCode m) v) s2 = .next t) ∧
      t = { s with ek := t.ek, dk := t.dk, alg := t.alg, mode := t.mode, chain := t.chain, ekValid := t.ekValid,
                   dkValid := t.dkValid, msValid := t.msValid, ivValid := t.ivValid, statusCode := t.statusCode,
                   statusArg := t.statusArg } ∧
      ∀ x, Memory.read t.mem x = Memory.read s.mem x)

/-- R310, R36. `CLEAR` zeroes every register, tag, flag and key and reaches exactly the reset state; the buffer memory is not
changed. -/
def Obligations.ClearDiscardsContext : Prop :=
  decode 0x00000009 = .ok .clear ∧
  (∀ (w : CmdWord) (s : State), cmdOp w = 0x09 → w ≠ 0x00000009 →
    issueCommand w s = .next { s with statusCode := .illegalCommand, statusArg := .none }) ∧
  ∀ (s : State), ∃ t, exec .clear s = .next t ∧ t.keyLo = 0 ∧ t.keyHi = 0 ∧ t.iv = 0 ∧ t.din = 0 ∧ t.dout = 0 ∧ t.chain = 0 ∧
    (∀ i : Fin 15, t.ek[i.val] = 0 ∧ t.dk[i.val] = 0) ∧ t.alg = .aes128 ∧ t.mode = .ecb ∧
    t.ekValid = false ∧ t.dkValid = false ∧ t.msValid = false ∧ t.ivValid = false ∧
    t.srcAddr = 0 ∧ t.srcLen = 0 ∧ t.dstAddr = 0 ∧ t.dstLen = 0 ∧ t.statusCode = .success ∧ t.statusArg = .none ∧
    t = { State.resetOn s.platform with mem := s.mem, pending := s.pending, hostData := s.hostData } ∧
    ∀ x, Memory.read t.mem x = Memory.read s.mem x

/-! ### Modes -/

/-- R224. The inverse cipher is used by exactly two of the ten mode steps, ECB and CBC decrypt, which use nothing else; the
other eight use the forward cipher only. So no result of an encrypting command, and no result of a decrypting command in CFB,
OFB or CTR, depends on the decryption round keys or their flag. -/
def Obligations.InverseCipherOnlyInEcbAndCbcDecrypt : Prop :=
  (∀ (enc dec dec' : Block128 → Block128) (m : Mode) (x c : Block128), m ≠ .ecb → m ≠ .cbc →
    modeDec enc dec m x c = modeDec enc dec' m x c) ∧
  (∀ (enc enc' dec : Block128 → Block128) (m : Mode) (x c : Block128), (m = .ecb ∨ m = .cbc) →
    modeDec enc dec m x c = modeDec enc' dec m x c) ∧
  (∀ (i : Instr) (s t : State) (d : Vector Block128 15) (v : Bool),
    (i = .encb ∨ i = .encbuf ∨ ((i = .decb ∨ i = .decbuf) ∧ s.mode ≠ .ecb ∧ s.mode ≠ .cbc)) →
    exec i s = .next t → exec i { s with dk := d, dkValid := v } = .next { t with dk := d, dkValid := v })

/-- spec/43_modes.md section 2 (an inference the spec marks as its own). A decrypt step on the output of an encrypt step from
the same chaining state returns the plaintext and the same next chaining state, in every mode. -/
def Obligations.DirectionsStaySynchronous : Prop :=
  (∀ (enc dec : Block128 → Block128) (m : Mode) (p c : Block128), (∀ x, dec (enc x) = x) →
    modeDec enc dec m (modeEnc enc m p c).1 c = (p, (modeEnc enc m p c).2)) ∧
  (∀ (s : State) (x : Block128), s.dk = keyFile (nr s.alg) (invert (fileKeys (nr s.alg) s.ek)) →
    s.dec (s.enc x) = x ∧ s.enc (s.dec x) = x)

/-- spec/43_modes.md section 2 and spec/44_buffer.md section 4. The outputs of a sequence of `ENCB` or `DECB` commands are the
mode's steps taken over the sequence from the chaining state at the first, and `S` ends as the steps leave it. -/
def Obligations.BlockCommandsFollowModeStream : Prop :=
  (∀ (xs : List Block128) (s : State), s.msValid = true → ∃ t,
    blockRun .encb xs s = some ((stream (modeEnc s.enc s.mode) xs s.chain).1, t) ∧
    t.chain = (stream (modeEnc s.enc s.mode) xs s.chain).2 ∧
    t = { s with din := t.din, dout := t.dout, chain := t.chain, statusCode := t.statusCode, statusArg := t.statusArg }) ∧
  (∀ (xs : List Block128) (s : State), s.msValid = true → (needsDk s.mode = true → s.dkValid = true) → ∃ t,
    blockRun .decb xs s = some ((stream (modeDec s.enc s.dec s.mode) xs s.chain).1, t) ∧
    t.chain = (stream (modeDec s.enc s.dec s.mode) xs s.chain).2 ∧
    t = { s with din := t.din, dout := t.dout, chain := t.chain, statusCode := t.statusCode, statusArg := t.statusArg })

/-- spec/70_reset_and_hazards.md section 3 (an inference the spec marks as its own). A session is resumed on the same round
keys by writing the snapshot read from `CHAIN` to `IV` and issuing `MSTART` with the same mode, whatever happened to the
chaining state, the mode and the blocks in between; and a write of `IV` alone does not change `S`. -/
def Obligations.SessionResumesFromSnapshot : Prop :=
  (∀ (s u : State), s.msValid = true → u.ekValid = true → u.ek = s.ek → u.dk = s.dk → u.alg = s.alg →
    ∃ u' t, hostWrite 0x06 s.chain.toNat u = .next u' ∧ u'.chain = u.chain ∧
      exec (.mstart (modeCode s.mode) true) u' = .next t ∧ t.msValid = true ∧ t.mode = s.mode ∧ t.chain = s.chain ∧
      t.enc = s.enc ∧ t.dec = s.dec)

/-! ### The buffer layer -/

/-- R261, R263. `PadLen`, `Pad` and `PadCheck`. -/
def Obligations.PaddingIsPkcs7 : Prop :=
  (∀ n : Nat, padLen n = 16 - n % 16 ∧ 1 ≤ padLen n ∧ padLen n ≤ 16) ∧
  (∀ (t : List Byte), t.length ≤ 15 → ∀ i < 16,
    blockByte (pad t) i = if i < t.length then t.getD i 0 else BitVec.ofNat 8 (16 - t.length)) ∧
  (∀ (b : Block128) (k : Nat), padCheck b = some k ↔
    1 ≤ k ∧ k ≤ 16 ∧ (blockByte b 15).toNat = k ∧ ∀ j, 16 - k ≤ j → j ≤ 15 → (blockByte b j).toNat = k) ∧
  (∀ (t : List Byte), t.length ≤ 15 → padCheck (pad t) = some (16 - t.length))

/-- R72, R264. `RangeOK` says of every address what the rule says: no wrap-around, both ranges accessible, and the ranges
disjoint or starting at one address; a real run that fails it ends in `ADDR_RANGE` with nothing else changed. -/
def Obligations.RangeCheckGuardsRealRuns : Prop :=
  (∀ (p : Platform) (src n dst req : Nat), src < 2 ^ p.aw →
    (rangeOk p src n dst req = true ↔
      (src + n ≤ 2 ^ p.aw ∧ dst + req ≤ 2 ^ p.aw) ∧
      (∀ x, (src ≤ x ∧ x < src + n) ∨ (dst ≤ x ∧ x < dst + req) → accessible p x = true) ∧
      ((∀ x, ¬ ((src ≤ x ∧ x < src + n) ∧ (dst ≤ x ∧ x < dst + req))) ∨ dst = src))) ∧
  (∀ (s : State), s.msValid = true → encReq s.srcLen < 2 ^ s.platform.aw → s.dstAddr ≠ 0 →
    (s.srcAddr = 0 → s.srcLen = 0) → encReq s.srcLen ≤ s.dstLen →
    rangeOk s.platform s.srcAddr s.srcLen s.dstAddr (encReq s.srcLen) = false →
    exec .encbuf s = .next { s with statusCode := .addrRange, statusArg := .none }) ∧
  (∀ (s : State), s.msValid = true → ((s.mode = .ecb ∨ s.mode = .cbc) → s.dkValid = true) → s.srcLen ≠ 0 →
    s.srcLen % 16 = 0 → s.dstAddr ≠ 0 → s.srcAddr ≠ 0 → s.srcLen ≤ s.dstLen →
    rangeOk s.platform s.srcAddr s.srcLen s.dstAddr s.srcLen = false →
    exec .decbuf s = .next { s with statusCode := .addrRange, statusArg := .none })

/-- R265. With a null destination the buffer commands answer the required size in `DST_LEN` and do nothing else; the source
address and the capacity are not examined. The sizes are those of spec/44_buffer.md section 1. -/
def Obligations.SizingQueryAnswersRequiredSize : Prop :=
  (∀ n : Nat, encReq n = n + padLen n ∧ 16 ∣ encReq n ∧ n < encReq n ∧ encReq n ≤ n + 16) ∧
  (∀ (s : State), s.msValid = true → encReq s.srcLen < 2 ^ s.platform.aw → s.dstAddr = 0 →
    exec .encbuf s = .next { s with dstLen := 16 * (s.srcLen / 16 + 1), statusCode := .success, statusArg := .none }) ∧
  (∀ (s : State), s.msValid = true → 2 ^ s.platform.aw ≤ encReq s.srcLen →
    exec .encbuf s = .next { s with statusCode := .addrRange, statusArg := .none }) ∧
  (∀ (s : State), s.msValid = true → ((s.mode = .ecb ∨ s.mode = .cbc) → s.dkValid = true) → s.srcLen ≠ 0 →
    s.srcLen % 16 = 0 → s.dstAddr = 0 →
    exec .decbuf s = .next { s with dstLen := s.srcLen, statusCode := .success, statusArg := .none })

/-- R266, R267. A real run with too small a destination, or with a null source and source bytes to read, fails and changes
nothing but `STATUS`; with an empty source a null address is no failure: the empty buffer is encrypted, one block of padding.
The canonical form of the memory is the model's own (notes/assumptions/5.md). -/
def Obligations.RealRunNeedsSourceAndCapacity : Prop :=
  (∀ (s : State), s.msValid = true → encReq s.srcLen < 2 ^ s.platform.aw → s.dstAddr ≠ 0 → s.srcAddr = 0 → 0 < s.srcLen →
    exec .encbuf s = .next { s with statusCode := .nullArgument, statusArg := .src }) ∧
  (∀ (s : State), s.msValid = true → encReq s.srcLen < 2 ^ s.platform.aw → s.dstAddr ≠ 0 →
    (s.srcAddr = 0 → s.srcLen = 0) → s.dstLen < encReq s.srcLen →
    exec .encbuf s = .next { s with statusCode := .dstTooSmall, statusArg := .none }) ∧
  (∀ (s : State), s.msValid = true → ((s.mode = .ecb ∨ s.mode = .cbc) → s.dkValid = true) → s.srcLen ≠ 0 →
    s.srcLen % 16 = 0 → s.dstAddr ≠ 0 → s.srcAddr = 0 →
    exec .decbuf s = .next { s with statusCode := .nullArgument, statusArg := .src }) ∧
  (∀ (s : State), s.msValid = true → ((s.mode = .ecb ∨ s.mode = .cbc) → s.dkValid = true) → s.srcLen ≠ 0 →
    s.srcLen % 16 = 0 → s.dstAddr ≠ 0 → s.srcAddr ≠ 0 → s.dstLen < s.srcLen →
    exec .decbuf s = .next { s with statusCode := .dstTooSmall, statusArg := .none }) ∧
  (∀ (s : State), Memory.wf s.mem = true → s.msValid = true → 16 < 2 ^ s.platform.aw → s.dstAddr ≠ 0 → s.srcLen = 0 → 16 ≤ s.dstLen →
    rangeOk s.platform s.srcAddr 0 s.dstAddr 16 = true →
    ∃ t, exec .encbuf s = .next t ∧ t.statusCode = .success ∧ t.dstLen = 16 ∧
      memRead t.mem s.dstAddr 16 = blockBytes (modeEnc s.enc s.mode (fips 0x10101010101010101010101010101010) s.chain).1)

/-- spec/44_buffer.md section 3 (`ENCBUF`), spec/20_memory.md section 5. A real run of `ENCBUF` writes, in place as on disjoint
ranges, exactly the `Req` bytes that the mode's steps over the padded source blocks give, and leaves every other byte and every
register but `S`, `DST_LEN` and `STATUS` unchanged. The canonical form of the memory is the model's own (notes/assumptions/5.md). -/
def Obligations.EncbufEncryptsBuffer : Prop :=
  ∀ (s : State), Memory.wf s.mem = true → encRunOk s = true → ∃ t, exec .encbuf s = .next t ∧
    t.statusCode = .success ∧ t.statusArg = .none ∧ t.dstLen = 16 * (s.srcLen / 16 + 1) ∧
    (blocksBytes (encOutput s).1).length = 16 * (s.srcLen / 16 + 1) ∧ t.chain = (encOutput s).2 ∧
    (∀ a, Memory.read t.mem a = storedByte s.mem s.dstAddr (blocksBytes (encOutput s).1) a) ∧
    t = { s with mem := t.mem, chain := t.chain, dstLen := t.dstLen, statusCode := t.statusCode, statusArg := t.statusArg }

/-- spec/44_buffer.md section 3 (`DECBUF`), spec/20_memory.md section 5. A real run of `DECBUF` whose last decrypted block has
valid padding of length `k` writes exactly the first `SRC_LEN - k` decrypted bytes, and leaves every other byte and every
register but `S`, `DST_LEN` and `STATUS` unchanged. The canonical form of the memory is the model's own (notes/assumptions/5.md). -/
def Obligations.DecbufDecryptsBuffer : Prop :=
  ∀ (s : State) (k : Nat), Memory.wf s.mem = true → decRunOk s = true → padCheck (decLastBlock s) = some k →
    ∃ t, exec .decbuf s = .next t ∧ t.statusCode = .success ∧ t.statusArg = .none ∧ t.dstLen = s.srcLen - k ∧
      (blocksBytes (decOutput s).1).length = s.srcLen ∧ t.chain = (decOutput s).2 ∧
      (∀ a, Memory.read t.mem a = storedByte s.mem s.dstAddr ((blocksBytes (decOutput s).1).take (s.srcLen - k)) a) ∧
      t = { s with mem := t.mem, chain := t.chain, dstLen := t.dstLen, statusCode := t.statusCode, statusArg := t.statusArg }

/-- R278. A real run of `DECBUF` whose last decrypted block has invalid padding: the blocks before the last are written, nothing
of the last is, `S` has advanced through all `q` steps, `DST_LEN` counts the bytes written, the session stays. No other failure changes
anything besides `STATUS`. The canonical form of the memory is the model's own (notes/assumptions/5.md). -/
def Obligations.InvalidPaddingEffects : Prop :=
  (∀ (s : State), Memory.wf s.mem = true → decRunOk s = true → padCheck (decLastBlock s) = none →
    ∃ t, exec .decbuf s = .next t ∧ t.statusCode = .invalidPadding ∧ t.statusArg = .none ∧
      t.dstLen = 16 * (s.srcLen / 16 - 1) ∧ t.chain = (decOutput s).2 ∧ t.msValid = true ∧
      (∀ a, Memory.read t.mem a =
        storedByte s.mem s.dstAddr ((blocksBytes (decOutput s).1).take (16 * (s.srcLen / 16 - 1))) a) ∧
      t = { s with mem := t.mem, chain := t.chain, dstLen := t.dstLen, statusCode := t.statusCode,
                   statusArg := t.statusArg }) ∧
  (∀ (i : Instr) (s t : State), exec i s = .next t → t.statusCode ≠ .success → ¬ (i = .decbuf ∧ t.statusCode = .invalidPadding) →
    t = { s with statusCode := t.statusCode, statusArg := t.statusArg })

/-- spec/44_buffer.md section 4 (an inference the spec marks as its own). Round trip: `ENCBUF` in a fresh session, then the same
`MSTART` and `DECBUF` of the bytes written, with any destination that passes the checks: it succeeds and writes exactly the
original bytes. The canonical form of the memory is the model's own (notes/assumptions/5.md). -/
def Obligations.BufferRoundTrip : Prop :=
  ∀ (s t u : State) (v : Bool) (d l : Nat), Memory.wf s.mem = true → encRunOk s = true → s.ekValid = true →
    s.dk = keyFile (nr s.alg) (invert (fileKeys (nr s.alg) s.ek)) → s.chain = (if v then s.iv else 0) →
    exec .encbuf s = .next t →
    exec (.mstart (modeCode s.mode) v) { t with srcAddr := s.dstAddr, srcLen := t.dstLen, dstAddr := d, dstLen := l } = .next u →
    u.statusCode = .success → decRunOk u = true →
    ∃ w, exec .decbuf u = .next w ∧ w.statusCode = .success ∧ w.dstLen = s.srcLen ∧
      memRead w.mem d s.srcLen = memRead s.mem s.srcAddr s.srcLen

/-! ### Failures -/

/-- R340. Exactly one code is reported: that of the first test, in the table's order, that holds. When none holds the command
succeeds, but for a `DECBUF` whose last decrypted block fails `PadCheck`. The canonical form of the memory, a premise of that
last step, is the model's own (notes/assumptions/5.md). -/
def Obligations.FirstFailureIsReported : Prop :=
  (∀ (w : CmdWord) (s : State),
    ((∃ e, decode w = .error e) → issueCommand w s = .next { s with statusCode := .illegalCommand, statusArg := .none }) ∧
    (∀ i, decode w = .ok i → issueCommand w s = exec i s)) ∧
  (∀ (i : Instr) (s : State) (c : StatusCode) (a : StatusArg), firstAnswer i s = some (.fails c a) →
    exec i s = .next { s with statusCode := c, statusArg := a }) ∧
  (∀ (i : Instr) (s : State), firstAnswer i s = some .sizing →
    exec i s = .next { s with dstLen := reqOf i s, statusCode := .success, statusArg := .none }) ∧
  (∀ (i : Instr) (s : State), firstAnswer i s = none → Memory.wf s.mem = true → ∃ t, exec i s = .next t ∧
    t.statusArg = .none ∧
    t.statusCode = if i = .decbuf ∧ padCheck (decLastBlock s) = none then .invalidPadding else .success)

/-- R336. A command that fails changes nothing but `STATUS`, whose `BUSY` bit stays 0; the one exception is `DECBUF` ending with
`INVALID_PADDING`. -/
def Obligations.FailureChangesOnlyStatus : Prop :=
  (∀ (i : Instr) (s t : State), exec i s = .next t → t.statusCode ≠ .success →
    t = { s with statusCode := t.statusCode, statusArg := t.statusArg } ∨ (i = .decbuf ∧ t.statusCode = .invalidPadding)) ∧
  (∀ (i : Instr) (s t : State), exec i s = .next t → t.statusCode = .invalidPadding → i = .decbuf) ∧
  (∀ (s : State) (c : StatusCode) (a : StatusArg),
    failWith c a s = .next { s with statusCode := c, statusArg := a } ∧ (statusWord (withStatus c a s)).getLsbD 31 = false)

/-- spec/60_exceptions.md section 1 (the matrix of codes by command, an inference the spec marks as its own) and section 2. Every
command ends in a next state with one of its own codes, from every state; no word and no host action on an existing address ever
stops the machine. -/
def Obligations.CommandsEndWithTheirOwnCodes : Prop :=
  (∀ (i : Instr) (s : State), ∃ t, exec i s = .next t ∧ t.statusCode ∈ allowedCodes i ∧
    (t.statusArg ≠ .none ↔ t.statusCode = .nullArgument)) ∧
  (∀ (s : State), (∀ a b rest, s.pending = .memPut a b :: rest → a < 2 ^ s.platform.aw) → ∃ t, step s = .next t)

/-! ### Frames and whole-machine rules -/

/-- spec/10_state.md section 10 (the write matrix, an inference the spec marks as its own). What each command may write, whether
it succeeds or fails: everything not named is unchanged, memory by every command but the two buffer commands. Of these a real run
may write the `Req` bytes at `DST_ADDR` and no other, and a sizing query and every failure but `INVALID_PADDING` write none. The
canonical form of the memory is the model's own (notes/assumptions/5.md). -/
def Obligations.CommandsWriteOnlyTheirColumns : Prop :=
  ∀ (i : Instr) (s t : State), exec i s = .next t →
    match i with
    | .kexp _ => t = { s with ek := t.ek, dk := t.dk, alg := t.alg, mode := t.mode, chain := t.chain, ekValid := t.ekValid,
                              dkValid := t.dkValid, msValid := t.msValid, ivValid := t.ivValid, statusCode := t.statusCode,
                              statusArg := t.statusArg }
    | .kinv => t = { s with dk := t.dk, dkValid := t.dkValid, statusCode := t.statusCode, statusArg := t.statusArg }
    | .mstart _ _ => t = { s with mode := t.mode, chain := t.chain, msValid := t.msValid, ivValid := t.ivValid,
                                  statusCode := t.statusCode, statusArg := t.statusArg }
    | .encb => t = { s with chain := t.chain, dout := t.dout, statusCode := t.statusCode, statusArg := t.statusArg } ∧
        (s.mode = .ecb → t.chain = s.chain)
    | .decb => t = { s with chain := t.chain, dout := t.dout, statusCode := t.statusCode, statusArg := t.statusArg } ∧
        (s.mode = .ecb → t.chain = s.chain)
    | .encbuf => t = { s with chain := t.chain, dstLen := t.dstLen, mem := t.mem, statusCode := t.statusCode,
                              statusArg := t.statusArg } ∧
        (s.mode = .ecb → t.chain = s.chain) ∧ (s.dstAddr = 0 → t.mem = s.mem ∧ t.chain = s.chain) ∧
        (t.statusCode ≠ .success → t.statusCode ≠ .invalidPadding → t.mem = s.mem ∧ t.chain = s.chain ∧ t.dstLen = s.dstLen) ∧
        (Memory.wf s.mem = true → ∀ a, ¬ (s.dstAddr ≤ a ∧ a < s.dstAddr + reqOf .encbuf s) →
          Memory.read t.mem a = Memory.read s.mem a)
    | .decbuf => t = { s with chain := t.chain, dstLen := t.dstLen, mem := t.mem, statusCode := t.statusCode,
                              statusArg := t.statusArg } ∧
        (s.mode = .ecb → t.chain = s.chain) ∧ (s.dstAddr = 0 → t.mem = s.mem ∧ t.chain = s.chain) ∧
        (t.statusCode ≠ .success → t.statusCode ≠ .invalidPadding → t.mem = s.mem ∧ t.chain = s.chain ∧ t.dstLen = s.dstLen) ∧
        (Memory.wf s.mem = true → ∀ a, ¬ (s.dstAddr ≤ a ∧ a < s.dstAddr + reqOf .decbuf s) →
          Memory.read t.mem a = Memory.read s.mem a)
    | .init _ _ _ => t = { s with ek := t.ek, dk := t.dk, alg := t.alg, mode := t.mode, chain := t.chain, ekValid := t.ekValid,
                                  dkValid := t.dkValid, msValid := t.msValid, ivValid := t.ivValid,
                                  statusCode := t.statusCode, statusArg := t.statusArg }
    | .clear => t.mem = s.mem ∧ t.platform = s.platform ∧ t.pending = s.pending ∧ t.hostData = s.hostData

/-- R27. What sets and clears each valid flag, what it means when a command sets it, and that a failing command changes no
flag. -/
def Obligations.FlagsAreSetAndClearedByCommands : Prop :=
  (∀ (i : Instr) (s t : State), exec i s = .next t → t.statusCode ≠ .success →
    t.ekValid = s.ekValid ∧ t.dkValid = s.dkValid ∧ t.msValid = s.msValid ∧ t.ivValid = s.ivValid) ∧
  (∀ (alg : BitVec 2) (s t : State), exec (.kexp alg) s = .next t → t.statusCode = .success →
    t.ekValid = true ∧ t.dkValid = false ∧ t.msValid = false ∧ t.ivValid = false ∧
    fileKeys (nr t.alg) t.ek = expand t.alg (keyBytes t.alg s.keyLo s.keyHi)) ∧
  (∀ (s t : State), exec .kinv s = .next t → t.statusCode = .success →
    t.dkValid = true ∧ t.ekValid = s.ekValid ∧ t.msValid = s.msValid ∧ t.ivValid = s.ivValid ∧
    fileKeys (nr t.alg) t.dk = invert (fileKeys (nr t.alg) t.ek)) ∧
  (∀ (mode : BitVec 3) (v : Bool) (s t : State), exec (.mstart mode v) s = .next t → t.statusCode = .success →
    t.msValid = true ∧ t.ivValid = v ∧ t.ekValid = true ∧ t.dkValid = s.dkValid ∧ modeCode t.mode = mode ∧
    t.chain = if v then s.iv else 0) ∧
  (∀ (alg : BitVec 2) (mode : BitVec 3) (v : Bool) (s t : State), exec (.init alg mode v) s = .next t →
    t.statusCode = .success → t.ekValid = true ∧ t.dkValid = true ∧ t.msValid = true ∧ t.ivValid = v ∧
    fileKeys (nr t.alg) t.ek = expand t.alg (keyBytes t.alg s.keyLo s.keyHi) ∧
    fileKeys (nr t.alg) t.dk = invert (fileKeys (nr t.alg) t.ek) ∧ modeCode t.mode = mode ∧ t.chain = if v then s.iv else 0) ∧
  (∀ (s : State), ∃ t, exec .clear s = .next t ∧
    t.ekValid = false ∧ t.dkValid = false ∧ t.msValid = false ∧ t.ivValid = false) ∧
  (∀ (i : Instr) (s t : State), (i = .encb ∨ i = .decb ∨ i = .encbuf ∨ i = .decbuf) → exec i s = .next t →
    t.ekValid = s.ekValid ∧ t.dkValid = s.dkValid ∧ t.msValid = s.msValid ∧ t.ivValid = s.ivValid) ∧
  (∀ (s : State), (resetEngine s).ekValid = false ∧ (resetEngine s).dkValid = false ∧ (resetEngine s).msValid = false ∧
    (resetEngine s).ivValid = false)

/-- spec/20_memory.md section 1. No command but the two buffer commands reads or writes the buffer memory, and a sizing query
does not either. -/
def Obligations.OnlyRealBufferRunsTouchMemory : Prop :=
  ∀ (i : Instr) (s t : State) (m : Memory), ((i ≠ .encbuf ∧ i ≠ .decbuf) ∨ s.dstAddr = 0) → exec i s = .next t →
    t.mem = s.mem ∧ exec i { s with mem := m } = .next { t with mem := m }

/-- spec/20_memory.md section 4. The byte at the null address is never read or written by the engine. The canonical form of the
memory is the model's own (notes/assumptions/5.md). -/
def Obligations.NullAddressByteIsUntouched : Prop :=
  ∀ (i : Instr) (s t : State) (b : Byte), Memory.wf s.mem = true → exec i s = .next t →
    Memory.read t.mem 0 = Memory.read s.mem 0 ∧
    ∃ u, exec i { s with mem := Memory.write s.mem 0 b } = .next u ∧ u = { t with mem := u.mem } ∧
      Memory.read u.mem 0 = b ∧ ∀ a ≠ 0, Memory.read u.mem a = Memory.read t.mem a

/-! ### Invariants of every step -/

/-- spec/10_state.md section 6, last rule (an inference the spec marks as its own). Every step keeps the session invariants, from
every state that has them. -/
def Obligations.StepKeepsSessionInvariants : Prop :=
  ∀ (s t : State), SessionInv s → step s = .next t → SessionInv t

/-- spec/10_state.md sections 5 and 6. Every step keeps what the valid flags of the two schedules mean: `EK` is an expanded key,
`DK` its inverted schedule, both zero above `Nr`. -/
def Obligations.StepKeepsSchedules : Prop :=
  ∀ (s t : State), ScheduleInv s → step s = .next t → ScheduleInv t

/-- spec/00_scope.md section 5, spec/10_state.md section 7, spec/60_exceptions.md section 1; the canonical form of the memory, and
that a descriptor takes a number of `2^AW` or more modulo `2^AW`, are the model's own (notes/assumptions/4.md, 5.md). Every step
keeps the memory canonical, the descriptors of their width and the status one the engine produces, and never changes the
platform's parameters. -/
def Obligations.StepKeepsDataLegal : Prop :=
  ∀ (s t : State), DataInv s → step s = .next t → DataInv t ∧ t.platform = s.platform

/-- spec/10_state.md sections 6 and 9. The reset state, on every platform, meets the three invariants. -/
def Obligations.ResetMeetsInvariants : Prop :=
  (∀ (p : Platform), SessionInv (State.resetOn p) ∧ ScheduleInv (State.resetOn p) ∧ DataInv (State.resetOn p)) ∧
  State.reset = State.resetOn Config.platform ∧ Config.platform.legal = true
end

