-- ==== Sys2Proof/Laws/Bytes.lean ====
section
/-! SUPPORT. What the byte and word views of a block do: a block is the sixteen bytes it is built from, and two blocks with
the same sixteen bytes are equal. -/

namespace Sys2Proof.Machine

theorem leNat_lt (bs : List Byte) : leNat bs < 256 ^ bs.length := by
  induction bs with
  | nil => simp [leNat]
  | cons b bs ih =>
    have hb : b.toNat < 256 := b.isLt
    simp only [leNat, List.length_cons, pow_succ]
    omega

theorem leNat_byte (bs : List Byte) (i : Nat) : leNat bs / 256 ^ i % 256 = (bs.getD i 0).toNat := by
  induction bs generalizing i with
  | nil => simp [leNat]
  | cons b bs ih =>
    have hb : b.toNat < 256 := b.isLt
    cases i with
    | zero => simp only [leNat, pow_zero, Nat.div_one, List.getD_cons_zero]; omega
    | succ i =>
      rw [pow_succ, Nat.mul_comm, ← Nat.div_div_eq_div_mul]
      have h : leNat (b :: bs) / 256 = leNat bs := by simp only [leNat]; omega
      rw [h, ih, List.getD_cons_succ]

/-- A byte of a block as a number. -/
theorem blockByte_toNat (x : Block128) (i : Nat) : (blockByte x i).toNat = x.toNat / 256 ^ i % 256 := by
  simp only [blockByte, BitVec.extractLsb'_toNat, Nat.shiftRight_eq_div_pow, pow_mul]
  norm_num

/-- Byte `i` of the block built from at most sixteen bytes is byte `i` of them. -/
theorem blockByte_blockOfBytes (bs : List Byte) (h : bs.length ≤ 16) (i : Nat) :
    blockByte (blockOfBytes bs) i = bs.getD i 0 := by
  apply BitVec.eq_of_toNat_eq
  have h128 : leNat bs < 2 ^ 128 := by
    have h2 : (256 : Nat) ^ bs.length ≤ 256 ^ 16 := Nat.pow_le_pow_right (by norm_num) h
    have h3 : (256 : Nat) ^ 16 = 2 ^ 128 := by norm_num
    have := leNat_lt bs
    omega
  rw [blockByte_toNat, blockOfBytes, BitVec.toNat_ofNat, Nat.mod_eq_of_lt h128, leNat_byte]

/-- Byte `i` of `blockOf f` is `f i`. -/
theorem blockByte_blockOf (f : Nat → Byte) {i : Nat} (h : i < 16) : blockByte (blockOf f) i = f i := by
  rw [blockOf, blockByte_blockOfBytes _ (by simp)]
  simp [h]

@[simp] theorem blockBytes_length (x : Block128) : (blockBytes x).length = 16 := by simp [blockBytes]

theorem blockBytes_getD (x : Block128) {i : Nat} (h : i < 16) : (blockBytes x).getD i 0 = blockByte x i := by
  simp [blockBytes, h]

/-- Two blocks with the same sixteen bytes are equal. -/
theorem block_ext {x y : Block128} (h : ∀ i < 16, blockByte x i = blockByte y i) : x = y := by
  apply BitVec.eq_of_getLsbD_eq
  intro k hk
  have hb := congrArg (fun b : Byte => b.getLsbD (k % 8)) (h (k / 8) (by omega))
  have hm : k % 8 < 8 := Nat.mod_lt _ (by norm_num)
  simpa [blockByte, BitVec.getLsbD_extractLsb', hm, Nat.div_add_mod] using hb

/-- A block is the block of its bytes. -/
@[simp] theorem blockOfBytes_blockBytes (x : Block128) : blockOfBytes (blockBytes x) = x := by
  apply block_ext
  intro i hi
  rw [blockByte_blockOfBytes _ (by simp), blockBytes_getD x hi]

/-- The bytes of the block of sixteen bytes are those bytes. -/
theorem blockBytes_blockOfBytes (bs : List Byte) (h : bs.length = 16) : blockBytes (blockOfBytes bs) = bs := by
  apply List.ext_getElem
  · simp [h]
  · intro i h1 h2
    have hi : i < 16 := by simpa using h1
    simp [blockBytes, blockByte_blockOfBytes bs (le_of_eq h), List.getElem?_eq_getElem h2]

theorem blockByte_xor (x y : Block128) (i : Nat) : blockByte (x ^^^ y) i = blockByte x i ^^^ blockByte y i := by
  simp [blockByte, BitVec.extractLsb'_xor]

/-! ### Words -/

theorem wordByte_wordOf (a0 a1 a2 a3 : Byte) :
    wordByte (wordOf a0 a1 a2 a3) 0 = a0 ∧ wordByte (wordOf a0 a1 a2 a3) 1 = a1 ∧
    wordByte (wordOf a0 a1 a2 a3) 2 = a2 ∧ wordByte (wordOf a0 a1 a2 a3) 3 = a3 := by
  refine ⟨?_, ?_, ?_, ?_⟩ <;>
  · apply BitVec.eq_of_getLsbD_eq
    intro k hk
    simp only [wordByte, wordOf, BitVec.getLsbD_extractLsb', hk, BitVec.getLsbD_append, decide_true, Bool.true_and]
    first
      | (simp only [show 8 * 0 + k < 8 from by omega, if_true]; simp)
      | (rw [if_neg (by omega), if_pos (by omega)]; congr 1; omega)
      | (rw [if_neg (by omega), if_neg (by omega), if_pos (by omega)]; congr 1; omega)
      | (rw [if_neg (by omega), if_neg (by omega), if_neg (by omega)]; congr 1; omega)

theorem blockWord_blockOfWords (w0 w1 w2 w3 : Word32) :
    blockWord (blockOfWords w0 w1 w2 w3) 0 = w0 ∧ blockWord (blockOfWords w0 w1 w2 w3) 1 = w1 ∧
    blockWord (blockOfWords w0 w1 w2 w3) 2 = w2 ∧ blockWord (blockOfWords w0 w1 w2 w3) 3 = w3 := by
  refine ⟨?_, ?_, ?_, ?_⟩ <;>
  · apply BitVec.eq_of_getLsbD_eq
    intro k hk
    simp only [blockWord, blockOfWords, BitVec.getLsbD_extractLsb', hk, BitVec.getLsbD_append, decide_true, Bool.true_and]
    first
      | (simp only [show 32 * 0 + k < 32 from by omega, if_true]; simp)
      | (rw [if_neg (by omega), if_pos (by omega)]; congr 1; omega)
      | (rw [if_neg (by omega), if_neg (by omega), if_pos (by omega)]; congr 1; omega)
      | (rw [if_neg (by omega), if_neg (by omega), if_neg (by omega)]; congr 1; omega)

/-- A block is its four words. -/
theorem blockOfWords_blockWord (x : Block128) :
    blockOfWords (blockWord x 0) (blockWord x 1) (blockWord x 2) (blockWord x 3) = x := by
  apply BitVec.eq_of_getLsbD_eq
  intro k hk
  simp only [blockWord, blockOfWords, BitVec.getLsbD_extractLsb', BitVec.getLsbD_append]
  split
  · simp [*]
  · split
    · have : k - 32 < 32 := by omega
      simp only [this, decide_true, Bool.true_and]; congr 1; omega
    · split
      · have : k - 32 - 32 < 32 := by omega
        simp only [this, decide_true, Bool.true_and]; congr 1; omega
      · have : k - 32 - 32 - 32 < 32 := by omega
        simp only [this, decide_true, Bool.true_and]; congr 1; omega

/-- Byte `m` of word `j` of a block is byte `4j + m` of the block (R11). -/
theorem wordByte_blockWord (x : Block128) {m : Nat} (j : Nat) (h : m < 4) :
    wordByte (blockWord x j) m = blockByte x (4 * j + m) := by
  apply BitVec.eq_of_getLsbD_eq
  intro k hk
  have h1 : 8 * m + k < 32 := by omega
  simp only [wordByte, blockWord, blockByte, BitVec.getLsbD_extractLsb', hk, h1, decide_true, Bool.true_and]
  congr 1; omega

end Sys2Proof.Machine
end

