-- ==== Sys2Proof/Laws/Memory.lean ====
section
/-! SUPPORT. What the memory operations do: each keeps the canonical form, a byte written is read back, and every other byte
is left alone. -/

namespace Sys2Proof.Machine

/-- Every listed address is above `a`. -/
def Memory.above (a : Nat) (m : Memory) : Prop := ∀ c ∈ m, a < c.1

/-- The canonical form of a memory with a first entry: the entry is listed for good reason, lies below the rest, and the rest
is canonical. -/
theorem Memory.wf_cons (c : Host.Cell) (m : Memory) :
    Memory.wf (c :: m) = true ↔ c.2 ≠ unlistedByte ∧ Memory.above c.1 m ∧ Memory.wf m = true := by
  induction m generalizing c with
  | nil => simp [Memory.wf, Memory.above]
  | cons d m ih =>
    simp only [Memory.wf, Bool.and_eq_true, decide_eq_true_eq]
    constructor
    · rintro ⟨⟨h1, h2⟩, h3⟩
      refine ⟨h1, ?_, h3⟩
      intro e he
      rcases List.mem_cons.mp he with rfl | he
      · exact h2
      · exact Nat.lt_trans h2 (((ih d).mp h3).2.1 e he)
    · rintro ⟨h1, h2, h3⟩
      exact ⟨⟨h1, h2 d (by simp)⟩, h3⟩

theorem Memory.read_of_above {a : Nat} {m : Memory} (h : Memory.above a m) : Memory.read m a = unlistedByte := by
  induction m with
  | nil => rfl
  | cons c m ih =>
    have hc : a < c.1 := h c (by simp)
    have hm : Memory.above a m := fun e he => h e (by simp [he])
    simp only [Memory.read]
    rw [if_neg (by omega), ih hm]

theorem Memory.above_write {a x : Nat} {b : Byte} {m : Memory} (h : Memory.above a m) (hx : a < x) :
    Memory.above a (Memory.write m x b) := by
  induction m with
  | nil =>
    simp only [Memory.write]
    split
    · intro e he; simp at he
    · intro e he; simp only [List.mem_singleton] at he; subst he; exact hx
  | cons c m ih =>
    have hc : a < c.1 := h c (by simp)
    have hm : Memory.above a m := fun e he => h e (by simp [he])
    have hn : Memory.above a ((x, b) :: m) := by
      intro e he
      rcases List.mem_cons.mp he with rfl | he
      · exact hx
      · exact hm e he
    simp only [Memory.write]
    split
    · split
      · exact h
      · intro e he
        rcases List.mem_cons.mp he with rfl | he
        · exact hx
        · exact h e he
    · split
      · split
        · exact hm
        · exact hn
      · intro e he
        rcases List.mem_cons.mp he with rfl | he
        · exact hc
        · exact ih hm e he

/-- A byte write keeps the canonical form. -/
theorem Memory.wf_write {m : Memory} (a : Nat) (b : Byte) (h : Memory.wf m = true) :
    Memory.wf (Memory.write m a b) = true := by
  induction m with
  | nil =>
    simp only [Memory.write]
    split
    · rfl
    · simpa [Memory.wf] using ‹_›
  | cons c m ih =>
    obtain ⟨h1, h2, h3⟩ := (Memory.wf_cons c m).mp h
    simp only [Memory.write]
    split
    · split
      · exact h
      · refine (Memory.wf_cons _ _).mpr ⟨‹_›, ?_, h⟩
        intro e he
        rcases List.mem_cons.mp he with rfl | he
        · assumption
        · exact Nat.lt_trans ‹_› (h2 e he)
    · split
      · split
        · exact h3
        · subst a; exact (Memory.wf_cons _ _).mpr ⟨‹_›, h2, h3⟩
      · exact (Memory.wf_cons _ _).mpr ⟨h1, Memory.above_write h2 (by omega), ih h3⟩

/-- Reading after a byte write to a canonical memory: the byte written at its address, the old byte elsewhere. -/
theorem Memory.read_write {m : Memory} (h : Memory.wf m = true) (a : Nat) (b : Byte) (x : Nat) :
    Memory.read (Memory.write m a b) x = if x = a then b else Memory.read m x := by
  induction m with
  | nil =>
    simp only [Memory.write]
    split
    · subst b; simp [Memory.read]
    · simp [Memory.read]
  | cons c m ih =>
    obtain ⟨h1, h2, h3⟩ := (Memory.wf_cons c m).mp h
    simp only [Memory.write]
    split
    · rename_i hac
      split
      · subst b
        split
        · subst x
          exact Memory.read_of_above (fun e he => by
            rcases List.mem_cons.mp he with rfl | he
            · exact hac
            · exact Nat.lt_trans hac (h2 e he))
        · rfl
      · simp [Memory.read]
    · split
      · subst a
        split
        · subst b
          split
          · subst x; exact Memory.read_of_above h2
          · simp [Memory.read, *]
        · simp only [Memory.read]
          split <;> simp [*]
      · simp only [Memory.read, ih h3]
        split
        · rename_i hxc
          rw [if_neg (by omega)]
        · rfl

/-- Storing a byte vector keeps the canonical form. -/
theorem memWrite_wf {m : Memory} (addr : Nat) (v : List Byte) (h : Memory.wf m = true) :
    Memory.wf (memWrite m addr v) = true := by
  induction v generalizing m addr with
  | nil => exact h
  | cons b v ih => exact ih (addr + 1) (Memory.wf_write addr b h)

/-- Storing a byte vector leaves every address outside its range. -/
theorem memWrite_read_outside {m : Memory} (addr : Nat) (v : List Byte) (h : Memory.wf m = true) {a : Nat}
    (ha : ¬ (addr ≤ a ∧ a < addr + v.length)) : Memory.read (memWrite m addr v) a = Memory.read m a := by
  induction v generalizing m addr with
  | nil => rfl
  | cons b v ih =>
    rw [List.length_cons] at ha
    rw [memWrite, ih (addr + 1) (Memory.wf_write addr b h) (by omega), Memory.read_write h, if_neg (by omega)]

@[simp] theorem memRead_length (m : Memory) (addr n : Nat) : (memRead m addr n).length = n := by simp [memRead]

@[simp] theorem memWrite_nil (m : Memory) (addr : Nat) : memWrite m addr [] = m := rfl

/-- Reading a byte vector: each byte is the memory's at its address. -/
theorem memRead_getD (m : Memory) (addr : Nat) {n j : Nat} (h : j < n) :
    (memRead m addr n).getD j 0 = Memory.read m (addr + j) := by
  simp [memRead, h]

/-- Two memories that read alike on a range give the same byte vector. -/
theorem memRead_congr {m m' : Memory} {addr n : Nat}
    (h : ∀ j < n, Memory.read m (addr + j) = Memory.read m' (addr + j)) : memRead m addr n = memRead m' addr n := by
  apply List.map_congr_left
  intro j hj
  exact h j (List.mem_range.mp hj)

theorem Memory.wf_reset (p : Platform) : Memory.wf (State.resetOn p).mem = true := rfl

end Sys2Proof.Machine
end

