-- ==== Sys2Proof/Laws/State.lean ====
section
/-! SUPPORT. One lemma per field per update of the state, each true by unfolding, so that no later proof unfolds a record
update. -/

namespace Sys2Proof.Machine

/-! ### `withStatus` -/

@[simp] theorem withStatus_platform (c : StatusCode) (a : StatusArg) (s : State) : (withStatus c a s).platform = s.platform := rfl
@[simp] theorem withStatus_mem (c : StatusCode) (a : StatusArg) (s : State) : (withStatus c a s).mem = s.mem := rfl
@[simp] theorem withStatus_keyLo (c : StatusCode) (a : StatusArg) (s : State) : (withStatus c a s).keyLo = s.keyLo := rfl
@[simp] theorem withStatus_keyHi (c : StatusCode) (a : StatusArg) (s : State) : (withStatus c a s).keyHi = s.keyHi := rfl
@[simp] theorem withStatus_iv (c : StatusCode) (a : StatusArg) (s : State) : (withStatus c a s).iv = s.iv := rfl
@[simp] theorem withStatus_chain (c : StatusCode) (a : StatusArg) (s : State) : (withStatus c a s).chain = s.chain := rfl
@[simp] theorem withStatus_din (c : StatusCode) (a : StatusArg) (s : State) : (withStatus c a s).din = s.din := rfl
@[simp] theorem withStatus_dout (c : StatusCode) (a : StatusArg) (s : State) : (withStatus c a s).dout = s.dout := rfl
@[simp] theorem withStatus_ek (c : StatusCode) (a : StatusArg) (s : State) : (withStatus c a s).ek = s.ek := rfl
@[simp] theorem withStatus_dk (c : StatusCode) (a : StatusArg) (s : State) : (withStatus c a s).dk = s.dk := rfl
@[simp] theorem withStatus_alg (c : StatusCode) (a : StatusArg) (s : State) : (withStatus c a s).alg = s.alg := rfl
@[simp] theorem withStatus_mode (c : StatusCode) (a : StatusArg) (s : State) : (withStatus c a s).mode = s.mode := rfl
@[simp] theorem withStatus_ekValid (c : StatusCode) (a : StatusArg) (s : State) : (withStatus c a s).ekValid = s.ekValid := rfl
@[simp] theorem withStatus_dkValid (c : StatusCode) (a : StatusArg) (s : State) : (withStatus c a s).dkValid = s.dkValid := rfl
@[simp] theorem withStatus_msValid (c : StatusCode) (a : StatusArg) (s : State) : (withStatus c a s).msValid = s.msValid := rfl
@[simp] theorem withStatus_ivValid (c : StatusCode) (a : StatusArg) (s : State) : (withStatus c a s).ivValid = s.ivValid := rfl
@[simp] theorem withStatus_statusCode (c : StatusCode) (a : StatusArg) (s : State) : (withStatus c a s).statusCode = c := rfl
@[simp] theorem withStatus_statusArg (c : StatusCode) (a : StatusArg) (s : State) : (withStatus c a s).statusArg = a := rfl
@[simp] theorem withStatus_srcAddr (c : StatusCode) (a : StatusArg) (s : State) : (withStatus c a s).srcAddr = s.srcAddr := rfl
@[simp] theorem withStatus_srcLen (c : StatusCode) (a : StatusArg) (s : State) : (withStatus c a s).srcLen = s.srcLen := rfl
@[simp] theorem withStatus_dstAddr (c : StatusCode) (a : StatusArg) (s : State) : (withStatus c a s).dstAddr = s.dstAddr := rfl
@[simp] theorem withStatus_dstLen (c : StatusCode) (a : StatusArg) (s : State) : (withStatus c a s).dstLen = s.dstLen := rfl
@[simp] theorem withStatus_pending (c : StatusCode) (a : StatusArg) (s : State) : (withStatus c a s).pending = s.pending := rfl
@[simp] theorem withStatus_hostData (c : StatusCode) (a : StatusArg) (s : State) : (withStatus c a s).hostData = s.hostData := rfl

/-! ### `withFlags` -/

@[simp] theorem withFlags_platform (e d m v : Bool) (s : State) : (withFlags e d m v s).platform = s.platform := rfl
@[simp] theorem withFlags_mem (e d m v : Bool) (s : State) : (withFlags e d m v s).mem = s.mem := rfl
@[simp] theorem withFlags_keyLo (e d m v : Bool) (s : State) : (withFlags e d m v s).keyLo = s.keyLo := rfl
@[simp] theorem withFlags_keyHi (e d m v : Bool) (s : State) : (withFlags e d m v s).keyHi = s.keyHi := rfl
@[simp] theorem withFlags_iv (e d m v : Bool) (s : State) : (withFlags e d m v s).iv = s.iv := rfl
@[simp] theorem withFlags_chain (e d m v : Bool) (s : State) : (withFlags e d m v s).chain = s.chain := rfl
@[simp] theorem withFlags_din (e d m v : Bool) (s : State) : (withFlags e d m v s).din = s.din := rfl
@[simp] theorem withFlags_dout (e d m v : Bool) (s : State) : (withFlags e d m v s).dout = s.dout := rfl
@[simp] theorem withFlags_ek (e d m v : Bool) (s : State) : (withFlags e d m v s).ek = s.ek := rfl
@[simp] theorem withFlags_dk (e d m v : Bool) (s : State) : (withFlags e d m v s).dk = s.dk := rfl
@[simp] theorem withFlags_alg (e d m v : Bool) (s : State) : (withFlags e d m v s).alg = s.alg := rfl
@[simp] theorem withFlags_mode (e d m v : Bool) (s : State) : (withFlags e d m v s).mode = s.mode := rfl
@[simp] theorem withFlags_ekValid (e d m v : Bool) (s : State) : (withFlags e d m v s).ekValid = e := rfl
@[simp] theorem withFlags_dkValid (e d m v : Bool) (s : State) : (withFlags e d m v s).dkValid = d := rfl
@[simp] theorem withFlags_msValid (e d m v : Bool) (s : State) : (withFlags e d m v s).msValid = m := rfl
@[simp] theorem withFlags_ivValid (e d m v : Bool) (s : State) : (withFlags e d m v s).ivValid = v := rfl
@[simp] theorem withFlags_statusCode (e d m v : Bool) (s : State) : (withFlags e d m v s).statusCode = s.statusCode := rfl
@[simp] theorem withFlags_statusArg (e d m v : Bool) (s : State) : (withFlags e d m v s).statusArg = s.statusArg := rfl
@[simp] theorem withFlags_srcAddr (e d m v : Bool) (s : State) : (withFlags e d m v s).srcAddr = s.srcAddr := rfl
@[simp] theorem withFlags_srcLen (e d m v : Bool) (s : State) : (withFlags e d m v s).srcLen = s.srcLen := rfl
@[simp] theorem withFlags_dstAddr (e d m v : Bool) (s : State) : (withFlags e d m v s).dstAddr = s.dstAddr := rfl
@[simp] theorem withFlags_dstLen (e d m v : Bool) (s : State) : (withFlags e d m v s).dstLen = s.dstLen := rfl
@[simp] theorem withFlags_pending (e d m v : Bool) (s : State) : (withFlags e d m v s).pending = s.pending := rfl
@[simp] theorem withFlags_hostData (e d m v : Bool) (s : State) : (withFlags e d m v s).hostData = s.hostData := rfl

/-! ### `resetEngine` -/

@[simp] theorem resetEngine_platform (s : State) : (resetEngine s).platform = s.platform := rfl
@[simp] theorem resetEngine_mem (s : State) : (resetEngine s).mem = s.mem := rfl
@[simp] theorem resetEngine_keyLo (s : State) : (resetEngine s).keyLo = 0 := rfl
@[simp] theorem resetEngine_keyHi (s : State) : (resetEngine s).keyHi = 0 := rfl
@[simp] theorem resetEngine_iv (s : State) : (resetEngine s).iv = 0 := rfl
@[simp] theorem resetEngine_chain (s : State) : (resetEngine s).chain = 0 := rfl
@[simp] theorem resetEngine_din (s : State) : (resetEngine s).din = 0 := rfl
@[simp] theorem resetEngine_dout (s : State) : (resetEngine s).dout = 0 := rfl
@[simp] theorem resetEngine_ek (s : State) : (resetEngine s).ek = zeroFile := rfl
@[simp] theorem resetEngine_dk (s : State) : (resetEngine s).dk = zeroFile := rfl
@[simp] theorem resetEngine_alg (s : State) : (resetEngine s).alg = .aes128 := rfl
@[simp] theorem resetEngine_mode (s : State) : (resetEngine s).mode = .ecb := rfl
@[simp] theorem resetEngine_ekValid (s : State) : (resetEngine s).ekValid = false := rfl
@[simp] theorem resetEngine_dkValid (s : State) : (resetEngine s).dkValid = false := rfl
@[simp] theorem resetEngine_msValid (s : State) : (resetEngine s).msValid = false := rfl
@[simp] theorem resetEngine_ivValid (s : State) : (resetEngine s).ivValid = false := rfl
@[simp] theorem resetEngine_statusCode (s : State) : (resetEngine s).statusCode = .success := rfl
@[simp] theorem resetEngine_statusArg (s : State) : (resetEngine s).statusArg = .none := rfl
@[simp] theorem resetEngine_srcAddr (s : State) : (resetEngine s).srcAddr = 0 := rfl
@[simp] theorem resetEngine_srcLen (s : State) : (resetEngine s).srcLen = 0 := rfl
@[simp] theorem resetEngine_dstAddr (s : State) : (resetEngine s).dstAddr = 0 := rfl
@[simp] theorem resetEngine_dstLen (s : State) : (resetEngine s).dstLen = 0 := rfl
@[simp] theorem resetEngine_pending (s : State) : (resetEngine s).pending = s.pending := rfl
@[simp] theorem resetEngine_hostData (s : State) : (resetEngine s).hostData = s.hostData := rfl

/-! ### `resetOn` -/

@[simp] theorem resetOn_platform (p : Platform) : (State.resetOn p).platform = p := rfl
@[simp] theorem resetOn_mem (p : Platform) : (State.resetOn p).mem = [] := rfl
@[simp] theorem resetOn_keyLo (p : Platform) : (State.resetOn p).keyLo = 0 := rfl
@[simp] theorem resetOn_keyHi (p : Platform) : (State.resetOn p).keyHi = 0 := rfl
@[simp] theorem resetOn_iv (p : Platform) : (State.resetOn p).iv = 0 := rfl
@[simp] theorem resetOn_chain (p : Platform) : (State.resetOn p).chain = 0 := rfl
@[simp] theorem resetOn_din (p : Platform) : (State.resetOn p).din = 0 := rfl
@[simp] theorem resetOn_dout (p : Platform) : (State.resetOn p).dout = 0 := rfl
@[simp] theorem resetOn_ek (p : Platform) : (State.resetOn p).ek = zeroFile := rfl
@[simp] theorem resetOn_dk (p : Platform) : (State.resetOn p).dk = zeroFile := rfl
@[simp] theorem resetOn_alg (p : Platform) : (State.resetOn p).alg = .aes128 := rfl
@[simp] theorem resetOn_mode (p : Platform) : (State.resetOn p).mode = .ecb := rfl
@[simp] theorem resetOn_ekValid (p : Platform) : (State.resetOn p).ekValid = false := rfl
@[simp] theorem resetOn_dkValid (p : Platform) : (State.resetOn p).dkValid = false := rfl
@[simp] theorem resetOn_msValid (p : Platform) : (State.resetOn p).msValid = false := rfl
@[simp] theorem resetOn_ivValid (p : Platform) : (State.resetOn p).ivValid = false := rfl
@[simp] theorem resetOn_statusCode (p : Platform) : (State.resetOn p).statusCode = .success := rfl
@[simp] theorem resetOn_statusArg (p : Platform) : (State.resetOn p).statusArg = .none := rfl
@[simp] theorem resetOn_srcAddr (p : Platform) : (State.resetOn p).srcAddr = 0 := rfl
@[simp] theorem resetOn_srcLen (p : Platform) : (State.resetOn p).srcLen = 0 := rfl
@[simp] theorem resetOn_dstAddr (p : Platform) : (State.resetOn p).dstAddr = 0 := rfl
@[simp] theorem resetOn_dstLen (p : Platform) : (State.resetOn p).dstLen = 0 := rfl
@[simp] theorem resetOn_pending (p : Platform) : (State.resetOn p).pending = [] := rfl
@[simp] theorem resetOn_hostData (p : Platform) : (State.resetOn p).hostData = none := rfl

/-! ### `encBlockTo` -/

@[simp] theorem encBlockTo_platform (i : Nat) (x : Block128) (s : State) : (encBlockTo i x s).platform = s.platform := by rw [encBlockTo]
@[simp] theorem encBlockTo_mem (i : Nat) (x : Block128) (s : State) : (encBlockTo i x s).mem = memWrite s.mem (s.dstAddr + 16 * i) (blockBytes (s.encStep x).1) := by rw [encBlockTo]
@[simp] theorem encBlockTo_keyLo (i : Nat) (x : Block128) (s : State) : (encBlockTo i x s).keyLo = s.keyLo := by rw [encBlockTo]
@[simp] theorem encBlockTo_keyHi (i : Nat) (x : Block128) (s : State) : (encBlockTo i x s).keyHi = s.keyHi := by rw [encBlockTo]
@[simp] theorem encBlockTo_iv (i : Nat) (x : Block128) (s : State) : (encBlockTo i x s).iv = s.iv := by rw [encBlockTo]
@[simp] theorem encBlockTo_chain (i : Nat) (x : Block128) (s : State) : (encBlockTo i x s).chain = (s.encStep x).2 := by rw [encBlockTo]
@[simp] theorem encBlockTo_din (i : Nat) (x : Block128) (s : State) : (encBlockTo i x s).din = s.din := by rw [encBlockTo]
@[simp] theorem encBlockTo_dout (i : Nat) (x : Block128) (s : State) : (encBlockTo i x s).dout = s.dout := by rw [encBlockTo]
@[simp] theorem encBlockTo_ek (i : Nat) (x : Block128) (s : State) : (encBlockTo i x s).ek = s.ek := by rw [encBlockTo]
@[simp] theorem encBlockTo_dk (i : Nat) (x : Block128) (s : State) : (encBlockTo i x s).dk = s.dk := by rw [encBlockTo]
@[simp] theorem encBlockTo_alg (i : Nat) (x : Block128) (s : State) : (encBlockTo i x s).alg = s.alg := by rw [encBlockTo]
@[simp] theorem encBlockTo_mode (i : Nat) (x : Block128) (s : State) : (encBlockTo i x s).mode = s.mode := by rw [encBlockTo]
@[simp] theorem encBlockTo_ekValid (i : Nat) (x : Block128) (s : State) : (encBlockTo i x s).ekValid = s.ekValid := by rw [encBlockTo]
@[simp] theorem encBlockTo_dkValid (i : Nat) (x : Block128) (s : State) : (encBlockTo i x s).dkValid = s.dkValid := by rw [encBlockTo]
@[simp] theorem encBlockTo_msValid (i : Nat) (x : Block128) (s : State) : (encBlockTo i x s).msValid = s.msValid := by rw [encBlockTo]
@[simp] theorem encBlockTo_ivValid (i : Nat) (x : Block128) (s : State) : (encBlockTo i x s).ivValid = s.ivValid := by rw [encBlockTo]
@[simp] theorem encBlockTo_statusCode (i : Nat) (x : Block128) (s : State) : (encBlockTo i x s).statusCode = s.statusCode := by rw [encBlockTo]
@[simp] theorem encBlockTo_statusArg (i : Nat) (x : Block128) (s : State) : (encBlockTo i x s).statusArg = s.statusArg := by rw [encBlockTo]
@[simp] theorem encBlockTo_srcAddr (i : Nat) (x : Block128) (s : State) : (encBlockTo i x s).srcAddr = s.srcAddr := by rw [encBlockTo]
@[simp] theorem encBlockTo_srcLen (i : Nat) (x : Block128) (s : State) : (encBlockTo i x s).srcLen = s.srcLen := by rw [encBlockTo]
@[simp] theorem encBlockTo_dstAddr (i : Nat) (x : Block128) (s : State) : (encBlockTo i x s).dstAddr = s.dstAddr := by rw [encBlockTo]
@[simp] theorem encBlockTo_dstLen (i : Nat) (x : Block128) (s : State) : (encBlockTo i x s).dstLen = s.dstLen := by rw [encBlockTo]
@[simp] theorem encBlockTo_pending (i : Nat) (x : Block128) (s : State) : (encBlockTo i x s).pending = s.pending := by rw [encBlockTo]
@[simp] theorem encBlockTo_hostData (i : Nat) (x : Block128) (s : State) : (encBlockTo i x s).hostData = s.hostData := by rw [encBlockTo]

/-! ### `decBlockTo` -/

@[simp] theorem decBlockTo_platform (i k : Nat) (x : Block128) (s : State) : (decBlockTo i k x s).platform = s.platform := rfl
@[simp] theorem decBlockTo_mem (i k : Nat) (x : Block128) (s : State) : (decBlockTo i k x s).mem = memWrite s.mem (s.dstAddr + 16 * i) ((blockBytes (s.decStep x).1).take k) := rfl
@[simp] theorem decBlockTo_keyLo (i k : Nat) (x : Block128) (s : State) : (decBlockTo i k x s).keyLo = s.keyLo := rfl
@[simp] theorem decBlockTo_keyHi (i k : Nat) (x : Block128) (s : State) : (decBlockTo i k x s).keyHi = s.keyHi := rfl
@[simp] theorem decBlockTo_iv (i k : Nat) (x : Block128) (s : State) : (decBlockTo i k x s).iv = s.iv := rfl
@[simp] theorem decBlockTo_chain (i k : Nat) (x : Block128) (s : State) : (decBlockTo i k x s).chain = (s.decStep x).2 := rfl
@[simp] theorem decBlockTo_din (i k : Nat) (x : Block128) (s : State) : (decBlockTo i k x s).din = s.din := rfl
@[simp] theorem decBlockTo_dout (i k : Nat) (x : Block128) (s : State) : (decBlockTo i k x s).dout = s.dout := rfl
@[simp] theorem decBlockTo_ek (i k : Nat) (x : Block128) (s : State) : (decBlockTo i k x s).ek = s.ek := rfl
@[simp] theorem decBlockTo_dk (i k : Nat) (x : Block128) (s : State) : (decBlockTo i k x s).dk = s.dk := rfl
@[simp] theorem decBlockTo_alg (i k : Nat) (x : Block128) (s : State) : (decBlockTo i k x s).alg = s.alg := rfl
@[simp] theorem decBlockTo_mode (i k : Nat) (x : Block128) (s : State) : (decBlockTo i k x s).mode = s.mode := rfl
@[simp] theorem decBlockTo_ekValid (i k : Nat) (x : Block128) (s : State) : (decBlockTo i k x s).ekValid = s.ekValid := rfl
@[simp] theorem decBlockTo_dkValid (i k : Nat) (x : Block128) (s : State) : (decBlockTo i k x s).dkValid = s.dkValid := rfl
@[simp] theorem decBlockTo_msValid (i k : Nat) (x : Block128) (s : State) : (decBlockTo i k x s).msValid = s.msValid := rfl
@[simp] theorem decBlockTo_ivValid (i k : Nat) (x : Block128) (s : State) : (decBlockTo i k x s).ivValid = s.ivValid := rfl
@[simp] theorem decBlockTo_statusCode (i k : Nat) (x : Block128) (s : State) : (decBlockTo i k x s).statusCode = s.statusCode := rfl
@[simp] theorem decBlockTo_statusArg (i k : Nat) (x : Block128) (s : State) : (decBlockTo i k x s).statusArg = s.statusArg := rfl
@[simp] theorem decBlockTo_srcAddr (i k : Nat) (x : Block128) (s : State) : (decBlockTo i k x s).srcAddr = s.srcAddr := rfl
@[simp] theorem decBlockTo_srcLen (i k : Nat) (x : Block128) (s : State) : (decBlockTo i k x s).srcLen = s.srcLen := rfl
@[simp] theorem decBlockTo_dstAddr (i k : Nat) (x : Block128) (s : State) : (decBlockTo i k x s).dstAddr = s.dstAddr := rfl
@[simp] theorem decBlockTo_dstLen (i k : Nat) (x : Block128) (s : State) : (decBlockTo i k x s).dstLen = s.dstLen := rfl
@[simp] theorem decBlockTo_pending (i k : Nat) (x : Block128) (s : State) : (decBlockTo i k x s).pending = s.pending := rfl
@[simp] theorem decBlockTo_hostData (i k : Nat) (x : Block128) (s : State) : (decBlockTo i k x s).hostData = s.hostData := rfl

/-! ### `hostRead` -/

@[simp] theorem hostRead_platform (n : BitVec 8) (s : State) : (hostRead n s).platform = s.platform := rfl
@[simp] theorem hostRead_mem (n : BitVec 8) (s : State) : (hostRead n s).mem = s.mem := rfl
@[simp] theorem hostRead_keyLo (n : BitVec 8) (s : State) : (hostRead n s).keyLo = s.keyLo := rfl
@[simp] theorem hostRead_keyHi (n : BitVec 8) (s : State) : (hostRead n s).keyHi = s.keyHi := rfl
@[simp] theorem hostRead_iv (n : BitVec 8) (s : State) : (hostRead n s).iv = s.iv := rfl
@[simp] theorem hostRead_chain (n : BitVec 8) (s : State) : (hostRead n s).chain = s.chain := rfl
@[simp] theorem hostRead_din (n : BitVec 8) (s : State) : (hostRead n s).din = s.din := rfl
@[simp] theorem hostRead_dout (n : BitVec 8) (s : State) : (hostRead n s).dout = s.dout := rfl
@[simp] theorem hostRead_ek (n : BitVec 8) (s : State) : (hostRead n s).ek = s.ek := rfl
@[simp] theorem hostRead_dk (n : BitVec 8) (s : State) : (hostRead n s).dk = s.dk := rfl
@[simp] theorem hostRead_alg (n : BitVec 8) (s : State) : (hostRead n s).alg = s.alg := rfl
@[simp] theorem hostRead_mode (n : BitVec 8) (s : State) : (hostRead n s).mode = s.mode := rfl
@[simp] theorem hostRead_ekValid (n : BitVec 8) (s : State) : (hostRead n s).ekValid = s.ekValid := rfl
@[simp] theorem hostRead_dkValid (n : BitVec 8) (s : State) : (hostRead n s).dkValid = s.dkValid := rfl
@[simp] theorem hostRead_msValid (n : BitVec 8) (s : State) : (hostRead n s).msValid = s.msValid := rfl
@[simp] theorem hostRead_ivValid (n : BitVec 8) (s : State) : (hostRead n s).ivValid = s.ivValid := rfl
@[simp] theorem hostRead_statusCode (n : BitVec 8) (s : State) : (hostRead n s).statusCode = s.statusCode := rfl
@[simp] theorem hostRead_statusArg (n : BitVec 8) (s : State) : (hostRead n s).statusArg = s.statusArg := rfl
@[simp] theorem hostRead_srcAddr (n : BitVec 8) (s : State) : (hostRead n s).srcAddr = s.srcAddr := rfl
@[simp] theorem hostRead_srcLen (n : BitVec 8) (s : State) : (hostRead n s).srcLen = s.srcLen := rfl
@[simp] theorem hostRead_dstAddr (n : BitVec 8) (s : State) : (hostRead n s).dstAddr = s.dstAddr := rfl
@[simp] theorem hostRead_dstLen (n : BitVec 8) (s : State) : (hostRead n s).dstLen = s.dstLen := rfl
@[simp] theorem hostRead_pending (n : BitVec 8) (s : State) : (hostRead n s).pending = s.pending := rfl
@[simp] theorem hostRead_hostData (n : BitVec 8) (s : State) : (hostRead n s).hostData = some (readRegister (regOf n) s) := rfl

/-! ### `queueCommand` -/

@[simp] theorem queueCommand_platform (w : CmdWord) (s : State) : (queueCommand w s).platform = s.platform := rfl
@[simp] theorem queueCommand_mem (w : CmdWord) (s : State) : (queueCommand w s).mem = s.mem := rfl
@[simp] theorem queueCommand_keyLo (w : CmdWord) (s : State) : (queueCommand w s).keyLo = s.keyLo := rfl
@[simp] theorem queueCommand_keyHi (w : CmdWord) (s : State) : (queueCommand w s).keyHi = s.keyHi := rfl
@[simp] theorem queueCommand_iv (w : CmdWord) (s : State) : (queueCommand w s).iv = s.iv := rfl
@[simp] theorem queueCommand_chain (w : CmdWord) (s : State) : (queueCommand w s).chain = s.chain := rfl
@[simp] theorem queueCommand_din (w : CmdWord) (s : State) : (queueCommand w s).din = s.din := rfl
@[simp] theorem queueCommand_dout (w : CmdWord) (s : State) : (queueCommand w s).dout = s.dout := rfl
@[simp] theorem queueCommand_ek (w : CmdWord) (s : State) : (queueCommand w s).ek = s.ek := rfl
@[simp] theorem queueCommand_dk (w : CmdWord) (s : State) : (queueCommand w s).dk = s.dk := rfl
@[simp] theorem queueCommand_alg (w : CmdWord) (s : State) : (queueCommand w s).alg = s.alg := rfl
@[simp] theorem queueCommand_mode (w : CmdWord) (s : State) : (queueCommand w s).mode = s.mode := rfl
@[simp] theorem queueCommand_ekValid (w : CmdWord) (s : State) : (queueCommand w s).ekValid = s.ekValid := rfl
@[simp] theorem queueCommand_dkValid (w : CmdWord) (s : State) : (queueCommand w s).dkValid = s.dkValid := rfl
@[simp] theorem queueCommand_msValid (w : CmdWord) (s : State) : (queueCommand w s).msValid = s.msValid := rfl
@[simp] theorem queueCommand_ivValid (w : CmdWord) (s : State) : (queueCommand w s).ivValid = s.ivValid := rfl
@[simp] theorem queueCommand_statusCode (w : CmdWord) (s : State) : (queueCommand w s).statusCode = s.statusCode := rfl
@[simp] theorem queueCommand_statusArg (w : CmdWord) (s : State) : (queueCommand w s).statusArg = s.statusArg := rfl
@[simp] theorem queueCommand_srcAddr (w : CmdWord) (s : State) : (queueCommand w s).srcAddr = s.srcAddr := rfl
@[simp] theorem queueCommand_srcLen (w : CmdWord) (s : State) : (queueCommand w s).srcLen = s.srcLen := rfl
@[simp] theorem queueCommand_dstAddr (w : CmdWord) (s : State) : (queueCommand w s).dstAddr = s.dstAddr := rfl
@[simp] theorem queueCommand_dstLen (w : CmdWord) (s : State) : (queueCommand w s).dstLen = s.dstLen := rfl
@[simp] theorem queueCommand_pending (w : CmdWord) (s : State) : (queueCommand w s).pending = .write 0x00 w.toNat :: s.pending := rfl
@[simp] theorem queueCommand_hostData (w : CmdWord) (s : State) : (queueCommand w s).hostData = s.hostData := rfl

/-! ### `initContext` -/

@[simp] theorem initContext_platform (a : Alg) (m : Mode) (v : Bool) (s : State) : (initContext a m v s).platform = s.platform := rfl
@[simp] theorem initContext_mem (a : Alg) (m : Mode) (v : Bool) (s : State) : (initContext a m v s).mem = s.mem := rfl
@[simp] theorem initContext_keyLo (a : Alg) (m : Mode) (v : Bool) (s : State) : (initContext a m v s).keyLo = s.keyLo := rfl
@[simp] theorem initContext_keyHi (a : Alg) (m : Mode) (v : Bool) (s : State) : (initContext a m v s).keyHi = s.keyHi := rfl
@[simp] theorem initContext_iv (a : Alg) (m : Mode) (v : Bool) (s : State) : (initContext a m v s).iv = s.iv := rfl
@[simp] theorem initContext_chain (a : Alg) (m : Mode) (v : Bool) (s : State) : (initContext a m v s).chain = if v then s.iv else 0 := rfl
@[simp] theorem initContext_din (a : Alg) (m : Mode) (v : Bool) (s : State) : (initContext a m v s).din = s.din := rfl
@[simp] theorem initContext_dout (a : Alg) (m : Mode) (v : Bool) (s : State) : (initContext a m v s).dout = s.dout := rfl
@[simp] theorem initContext_ek (a : Alg) (m : Mode) (v : Bool) (s : State) : (initContext a m v s).ek = keyFile (nr a) (s.expandKey a) := rfl
@[simp] theorem initContext_dk (a : Alg) (m : Mode) (v : Bool) (s : State) : (initContext a m v s).dk = keyFile (nr a) (invert (s.expandKey a)) := rfl
@[simp] theorem initContext_alg (a : Alg) (m : Mode) (v : Bool) (s : State) : (initContext a m v s).alg = a := rfl
@[simp] theorem initContext_mode (a : Alg) (m : Mode) (v : Bool) (s : State) : (initContext a m v s).mode = m := rfl
@[simp] theorem initContext_ekValid (a : Alg) (m : Mode) (v : Bool) (s : State) : (initContext a m v s).ekValid = true := rfl
@[simp] theorem initContext_dkValid (a : Alg) (m : Mode) (v : Bool) (s : State) : (initContext a m v s).dkValid = true := rfl
@[simp] theorem initContext_msValid (a : Alg) (m : Mode) (v : Bool) (s : State) : (initContext a m v s).msValid = true := rfl
@[simp] theorem initContext_ivValid (a : Alg) (m : Mode) (v : Bool) (s : State) : (initContext a m v s).ivValid = v := rfl
@[simp] theorem initContext_statusCode (a : Alg) (m : Mode) (v : Bool) (s : State) : (initContext a m v s).statusCode = s.statusCode := rfl
@[simp] theorem initContext_statusArg (a : Alg) (m : Mode) (v : Bool) (s : State) : (initContext a m v s).statusArg = s.statusArg := rfl
@[simp] theorem initContext_srcAddr (a : Alg) (m : Mode) (v : Bool) (s : State) : (initContext a m v s).srcAddr = s.srcAddr := rfl
@[simp] theorem initContext_srcLen (a : Alg) (m : Mode) (v : Bool) (s : State) : (initContext a m v s).srcLen = s.srcLen := rfl
@[simp] theorem initContext_dstAddr (a : Alg) (m : Mode) (v : Bool) (s : State) : (initContext a m v s).dstAddr = s.dstAddr := rfl
@[simp] theorem initContext_dstLen (a : Alg) (m : Mode) (v : Bool) (s : State) : (initContext a m v s).dstLen = s.dstLen := rfl
@[simp] theorem initContext_pending (a : Alg) (m : Mode) (v : Bool) (s : State) : (initContext a m v s).pending = s.pending := rfl
@[simp] theorem initContext_hostData (a : Alg) (m : Mode) (v : Bool) (s : State) : (initContext a m v s).hostData = s.hostData := rfl

end Sys2Proof.Machine
end

