-- ==== Sys2Proof/Laws/Ops.lean ====
section
/-! SUPPORT. What the shared operations over the state do: ending a command, the round-key files, the tags, the register port
and the chunk loops. -/

namespace Sys2Proof.Machine

/-! ### Ending a command -/

theorem failWith_eq (c : StatusCode) (a : StatusArg) (s : State) : failWith c a s = .next (withStatus c a s) := rfl

theorem succeed_eq (s : State) : succeed s = .next (withStatus .success .none s) := rfl

@[simp] theorem withStatus_withStatus (c c' : StatusCode) (a a' : StatusArg) (s : State) :
    withStatus c a (withStatus c' a' s) = withStatus c a s := rfl

/-! ### Tags and sizes -/

@[simp] theorem algOf_algCode (a : Alg) : algOf (algCode a) = some a := by cases a <;> rfl

@[simp] theorem modeOf_modeCode (m : Mode) : modeOf (modeCode m) = some m := by cases m <;> rfl

/-- Every algorithm code is that of an algorithm or the one code without a table entry. -/
theorem algCode_cases (c : BitVec 2) : (∃ a, c = algCode a) ∨ c = 3 := by
  have h : c = 0 ∨ c = 1 ∨ c = 2 ∨ c = 3 := by
    revert c; decide
  rcases h with rfl | rfl | rfl | rfl
  · exact .inl ⟨.aes128, rfl⟩
  · exact .inl ⟨.aes192, rfl⟩
  · exact .inl ⟨.aes256, rfl⟩
  · exact .inr rfl

/-- Every mode code is that of a mode or has no table entry. -/
theorem modeCode_cases (c : BitVec 3) : (∃ m, c = modeCode m) ∨ modeOf c = none := by
  have h : c = 0 ∨ c = 1 ∨ c = 2 ∨ c = 3 ∨ c = 4 ∨ c = 5 ∨ c = 6 ∨ c = 7 := by
    revert c; decide
  rcases h with rfl | rfl | rfl | rfl | rfl | rfl | rfl | rfl
  · exact .inl ⟨.ecb, rfl⟩
  · exact .inl ⟨.cbc, rfl⟩
  · exact .inl ⟨.cfb, rfl⟩
  · exact .inl ⟨.ofb, rfl⟩
  · exact .inl ⟨.ctr, rfl⟩
  · exact .inr rfl
  · exact .inr rfl
  · exact .inr rfl

theorem nr_le (a : Alg) : nr a ≤ 14 := by cases a <;> decide

theorem keyBytes_length (a : Alg) (lo hi : Block128) : (keyBytes a lo hi).length = 4 * nk a := by
  cases a <;> simp [keyBytes, nk]

/-! ### Round-key files -/

theorem keyFile_getElem (n : Nat) (rk : List Block128) {i : Nat} (h : i < 15) :
    (keyFile n rk)[i] = if i ≤ n then rk.getD i 0 else 0 := by
  simp [keyFile]

@[simp] theorem zeroFile_getElem {i : Nat} (h : i < 15) : zeroFile[i] = 0 := by simp [zeroFile]

@[simp] theorem expand_length (a : Alg) (key : List Byte) : (expand a key).length = nr a + 1 := by simp [expand]

@[simp] theorem invert_length (ek : List Block128) : (invert ek).length = ek.length := by simp [invert]

theorem fileKeys_length (a : Alg) (f : Vector Block128 15) : (fileKeys (nr a) f).length = nr a + 1 := by
  have := nr_le a
  simp [fileKeys]
  omega

/-- Entries 0 to `n` of the file written from a sequence of `n + 1` keys are that sequence. -/
theorem fileKeys_keyFile (n : Nat) (rk : List Block128) (hn : n ≤ 14) (h : rk.length = n + 1) :
    fileKeys n (keyFile n rk) = rk := by
  apply List.ext_getElem
  · simp [fileKeys, h]; omega
  · intro i h1 h2
    have hi : i ≤ n := by omega
    simp [fileKeys, keyFile, hi, List.getElem?_eq_getElem h2]

/-! ### The block cipher of a session -/

theorem enc_congr {s t : State} (ha : t.alg = s.alg) (he : t.ek = s.ek) : t.enc = s.enc := by
  funext x; rw [State.enc, State.enc, ha, he]

theorem dec_congr {s t : State} (ha : t.alg = s.alg) (hd : t.dk = s.dk) : t.dec = s.dec := by
  funext x; rw [State.dec, State.dec, ha, hd]

@[simp] theorem encBlockTo_enc (i : Nat) (x : Block128) (s : State) : (encBlockTo i x s).enc = s.enc :=
  enc_congr (encBlockTo_alg i x s) (encBlockTo_ek i x s)

@[simp] theorem decBlockTo_enc (i k : Nat) (x : Block128) (s : State) : (decBlockTo i k x s).enc = s.enc :=
  enc_congr (decBlockTo_alg i k x s) (decBlockTo_ek i k x s)

@[simp] theorem decBlockTo_dec (i k : Nat) (x : Block128) (s : State) : (decBlockTo i k x s).dec = s.dec :=
  dec_congr (decBlockTo_alg i k x s) (decBlockTo_dk i k x s)

/-! ### The chunk loops -/

theorem encBlockTo_frame (i : Nat) (x : Block128) (s : State) :
    encBlockTo i x s = { s with chain := (encBlockTo i x s).chain, mem := (encBlockTo i x s).mem } := by
  rw [encBlockTo]

theorem decBlockTo_frame (i k : Nat) (x : Block128) (s : State) :
    decBlockTo i k x s = { s with chain := (decBlockTo i k x s).chain, mem := (decBlockTo i k x s).mem } := by
  rw [decBlockTo]

/-- The loop of `ENCBUF` changes only `S` and memory. -/
theorem encChunks_frame (n i : Nat) (s : State) :
    encChunks n i s = { s with chain := (encChunks n i s).chain, mem := (encChunks n i s).mem } := by
  induction n generalizing i s with
  | zero => rfl
  | succ n ih =>
    rw [encChunks, ih, encBlockTo_frame i (srcChunk s i) s]

/-- The loop of `DECBUF` changes only `S` and memory. -/
theorem decChunks_frame (n i : Nat) (s : State) :
    decChunks n i s = { s with chain := (decChunks n i s).chain, mem := (decChunks n i s).mem } := by
  induction n generalizing i s with
  | zero => rfl
  | succ n ih =>
    rw [decChunks, ih, decBlockTo_frame i 16 (srcChunk s i) s]

theorem encChunks_wf (n i : Nat) (s : State) (h : Memory.wf s.mem = true) : Memory.wf (encChunks n i s).mem = true := by
  induction n generalizing i s with
  | zero => exact h
  | succ n ih => exact ih _ _ (by simpa using memWrite_wf _ _ h)

theorem decChunks_wf (n i : Nat) (s : State) (h : Memory.wf s.mem = true) : Memory.wf (decChunks n i s).mem = true := by
  induction n generalizing i s with
  | zero => exact h
  | succ n ih => exact ih _ _ (by simpa using memWrite_wf _ _ h)

/-- Writing one encrypted block leaves every address outside the destination range of `r` bytes that holds the block. -/
theorem encBlockTo_read_outside (i : Nat) (x : Block128) (s : State) (h : Memory.wf s.mem = true) {r a : Nat}
    (hr : 16 * i + 16 ≤ r) (ha : ¬ (s.dstAddr ≤ a ∧ a < s.dstAddr + r)) :
    Memory.read (encBlockTo i x s).mem a = Memory.read s.mem a := by
  rw [encBlockTo]
  exact memWrite_read_outside _ _ h (by rw [blockBytes_length]; omega)

/-- Writing at most sixteen bytes of a decrypted block, likewise. -/
theorem decBlockTo_read_outside (i k : Nat) (x : Block128) (s : State) (h : Memory.wf s.mem = true) {r a : Nat}
    (hr : 16 * i + 16 ≤ r) (ha : ¬ (s.dstAddr ≤ a ∧ a < s.dstAddr + r)) :
    Memory.read (decBlockTo i k x s).mem a = Memory.read s.mem a := by
  rw [decBlockTo]
  exact memWrite_read_outside _ _ h (by rw [List.length_take, blockBytes_length]; omega)

/-- The loop of `ENCBUF` leaves every address outside the destination range of `r` bytes that holds its blocks. -/
theorem encChunks_read_outside (n i : Nat) (s : State) (h : Memory.wf s.mem = true) {r a : Nat}
    (hr : 16 * (i + n) ≤ r) (ha : ¬ (s.dstAddr ≤ a ∧ a < s.dstAddr + r)) :
    Memory.read (encChunks n i s).mem a = Memory.read s.mem a := by
  induction n generalizing i s with
  | zero => rfl
  | succ n ih =>
    have hd : (encBlockTo i (srcChunk s i) s).dstAddr = s.dstAddr := by rw [encBlockTo]
    rw [encChunks]
    have hw : Memory.wf (encBlockTo i (srcChunk s i) s).mem = true := encChunks_wf 1 i s h
    exact (ih (i + 1) _ hw (by omega) (by rw [hd]; exact ha)).trans
      (encBlockTo_read_outside i _ s h (by omega) ha)

/-- The loop of `DECBUF`, likewise. -/
theorem decChunks_read_outside (n i : Nat) (s : State) (h : Memory.wf s.mem = true) {r a : Nat}
    (hr : 16 * (i + n) ≤ r) (ha : ¬ (s.dstAddr ≤ a ∧ a < s.dstAddr + r)) :
    Memory.read (decChunks n i s).mem a = Memory.read s.mem a := by
  induction n generalizing i s with
  | zero => rfl
  | succ n ih =>
    have hd : (decBlockTo i 16 (srcChunk s i) s).dstAddr = s.dstAddr := by rw [decBlockTo]
    rw [decChunks]
    have hw : Memory.wf (decBlockTo i 16 (srcChunk s i) s).mem = true := decChunks_wf 1 i s h
    exact (ih (i + 1) _ hw (by omega) (by rw [hd]; exact ha)).trans
      (decBlockTo_read_outside i 16 _ s h (by omega) ha)

/-! ### The register port -/

/-- A host write to a register other than `CMD` changes at most the operand and descriptor registers. -/
theorem writeRegister_frame (r : Reg) (v : Nat) (s : State) :
    writeRegister r v s =
      { s with keyLo := (writeRegister r v s).keyLo, keyHi := (writeRegister r v s).keyHi, iv := (writeRegister r v s).iv,
               din := (writeRegister r v s).din, srcAddr := (writeRegister r v s).srcAddr,
               srcLen := (writeRegister r v s).srcLen, dstAddr := (writeRegister r v s).dstAddr,
               dstLen := (writeRegister r v s).dstLen } := by
  cases r <;> rfl

/-- A descriptor a host write leaves behind fits `AW` bits if it did before. -/
theorem writeRegister_fits (r : Reg) (v : Nat) (s : State) (h : descriptorsFit s) : descriptorsFit (writeRegister r v s) := by
  obtain ⟨h1, h2, h3, h4⟩ := h
  have hv : v % 2 ^ s.platform.aw < 2 ^ s.platform.aw := Nat.mod_lt _ (Nat.two_pow_pos _)
  cases r <;> exact ⟨by first | exact hv | exact h1, by first | exact hv | exact h2, by first | exact hv | exact h3,
    by first | exact hv | exact h4⟩

end Sys2Proof.Machine
end

