-- ==== Sys2Proof/Laws/Exec.lean ====
section
/-! SUPPORT. One inversion lemma per meaning: the outcomes the command can have, with the tests that lead to each. Later
proofs cite these instead of unfolding the meanings. -/

namespace Sys2Proof.Machine

theorem execKexp_cases (alg : BitVec 2) (s : State) :
    (algOf alg = none ∧ execKexp alg s = .next (withStatus .notImplemented .none s)) ∨
    (∃ a, algOf alg = some a ∧ execKexp alg s = .next (withStatus .success .none (withFlags true false false false
      { s with ek := keyFile (nr a) (s.expandKey a), dk := zeroFile, alg := a, mode := .ecb, chain := 0 }))) := by
  unfold execKexp
  cases h : algOf alg with
  | none => exact .inl ⟨rfl, rfl⟩
  | some a => exact .inr ⟨a, rfl, rfl⟩

theorem execKinv_cases (s : State) :
    (s.ekValid = false ∧ execKinv s = .next (withStatus .notReady .none s)) ∨
    (s.ekValid = true ∧ execKinv s = .next (withStatus .success .none
      { s with dk := keyFile (nr s.alg) (invert (fileKeys (nr s.alg) s.ek)), dkValid := true })) := by
  unfold execKinv
  cases h : s.ekValid with
  | false => exact .inl ⟨rfl, rfl⟩
  | true => exact .inr ⟨rfl, rfl⟩

theorem execMstart_cases (mode : BitVec 3) (ivp : Bool) (s : State) :
    (modeOf mode = none ∧ execMstart mode ivp s = .next (withStatus .notImplemented .none s)) ∨
    (∃ m, modeOf mode = some m ∧
      ((s.ekValid = false ∧ execMstart mode ivp s = .next (withStatus .notReady .none s)) ∨
       (s.ekValid = true ∧ needsIv m = true ∧ ivp = false ∧
          execMstart mode ivp s = .next (withStatus .nullArgument .iv s)) ∨
       (s.ekValid = true ∧ (needsIv m = true → ivp = true) ∧ execMstart mode ivp s = .next (withStatus .success .none
          { s with mode := m, chain := if ivp then s.iv else 0, ivValid := ivp, msValid := true })))) := by
  unfold execMstart
  cases h : modeOf mode with
  | none => exact .inl ⟨rfl, rfl⟩
  | some m =>
    refine .inr ⟨m, rfl, ?_⟩
    cases he : s.ekValid with
    | false => exact .inl ⟨rfl, rfl⟩
    | true =>
      by_cases hv : needsIv m = true ∧ ivp = false
      · exact .inr (.inl ⟨rfl, hv.1, hv.2, by simp [hv, failWith_eq]⟩)
      · refine .inr (.inr ⟨rfl, fun hm => by simpa [hm] using hv, by simp [hv, succeed_eq]⟩)

theorem execEncb_cases (s : State) :
    (s.msValid = false ∧ execEncb s = .next (withStatus .notReady .none s)) ∨
    (s.msValid = true ∧ execEncb s = .next (withStatus .success .none
      { s with dout := (s.encStep s.din).1, chain := (s.encStep s.din).2 })) := by
  unfold execEncb
  cases h : s.msValid with
  | false => exact .inl ⟨rfl, rfl⟩
  | true => exact .inr ⟨rfl, rfl⟩

theorem execDecb_cases (s : State) :
    ((s.msValid = false ∨ (needsDk s.mode = true ∧ s.dkValid = false)) ∧
      execDecb s = .next (withStatus .notReady .none s)) ∨
    (s.msValid = true ∧ (needsDk s.mode = true → s.dkValid = true) ∧ execDecb s = .next (withStatus .success .none
      { s with dout := (s.decStep s.din).1, chain := (s.decStep s.din).2 })) := by
  unfold execDecb
  cases h : s.msValid with
  | false => exact .inl ⟨.inl rfl, rfl⟩
  | true =>
    by_cases hd : needsDk s.mode = true ∧ s.dkValid = false
    · exact .inl ⟨.inr hd, by simp [hd, failWith_eq]⟩
    · exact .inr ⟨rfl, fun hm => by simpa [hm] using hd, by simp [hd, succeed_eq]⟩

theorem execInit_cases (alg : BitVec 2) (mode : BitVec 3) (ivp : Bool) (s : State) :
    ((algOf alg = none ∨ modeOf mode = none) ∧
      execInit alg mode ivp s = .next (withStatus .notImplemented .none s)) ∨
    (∃ a m, algOf alg = some a ∧ modeOf mode = some m ∧
      ((needsIv m = true ∧ ivp = false ∧ execInit alg mode ivp s = .next (withStatus .nullArgument .iv s)) ∨
       ((needsIv m = true → ivp = true) ∧
          execInit alg mode ivp s = .next (withStatus .success .none (initContext a m ivp s))))) := by
  unfold execInit
  cases ha : algOf alg with
  | none => exact .inl ⟨.inl rfl, by simp [failWith_eq]⟩
  | some a =>
    cases hm : modeOf mode with
    | none => exact .inl ⟨.inr rfl, by simp [failWith_eq]⟩
    | some m =>
      refine .inr ⟨a, m, rfl, rfl, ?_⟩
      by_cases hv : needsIv m = true ∧ ivp = false
      · exact .inl ⟨hv.1, hv.2, by simp [hv, failWith_eq]⟩
      · exact .inr ⟨fun hm => by simpa [hm] using hv, by simp [hv, succeed_eq]⟩

/-- What the real run of `ENCBUF` leaves: only `S`, memory, `DST_LEN` and `STATUS` differ. -/
theorem encRun_frame (s : State) : ∃ c m, encRun s =
    .next { s with chain := c, mem := m, dstLen := encReq s.srcLen, statusCode := .success, statusArg := .none } := by
  obtain ⟨c, m, h⟩ : ∃ c m, encBlockTo (s.srcLen / 16) (encTail (encChunks (s.srcLen / 16) 0 s))
      (encChunks (s.srcLen / 16) 0 s) = { s with chain := c, mem := m } := by
    obtain ⟨c, m, h⟩ : ∃ c m, encChunks (s.srcLen / 16) 0 s = { s with chain := c, mem := m } :=
      ⟨_, _, encChunks_frame _ _ s⟩
    rw [h]
    exact ⟨_, _, encBlockTo_frame _ _ _⟩
  exact ⟨c, m, by simp only [encRun, h, succeed_eq, withStatus]⟩

/-- What the real run of `DECBUF` leaves: invalid padding or success, and only `S`, memory, `DST_LEN` and `STATUS` differ. -/
theorem decRun_frame (s : State) : ∃ c m n,
    (decRun s = .next { s with chain := c, mem := m, dstLen := n, statusCode := .invalidPadding, statusArg := .none } ∧
      n = 16 * (s.srcLen / 16 - 1)) ∨
    (decRun s = .next { s with chain := c, mem := m, dstLen := n, statusCode := .success, statusArg := .none } ∧
      n ≤ s.srcLen) := by
  obtain ⟨c, m, h⟩ : ∃ c m, decChunks (s.srcLen / 16 - 1) 0 s = { s with chain := c, mem := m } :=
    ⟨_, _, decChunks_frame _ _ s⟩
  simp only [decRun, h]
  generalize srcChunk _ _ = x
  cases padCheck _ with
  | none => exact ⟨_, m, _, .inl ⟨rfl, rfl⟩⟩
  | some k =>
    obtain ⟨c', m', h'⟩ : ∃ c' m', decBlockTo (s.srcLen / 16 - 1) (16 - k) x { s with chain := c, mem := m }
        = { s with chain := c', mem := m' } := ⟨_, _, decBlockTo_frame _ _ _ _⟩
    exact ⟨c', m', s.srcLen - k, .inr ⟨by simp only [h', succeed_eq, withStatus], Nat.sub_le _ k⟩⟩

/-- The real run of `ENCBUF` leaves every address outside its `Req` destination bytes. -/
theorem encRun_read_outside {s t : State} (h : Memory.wf s.mem = true) (ht : encRun s = .next t) {a : Nat}
    (ha : ¬ (s.dstAddr ≤ a ∧ a < s.dstAddr + encReq s.srcLen)) : Memory.read t.mem a = Memory.read s.mem a := by
  have hm : t.mem = (encBlockTo (s.srcLen / 16) (encTail (encChunks (s.srcLen / 16) 0 s)) (encChunks (s.srcLen / 16) 0 s)).mem := by
    rw [encRun, succeed_eq, Host.Outcome.next.injEq] at ht
    rw [← ht, withStatus]
  have hd : (encChunks (s.srcLen / 16) 0 s).dstAddr = s.dstAddr := by rw [encChunks_frame]
  have h1 := encChunks_read_outside (s.srcLen / 16) 0 s h (r := encReq s.srcLen) (by rw [encReq]; omega) ha
  have h2 := encBlockTo_read_outside (s.srcLen / 16) (encTail (encChunks (s.srcLen / 16) 0 s)) _
    (encChunks_wf (s.srcLen / 16) 0 s h) (r := encReq s.srcLen) (by rw [encReq]; omega) (by rw [hd]; exact ha)
  rw [hm, h2, h1]

/-- The real run of `DECBUF` leaves every address outside `SRC_LEN` destination bytes. -/
theorem decRun_read_outside {s t : State} (h : Memory.wf s.mem = true) (hn : 16 ≤ s.srcLen) (ht : decRun s = .next t) {a : Nat}
    (ha : ¬ (s.dstAddr ≤ a ∧ a < s.dstAddr + s.srcLen)) : Memory.read t.mem a = Memory.read s.mem a := by
  have hd : (decChunks (s.srcLen / 16 - 1) 0 s).dstAddr = s.dstAddr := by rw [decChunks_frame]
  have h1 := decChunks_read_outside (s.srcLen / 16 - 1) 0 s h (r := s.srcLen) (by omega) ha
  simp only [decRun] at ht
  split at ht
  · rw [failWith_eq, Host.Outcome.next.injEq] at ht
    subst ht
    exact h1
  · rw [succeed_eq, Host.Outcome.next.injEq] at ht
    subst ht
    exact (decBlockTo_read_outside (s.srcLen / 16 - 1) _ _ _ (decChunks_wf _ 0 s h) (r := s.srcLen) (by omega)
      (by rw [hd]; exact ha)).trans h1

/-- The outcomes of `ENCBUF`: a failure that changes only `STATUS`, the sizing query, or the real run. -/
theorem execEncbuf_cases (s : State) :
    (∃ c a, c ≠ .success ∧ execEncbuf s = .next (withStatus c a s) ∧ encRunOk s = false) ∨
    (s.dstAddr = 0 ∧ encReq s.srcLen < 2 ^ s.platform.aw ∧ s.msValid = true ∧
      execEncbuf s = .next (withStatus .success .none { s with dstLen := encReq s.srcLen })) ∨
    (encRunOk s = true ∧ execEncbuf s = encRun s) := by
  unfold execEncbuf encRunOk
  split
  · exact .inl ⟨_, _, by decide, rfl, by simp [*]⟩
  · split
    · exact .inl ⟨_, _, by decide, rfl, by simp; intros; omega⟩
    · split
      · exact .inr (.inl ⟨‹_›, by omega, by simpa using ‹¬ s.msValid = false›, rfl⟩)
      · split
        · exact .inl ⟨_, _, by decide, rfl, by simp; intros; omega⟩
        · split
          · exact .inl ⟨_, _, by decide, rfl, by simp; intros; omega⟩
          · split
            · exact .inl ⟨_, _, by decide, rfl, by simp [*]⟩
            · refine .inr (.inr ⟨?_, rfl⟩)
              simp_all
              omega

/-- The outcomes of `DECBUF`: a failure that changes only `STATUS`, the sizing query, or the real run. -/
theorem execDecbuf_cases (s : State) :
    (∃ c a, c ≠ .success ∧ execDecbuf s = .next (withStatus c a s) ∧ decRunOk s = false) ∨
    (s.dstAddr = 0 ∧ s.msValid = true ∧
      execDecbuf s = .next (withStatus .success .none { s with dstLen := s.srcLen })) ∨
    (decRunOk s = true ∧ execDecbuf s = decRun s) := by
  unfold execDecbuf decRunOk
  split
  · exact .inl ⟨_, _, by decide, rfl, by simp [*]⟩
  · split
    · exact .inl ⟨_, _, by decide, rfl, by simp [*]⟩
    · split
      · exact .inl ⟨_, _, by decide, rfl, by simp; intros; omega⟩
      · split
        · exact .inr (.inl ⟨‹_›, by simpa using ‹¬ s.msValid = false›, rfl⟩)
        · split
          · exact .inl ⟨_, _, by decide, rfl, by simp [*]⟩
          · split
            · exact .inl ⟨_, _, by decide, rfl, by simp; intros; omega⟩
            · split
              · exact .inl ⟨_, _, by decide, rfl, by simp [*]⟩
              · refine .inr (.inr ⟨?_, rfl⟩)
                have hn : 0 < s.srcLen ∧ s.srcLen % 16 = 0 := by omega
                simp_all
                cases hm : needsDk s.mode
                · exact .inl rfl
                · exact .inr (‹needsDk s.mode = true → s.dkValid = true› hm)

end Sys2Proof.Machine
end

