-- ==== Sys2Proof/Laws/PerInstr.lean ====
section
/-! SUPPORT. Facts about every instruction as syntax, one lemma per constructor.

Family `LegalWord`: the word of an instruction has a legal opcode and its reserved bits are 0 (spec/30_encoding.md R91, R94). -/

namespace Sys2Proof.Laws.LegalWord

/-- The opcode field of the instruction's word is a row of R94, and bits 31:14 are 0. -/
def Statement (i : Instr) : Prop := (opcodeOf (cmdOp (encode i))).isSome = true ∧ cmdReserved (encode i) = 0

theorem kexp (alg : BitVec 2) : Statement (.kexp alg) := by
  unfold Statement; revert alg; decide

theorem kinv : Statement .kinv := by unfold Statement; decide

theorem mstart (mode : BitVec 3) (ivp : Bool) : Statement (.mstart mode ivp) := by
  unfold Statement; revert mode ivp; decide

theorem encb : Statement .encb := by unfold Statement; decide

theorem decb : Statement .decb := by unfold Statement; decide

theorem encbuf : Statement .encbuf := by unfold Statement; decide

theorem decbuf : Statement .decbuf := by unfold Statement; decide

theorem init (alg : BitVec 2) (mode : BitVec 3) (ivp : Bool) : Statement (.init alg mode ivp) := by
  unfold Statement; revert alg mode ivp; decide

theorem clear : Statement .clear := by unfold Statement; decide

end Sys2Proof.Laws.LegalWord
end

