-- ==== Sys2Proof/Tests/Slice0.lean ====
section
/-! SUPPORT. The model's own tests: words written out from the spec's encodings, the checks of `WellFormed`, single steps
against the vectors of spec/95_test_vectors.md, and for every statement with hypotheses a state that meets them. -/

namespace Sys2Proof.Tests

open Sys2Proof.Machine

/- One theorem after another: many kernel evaluations at once would need a thread and its stack each. -/
set_option Elab.async false

/-! ### Helpers -/

/-- The command ends in a next state that passes the check. -/
def endsWith (r : Result) (p : State → Bool) : Bool :=
  match r with
  | .next t => p t
  | .fault _ => false
  | .refused _ => false

/-- The next state of an outcome that has one. -/
def nextOf : Result → Option State
  | .next t => some t
  | .fault _ => none
  | .refused _ => none

/-- The `k` bytes of a number written in hex, leftmost first. -/
def hexBytes (k n : Nat) : List Byte := (List.range k).map fun i => BitVec.ofNat 8 (n >>> (8 * (k - 1 - i)))

/-- A memory that holds the `k` bytes of `n` from `a` up and nothing else. -/
def memOf (a k n : Nat) : Memory := memWrite [] a (hexBytes k n)

/-- The key of V10 and of V17 to V25 of the spec. -/
def keyV10 : Block128 := fips 0x000102030405060708090a0b0c0d0e0f
def keyV17 : Block128 := fips 0x2b7e151628aed2a6abf7158809cf4f3c

/-- A state with the given AES-128 key expanded and a session of the mode `m` with chaining state `c`; no `DK`. -/
def encSession (key : Block128) (m : Mode) (c : Block128) : State :=
  { State.reset with keyLo := key, ek := keyFile 10 (expand .aes128 (keyBytes .aes128 key 0)), ekValid := true, mode := m,
                     chain := c, ivValid := true, msValid := true }

/-- The same with the decryption schedule. -/
def decSession (key : Block128) (m : Mode) (c : Block128) : State :=
  { encSession key m c with dk := keyFile 10 (invert (expand .aes128 (keyBytes .aes128 key 0))), dkValid := true }

/-- All flags set and all keys zero: enough where only the flags matter. -/
def flagged (m : Mode) : State :=
  { State.reset with ekValid := true, dkValid := true, msValid := true, ivValid := true, mode := m }

/-- The descriptors set. -/
def describing (src n dst cap : Nat) (s : State) : State :=
  { s with srcAddr := src, srcLen := n, dstAddr := dst, dstLen := cap }

/-! ### Words (spec/30_encoding.md R95, R98), written out bit by bit: reserved, `IVP`, `MODE`, `ALG`, `OP` -/

theorem test_decode_kexp : decode 0b000000000000000000_0_000_10_00000001 = .ok (.kexp 2) := by decide
theorem test_decode_kinv : decode 0b000000000000000000_0_000_00_00000010 = .ok .kinv := by decide
theorem test_decode_mstart : decode 0b000000000000000000_1_011_00_00000011 = .ok (.mstart 3 true) := by decide
theorem test_decode_encb : decode 0b000000000000000000_0_000_00_00000100 = .ok .encb := by decide
theorem test_decode_decb : decode 0b000000000000000000_0_000_00_00000101 = .ok .decb := by decide
theorem test_decode_encbuf : decode 0b000000000000000000_0_000_00_00000110 = .ok .encbuf := by decide
theorem test_decode_decbuf : decode 0b000000000000000000_0_000_00_00000111 = .ok .decbuf := by decide
theorem test_decode_init : decode 0b000000000000000000_1_100_01_00001000 = .ok (.init 1 4 true) := by decide
theorem test_decode_clear : decode 0b000000000000000000_0_000_00_00001001 = .ok .clear := by decide

/-- R99: illegal words of the reference list. -/
theorem test_decode_rejects_opcode : decode 0x00000000 = .error .opcode ∧ decode 0x0000000A = .error .opcode ∧
    decode 0x000000FF = .error .opcode := by decide
theorem test_decode_rejects_field : decode 0x00000102 = .error .field ∧ decode 0x00002001 = .error .field ∧
    decode 0x00000401 = .error .field ∧ decode 0x00000103 = .error .field ∧ decode 0x80000004 = .error .field ∧
    decode 0x00004003 = .error .field := by decide

/-- R98: the words the assembler builds. -/
theorem test_encode_words : encode (.kexp 1) = 0x00000101 ∧ encode (.mstart 4 true) = 0x00003003 ∧
    encode (.init 0 1 true) = 0x00002408 ∧ encode .clear = 0x00000009 := by decide

/-! ### WellFormed: an ill-formed term for each check -/

theorem test_wellformed_refuses_algorithm : Instr.wellFormed (.kexp 3) = false := by decide
theorem test_wellformed_refuses_mode : Instr.wellFormed (.mstart 5 true) = false ∧
    Instr.wellFormed (.mstart 7 false) = false := by decide
theorem test_wellformed_refuses_init : Instr.wellFormed (.init 3 0 true) = false ∧
    Instr.wellFormed (.init 0 5 true) = false := by decide
theorem test_wellformed_accepts : Instr.wellFormed (.kexp 2) = true ∧ Instr.wellFormed (.mstart 4 false) = true ∧
    Instr.wellFormed (.init 2 4 true) = true := by decide

/-! ### Primitives -/

/-- V4, V5. -/
theorem test_field_and_sbox : gmul 0x57 0x13 = 0xfe ∧ xtime 0x80 = 0x1b ∧ sbox 0x53 = 0xed ∧ invSbox 0x16 = 0xff := by
  decide +kernel

/-- V6. -/
theorem test_layers : subBytes (fips 0x00102030405060708090a0b0c0d0e0f0) = fips 0x63cab7040953d051cd60e0e7ba70e18c ∧
    shiftRows (fips 0x63cab7040953d051cd60e0e7ba70e18c) = fips 0x6353e08c0960e104cd70b751bacad0e7 ∧
    mixColumns (fips 0x6353e08c0960e104cd70b751bacad0e7) = fips 0x5f72641557f5bc92f7be3b291db9f91a := by decide +kernel

/-- V7: the carry passes from byte 15 into byte 14, and all-0xFF wraps. -/
theorem test_counter : incBE (fips 0xf0f1f2f3f4f5f6f7f8f9fafbfcfdfeff) = fips 0xf0f1f2f3f4f5f6f7f8f9fafbfcfdff00 ∧
    incBE (fips 0xffffffffffffffffffffffffffffffff) = 0 := by decide +kernel

/-- V28. -/
theorem test_padding : pad (hexBytes 5 0x0011223344) = fips 0x00112233440b0b0b0b0b0b0b0b0b0b0b ∧
    padCheck (fips 0x0f0f0f0f0f0f0f0f0f0f0f0f0f0f0f0f) = some 15 ∧
    padCheck (fips 0x00101010101010101010101010101010) = none ∧
    padCheck (fips 0x000102030405060708090a0b0c0d0e11) = none := by decide +kernel

/-! ### One command each -/

/-- R170's example. -/
theorem test_kexp_aes128 : endsWith (exec (.kexp 0) { State.reset with keyLo := keyV10 }) (fun t =>
    t.ek[1] == fips 0xd6aa74fdd2af72fadaa678f1d6ab76fe && t.ek[10] == fips 0x13111d7fe3944a17f307a78b4d2b30c5
      && t.ek[11] == 0 && ctxWord t == 0x20 && statusWord t == 0) = true := by decide +kernel

/-- V11, with eight bytes aa above the key. -/
theorem test_kexp_aes192 : endsWith (exec (.kexp 1)
      { State.reset with keyLo := keyV10, keyHi := fips 0x1011121314151617aaaaaaaaaaaaaaaa }) (fun t =>
    t.ek[1] == fips 0x10111213141516175846f2f95c43f4fe && t.ek[12] == fips 0xa4970a331a78dc09c418c271e3a41d5d
      && t.ek[13] == 0 && ctxWord t == 0x21) = true := by decide +kernel

/-- R180's example. -/
theorem test_kinv : endsWith (exec .kinv { encSession keyV10 .ecb 0 with msValid := false, ivValid := false }) (fun t =>
    t.dk[0] == fips 0x13111d7fe3944a17f307a78b4d2b30c5 && t.dk[1] == fips 0x13aa29be9c8faff6f770f58000f7bf03
      && t.dk[10] == keyV10 && t.dk[11] == 0 && ctxWord t == 0x60) = true := by decide +kernel

/-- R230's example. -/
theorem test_mstart_loads_iv : endsWith (exec (.mstart 1 true) { State.reset with ekValid := true, iv := keyV10 }) (fun t =>
    decide (t.mode = .cbc) && t.chain == keyV10 && t.msValid && t.ivValid && statusWord t == 0) = true := by decide +kernel

/-- R230's example: the word 0x00000403 supplies no IV. -/
theorem test_mstart_needs_iv : endsWith (issueCommand 0x00000403 { State.reset with ekValid := true, iv := keyV10 }) (fun t =>
    statusWord t == 0x101 && decide (t.mode = .ecb) && t.chain == 0) = true := by decide +kernel

/-- R240's example (V18, block 1). -/
theorem test_encb_cbc : endsWith (exec .encb
      { encSession keyV17 .cbc keyV10 with din := fips 0x6bc1bee22e409f96e93d7e117393172a }) (fun t =>
    t.dout == fips 0x7649abac8119b246cee98e9b12e9197d && t.chain == t.dout && statusWord t == 0) = true := by decide +kernel

/-- V21, block 1. -/
theorem test_encb_ctr : endsWith (exec .encb { encSession keyV17 .ctr (fips 0xf0f1f2f3f4f5f6f7f8f9fafbfcfdfeff) with
      din := fips 0x6bc1bee22e409f96e93d7e117393172a }) (fun t =>
    t.dout == fips 0x874d6191b620e3261bef6864990db6ce && t.chain == fips 0xf0f1f2f3f4f5f6f7f8f9fafbfcfdff00) = true := by
  decide +kernel

/-- R245's example. -/
theorem test_decb_cbc : endsWith (exec .decb
      { decSession keyV17 .cbc keyV10 with din := fips 0x7649abac8119b246cee98e9b12e9197d }) (fun t =>
    t.dout == fips 0x6bc1bee22e409f96e93d7e117393172a && t.chain == fips 0x7649abac8119b246cee98e9b12e9197d) = true := by
  decide +kernel

/-- V22, block 1: CFB decrypts with the forward cipher and without a decryption schedule. -/
theorem test_decb_cfb : endsWith (exec .decb
      { encSession keyV17 .cfb keyV10 with din := fips 0x3b3fd92eb72dad20333449f8e83cfb4a }) (fun t =>
    t.dout == fips 0x6bc1bee22e409f96e93d7e117393172a && t.chain == fips 0x3b3fd92eb72dad20333449f8e83cfb4a
      && statusWord t == 0) = true := by decide +kernel

/-- R270's example: one full chunk and a padding block, CBC. -/
theorem test_encbuf_cbc : endsWith (exec .encbuf (describing 0x1000 16 0x2000 32
      { encSession keyV17 .cbc keyV10 with mem := memOf 0x1000 16 0x6bc1bee22e409f96e93d7e117393172a })) (fun t =>
    memRead t.mem 0x2000 32 == hexBytes 32 0x7649abac8119b246cee98e9b12e9197d8964e0b149c10b7b682e6e39aaeb731c
      && memRead t.mem 0x2020 1 == [0] && t.dstLen == 32 && t.chain == fips 0x8964e0b149c10b7b682e6e39aaeb731c
      && statusWord t == 0) = true := by decide +kernel

/-- R270's second example, in place: the five bytes `0011223344` in ECB. -/
theorem test_encbuf_in_place : endsWith (exec .encbuf (describing 0x1000 5 0x1000 16
      { encSession keyV10 .ecb 0 with mem := memOf 0x1000 5 0x0011223344 })) (fun t =>
    memRead t.mem 0x1000 16 == hexBytes 16 0xa4566aa4f8afba6629d41a9fb0bd7f9a && t.dstLen == 16) = true := by decide +kernel

/-- V30, first row: the byte above the fifteen written is not touched. -/
theorem test_decbuf_strips_padding : endsWith (exec .decbuf (describing 0x1000 16 0x2000 16
      { decSession keyV10 .ecb 0 with mem := memOf 0x1000 16 0xb61e6af8da7260d2214369b951bf8963 })) (fun t =>
    memRead t.mem 0x2000 16 == hexBytes 16 0x000102030405060708090a0b0c0d0e00 && t.dstLen == 15 && statusWord t == 0) = true := by
  decide +kernel

/-- V30's multi-block failure (R278). -/
theorem test_decbuf_invalid_padding : endsWith (exec .decbuf (describing 0x1000 32 0x2000 32
      { decSession keyV10 .cbc (fips 0x0f0e0d0c0b0a09080706050403020100) with
        mem := memOf 0x1000 32 0x16628846f7334843bc7321cc79661680ec64132a0d4d171784d5be4fe8c3df78 })) (fun t =>
    memRead t.mem 0x2000 16 == hexBytes 16 0x00112233445566778899aabbccddeeff && memRead t.mem 0x2010 16 == hexBytes 16 0
      && t.dstLen == 16 && t.chain == fips 0xec64132a0d4d171784d5be4fe8c3df78 && statusWord t == 3 && ctxWord t == 0x1e4)
    = true := by decide +kernel

/-- R300's example. -/
theorem test_init : endsWith (issueCommand 0x00003008
      { State.reset with keyLo := keyV10, iv := fips 0x0f0e0d0c0b0a09080706050403020100 }) (fun t =>
    ctxWord t == 0x1f0 && t.ek[10] == fips 0x13111d7fe3944a17f307a78b4d2b30c5 && t.dk[0] == t.ek[10] && t.dk[10] == keyV10
      && t.chain == fips 0x0f0e0d0c0b0a09080706050403020100 && statusWord t == 0) = true := by decide +kernel

/-- R300's example: the words 0x00001008 and 0x00000308. -/
theorem test_init_failures : endsWith (issueCommand 0x00001008 State.reset) (fun t => statusWord t == 0x101) = true ∧
    endsWith (issueCommand 0x00000308 State.reset) (fun t => statusWord t == 0x4) = true := by decide +kernel

/-- R310's example. -/
theorem test_clear : endsWith (exec .clear { flagged .ctr with keyLo := keyV10, chain := keyV10, mem := memOf 5 1 0xab })
    (fun t => decide (t = { State.reset with mem := memOf 5 1 0xab })) = true := by decide +kernel

/-- R340: `MSTART cbc` without a schedule reports `NOT_READY`, not `NULL_ARGUMENT`. -/
theorem test_priority : endsWith (issueCommand 0x00000403 State.reset) (fun t => statusWord t == 0x9) = true := by decide

/-- R33, R34: a write, a read of it, and a write that is ignored. -/
theorem test_register_port : (hostRead 0x07 { State.reset with chain := 5 }).hostData = some 5 ∧
    endsWith (hostWrite 0x0A 0x100000001 State.reset) (fun t => t.srcAddr == 1) = true ∧
    endsWith (hostWrite 0x10 7 State.reset) (fun t => decide (t = State.reset)) = true := by decide +kernel

/-- R61: what another agent stores is read back, and storing the unlisted byte removes the entry. -/
theorem test_memory : Memory.write (Memory.write [] 9 7) 4 3 = [(4, 3), (9, 7)] ∧
    Memory.write [(4, 3), (9, 7)] 4 0 = [(9, 7)] ∧ Memory.read [(4, 3), (9, 7)] 9 = 7 := by decide +kernel

/-! ### Witnesses: for every statement with hypotheses, states and operands that meet them, one for each clause -/

theorem witness_DecodeIffEncode : decode 0x00002f08 = .ok (.init 3 3 true) ∧ encode (.init 3 3 true) = 0x00002f08 := by decide

theorem witness_WordsSelectTableRows :
    ((0x00003F08 : CmdWord) &&& 0xFFFFC0FF = 0x00000008 ∧ (.init, 0x00000008, 0xFFFFC0FF) ∈ commandTable) ∧
    (∀ r ∈ commandTable, (0x0000000A : CmdWord) &&& r.2.2 ≠ r.2.1) ∧
    (decode 0x00000301 = .ok (.kexp 3) ∧ Instr.wellFormed (.kexp 3) = false) := by decide

theorem witness_UnperformedWordsFail :
    (cmdOp 0x00000000 = 0 ∧ 0x0A ≤ (cmdOp 0x0000000A).toNat ∧ 0x0A ≤ (cmdOp 0x000000FF).toNat) ∧
    (1 ≤ (cmdOp 0x80000001).toNat ∧ (cmdOp 0x00004009).toNat ≤ 9 ∧ cmdReserved 0x80000001 ≠ 0 ∧ cmdReserved 0x00004009 ≠ 0) ∧
    (cmdOp 0x00000103 ≠ 0x01 ∧ cmdOp 0x00000103 ≠ 0x08 ∧ cmdAlg 0x00000103 ≠ 0) ∧
    (cmdOp 0x00000401 ≠ 0x03 ∧ cmdOp 0x00000401 ≠ 0x08 ∧ cmdMode 0x00000401 ≠ 0) ∧
    (cmdOp 0x00002009 ≠ 0x03 ∧ cmdOp 0x00002009 ≠ 0x08 ∧ cmdIvp 0x00002009 = true) ∧
    (5 ≤ (5 : BitVec 3).toNat ∧ 5 ≤ (7 : BitVec 3).toNat) := by decide

theorem witness_StepRunsDecodedCommand :
    ((State.reset.withFetchWord 32 0x00000201).pending = .write 0x00 0x201 :: [] ∧
      decode (BitVec.ofNat 32 0x201) = .ok (.kexp 2)) ∧
    decodeTableWord 32 0x00000201 = some (.kexp 2) := by decide

theorem witness_StepPerformsAction :
    State.reset.pending = [] ∧ regOf 0x0D ≠ .cmd ∧ regOf 0xFF ≠ .cmd ∧
    decode (BitVec.ofNat 32 0x0000000A) = .error .opcode ∧ 0xFFFFFFFF < 2 ^ State.reset.platform.aw ∧
    2 ^ State.reset.platform.aw ≤ 0x100000000 ∧ Memory.wf State.reset.mem = true := by decide

/-- Such pending actions exist whatever the state. -/
theorem witness_StepPerformsAction_pending (a : HostAction) : ∃ s : State, s.pending = a :: [] :=
  ⟨{ State.reset with pending := [a] }, rfl⟩

theorem witness_HostPortFollowsRegisterMap :
    0xFFFFFFFF < 2 ^ State.reset.platform.aw ∧ 0x2F ≤ (0x2F : BitVec 8).toNat ∧ 0x2F ≤ (0xFF : BitVec 8).toNat ∧
    0x10 ≤ (0x10 : BitVec 8).toNat ∧ regOf 0x1E = .ek 14 ∧ regOf 0x1F = .reserved ∧ regOf 0x2E = .dk 14 ∧
    regOf 0x2F = .reserved := by decide

theorem witness_HostPortFollowsRegisterMap_fit : descriptorsFit State.reset := by unfold descriptorsFit; decide

theorem witness_StatusHoldsLatestOutcome : ∃ t, regOf 0x06 ≠ .cmd ∧ hostWrite 0x06 1 State.reset = .next t :=
  ⟨_, by decide, rfl⟩

theorem witness_CtxShowsTagsAndFlags : ∃ t, exec (.kexp 1) State.reset = .next t ∧ (t.alg ≠ State.reset.alg ∨
    t.mode ≠ State.reset.mode) := ⟨_, rfl, .inl (by decide)⟩

theorem witness_FirstCommandAfterReset : Instr.wellFormed .decbuf = true ∧ (∀ a, Instr.decbuf ≠ .kexp a) ∧
    (∀ a m v, Instr.decbuf ≠ .init a m v) ∧ Instr.decbuf ≠ .clear :=
  ⟨rfl, (by intro a h; cases h), (by intro a m v h; cases h), (by intro h; cases h)⟩

theorem witness_BlocksLoadAndStoreInByteOrder : Memory.wf [(4, 3), (9, 7)] = true := by decide

theorem witness_MemReadAndMemWrite : Memory.wf (memOf 5 3 0x010203) = true := by decide +kernel

theorem witness_CounterIncrementIsBigEndian :
    (∀ j < 16, blockByte (fips 0xffffffffffffffffffffffffffffffff) j = 0xff) ∧
    (blockByte (fips 0xfeffffffffffffffffffffffffffffff) 0 ≠ 0xff ∧
      ∀ k, 0 < k → k < 16 → blockByte (fips 0xfeffffffffffffffffffffffffffffff) k = 0xff) ∧
    blockByte (0 : Block128) 15 ≠ 0xff := by
  refine ⟨by decide +kernel, ⟨by decide +kernel, ?_⟩, by decide⟩
  have h : ∀ k < 16, 0 < k → blockByte (fips 0xfeffffffffffffffffffffffffffffff) k = 0xff := by decide +kernel
  exact fun k h0 h1 => h k h1 h0

theorem witness_KeyBytesComeFromKeyLanes :
    (∀ i < 8, blockByte (fips 0x1011121314151617aaaaaaaaaaaaaaaa) i = blockByte (fips 0x10111213141516170000000000000000) i) ∧
    31 < 4 * nk .aes256 := by decide +kernel

theorem witness_ExpansionFollowsWordRecurrence :
    (nk .aes256 ≤ 59 ∧ 59 < 4 * (nr .aes256 + 1)) ∧ (12 : Nat) % nk .aes256 = 4 ∧ (54 : Nat) % nk .aes192 = 0 := by decide

theorem witness_InvertReversesAndTransforms :
    (1 ≤ 10 ∧ (expand .aes128 []).length = 10 + 1) ∧ (invert [1, 2, 3] = invert [1, 2, 3]) := by
  refine ⟨⟨by decide, ?_⟩, rfl⟩
  simp [expand, nr]

theorem witness_DecryptionInvertsEncryption : 2 ≤ ([1, 2] : List Block128).length := by decide

theorem witness_CipherReadsUsedKeysOnly : ∃ s t : State, s ≠ t ∧ t.alg = s.alg ∧
    ∀ i : Fin 15, i.val ≤ nr s.alg → t.ek[i.val] = s.ek[i.val] ∧ t.dk[i.val] = s.dk[i.val] :=
  ⟨State.reset, { State.reset with ek := keyFile 14 [0, 0, 0, 0, 0, 0, 0, 0, 0, 0, 0, 1] }, by decide +kernel, by decide,
    by decide +kernel⟩

theorem witness_KexpExpandsKey : cmdOp 0x00000801 = 0x01 ∧ ∀ alg : BitVec 2, (0x00000801 : CmdWord) ≠ encode (.kexp alg) := by
  decide

theorem witness_KinvInvertsSchedule : (cmdOp 0x00000102 = 0x02 ∧ (0x00000102 : CmdWord) ≠ 0x00000002) ∧
    State.reset.ekValid = false ∧ (flagged .ecb).ekValid = true := by decide

theorem witness_MstartStartsSession :
    (cmdOp 0x00000103 = 0x03 ∧ ∀ (mode : BitVec 3) (v : Bool), (0x00000103 : CmdWord) ≠ encode (.mstart mode v)) ∧
    5 ≤ (5 : BitVec 3).toNat ∧ State.reset.ekValid = false ∧ (flagged .ecb).ekValid = true ∧ Mode.ctr ≠ .ecb ∧
    (Mode.ecb ≠ .ecb → false = true) ∧ (Mode.cbc ≠ .ecb → true = true) := by decide

theorem witness_EncbEncryptsOneBlock : (cmdOp 0x00000104 = 0x04 ∧ (0x00000104 : CmdWord) ≠ 0x00000004) ∧
    State.reset.msValid = false ∧ (flagged .ecb).msValid = true ∧ (flagged .cbc).mode = .cbc ∧ (flagged .cfb).mode = .cfb ∧
    (flagged .ofb).mode = .ofb ∧ (flagged .ctr).mode = .ctr := by decide

theorem witness_DecbDecryptsOneBlock : (cmdOp 0x00000405 = 0x05 ∧ (0x00000405 : CmdWord) ≠ 0x00000005) ∧
    State.reset.msValid = false ∧ ((flagged .cbc).mode = .cbc ∧ { flagged .cbc with dkValid := false }.dkValid = false) ∧
    ((flagged .ecb).msValid = true ∧ (flagged .ecb).dkValid = true) ∧
    (({ flagged .ctr with dkValid := false }.mode = .ecb ∨ { flagged .ctr with dkValid := false }.mode = .cbc) →
      { flagged .ctr with dkValid := false }.dkValid = true) := by decide

theorem witness_InitBuildsContext :
    (cmdOp 0x00004008 = 0x08 ∧ ∀ (alg : BitVec 2) (mode : BitVec 3) (v : Bool), (0x00004008 : CmdWord) ≠ encode (.init alg mode v)) ∧
    5 ≤ (7 : BitVec 3).toNat ∧ Mode.cbc ≠ .ecb ∧ (Mode.ecb ≠ .ecb → false = true) := by decide

theorem witness_ClearDiscardsContext : cmdOp 0x00000109 = 0x09 ∧ (0x00000109 : CmdWord) ≠ 0x00000009 := by decide

theorem witness_InverseCipherOnlyInEcbAndCbcDecrypt : ∃ t t', exec .encb (flagged .cbc) = .next t ∧
    exec .decb (flagged .cfb) = .next t' ∧ (flagged .cfb).mode ≠ .ecb ∧ (flagged .cfb).mode ≠ .cbc :=
  ⟨_, _, rfl, rfl, by decide, by decide⟩

theorem witness_DirectionsStaySynchronous : ∃ (enc dec : Block128 → Block128) (s : State), (∀ x, dec (enc x) = x) ∧
    s.dk = keyFile (nr s.alg) (invert (fileKeys (nr s.alg) s.ek)) :=
  ⟨id, id, { State.reset with dk := keyFile 10 (invert (fileKeys 10 State.reset.ek)) }, fun _ => rfl, rfl⟩

theorem witness_BlockCommandsFollowModeStream : (flagged .cbc).msValid = true ∧
    (needsDk (flagged .cbc).mode = true → (flagged .cbc).dkValid = true) := by decide

theorem witness_SessionResumesFromSnapshot : ∃ s u : State, s ≠ u ∧ s.msValid = true ∧ u.ekValid = true ∧ u.ek = s.ek ∧
    u.dk = s.dk ∧ u.alg = s.alg :=
  ⟨{ flagged .ctr with chain := 5 }, flagged .ecb, by decide +kernel, by decide, by decide, by decide +kernel,
    by decide +kernel, by decide⟩

theorem witness_PaddingIsPkcs7 : (hexBytes 15 1).length ≤ 15 ∧ ([] : List Byte).length ≤ 15 ∧
    padCheck (pad []) = some 16 := by decide +kernel

/-- A destination that overlaps the source and starts elsewhere, one that wraps at the top, and a hole of the platform. -/
theorem witness_RangeCheckGuardsRealRuns :
    (let s := describing 0x1000 16 0x1008 32 (flagged .ecb)
     s.srcAddr < 2 ^ s.platform.aw ∧ s.msValid = true ∧ encReq s.srcLen < 2 ^ s.platform.aw ∧ s.dstAddr ≠ 0 ∧
      (s.srcAddr = 0 → s.srcLen = 0) ∧ encReq s.srcLen ≤ s.dstLen ∧
      rangeOk s.platform s.srcAddr s.srcLen s.dstAddr (encReq s.srcLen) = false) ∧
    (let s := describing 0x1000 16 0xFFFFFFF1 16 (flagged .cbc)
     s.msValid = true ∧ s.dkValid = true ∧ s.srcLen ≠ 0 ∧ s.srcLen % 16 = 0 ∧ s.dstAddr ≠ 0 ∧ s.srcAddr ≠ 0 ∧
      s.srcLen ≤ s.dstLen ∧ rangeOk s.platform s.srcAddr s.srcLen s.dstAddr s.srcLen = false) ∧
    rangeOk { aw := 16, holes := [⟨0x2008, 1⟩] } 0x1000 16 0x2000 16 = false ∧
    rangeOk { aw := 16, holes := [⟨0x2010, 1⟩] } 0x1000 16 0x2000 16 = true ∧
    rangeOk { aw := 16, holes := [] } 0x1000 16 0xFFF0 16 = true := by decide +kernel

theorem witness_SizingQueryAnswersRequiredSize :
    (let s := describing 0 17 0 0 (flagged .cbc); s.msValid = true ∧ encReq s.srcLen < 2 ^ s.platform.aw ∧ s.dstAddr = 0) ∧
    (let s := describing 0 0xFFFFFFF0 0 0 (flagged .cbc); s.msValid = true ∧ 2 ^ s.platform.aw ≤ encReq s.srcLen) ∧
    (let s := describing 0 16 0 0 (flagged .cbc)
     s.msValid = true ∧ s.dkValid = true ∧ s.srcLen ≠ 0 ∧ s.srcLen % 16 = 0 ∧ s.dstAddr = 0) := by decide

theorem witness_RealRunNeedsSourceAndCapacity :
    (let s := describing 0 1 0x2000 0 (flagged .cbc)
     s.msValid = true ∧ encReq s.srcLen < 2 ^ s.platform.aw ∧ s.dstAddr ≠ 0 ∧ s.srcAddr = 0 ∧ 0 < s.srcLen) ∧
    (let s := describing 0x1000 16 0x2000 31 (flagged .cbc)
     s.msValid = true ∧ encReq s.srcLen < 2 ^ s.platform.aw ∧ s.dstAddr ≠ 0 ∧ s.srcAddr ≠ 0 ∧ s.dstLen < encReq s.srcLen) ∧
    (let s := describing 0 16 0x2000 16 (flagged .ecb)
     s.msValid = true ∧ s.dkValid = true ∧ s.srcLen ≠ 0 ∧ s.srcLen % 16 = 0 ∧ s.dstAddr ≠ 0 ∧ s.srcAddr = 0) ∧
    (let s := describing 0x1000 16 0x2000 15 (flagged .ecb)
     s.msValid = true ∧ s.srcLen ≠ 0 ∧ s.srcLen % 16 = 0 ∧ s.dstAddr ≠ 0 ∧ s.srcAddr ≠ 0 ∧ s.dstLen < s.srcLen) ∧
    (let s := describing 0 0 0x2000 16 (flagged .ecb)
     Memory.wf s.mem = true ∧ s.msValid = true ∧ 16 < 2 ^ s.platform.aw ∧ s.dstAddr ≠ 0 ∧ s.srcLen = 0 ∧ 16 ≤ s.dstLen ∧
      rangeOk s.platform s.srcAddr 0 s.dstAddr 16 = true) := by decide +kernel

/-- In place and on disjoint ranges. -/
theorem witness_EncbufEncryptsBuffer :
    Memory.wf (flagged .cbc).mem = true ∧ encRunOk (describing 0x1000 17 0x1000 32 (flagged .cbc)) = true ∧
    encRunOk (describing 0x1000 17 0x2000 32 (flagged .cbc)) = true := by decide +kernel

/-- V30, first row. -/
def validBuffer : State := describing 0x1000 16 0x2000 16
  { decSession keyV10 .ecb 0 with mem := memOf 0x1000 16 0xb61e6af8da7260d2214369b951bf8963 }

/-- V30, last row. -/
def invalidBuffer : State := describing 0x1000 16 0x2000 16
  { decSession keyV10 .ecb 0 with mem := memOf 0x1000 16 0x69c4e0d86a7b0430d8cdb78070b4c55a }

/-- V30, the block of padding alone. -/
def paddingOnlyBuffer : State := describing 0x1000 16 0x2000 16
  { decSession keyV10 .ecb 0 with mem := memOf 0x1000 16 0x954f64f2e4e86e9eee82d20216684899 }

/-- The padding lengths 1 and 16, the bounds of the range. -/
theorem witness_DecbufDecryptsBuffer :
    (Memory.wf validBuffer.mem = true ∧ decRunOk validBuffer = true ∧ padCheck (decLastBlock validBuffer) = some 1) ∧
    (Memory.wf paddingOnlyBuffer.mem = true ∧ decRunOk paddingOnlyBuffer = true ∧
      padCheck (decLastBlock paddingOnlyBuffer) = some 16) := by decide +kernel

theorem witness_InvalidPaddingEffects : Memory.wf invalidBuffer.mem = true ∧ decRunOk invalidBuffer = true ∧
    padCheck (decLastBlock invalidBuffer) = none := by decide +kernel

/-- R270's example in ECB, then the decryption of what it wrote to a third place. -/
def roundTripStart : State := describing 0x1000 5 0x2000 16
  { decSession keyV10 .ecb 0 with mem := memOf 0x1000 5 0x0011223344 }

/-- The state `BufferRoundTrip` calls `u`. -/
def roundTripSecond : Option State :=
  (nextOf (exec .encbuf roundTripStart)).bind fun t =>
    nextOf (exec (.mstart (modeCode roundTripStart.mode) false)
      { t with srcAddr := roundTripStart.dstAddr, srcLen := t.dstLen, dstAddr := 0x3000, dstLen := 16 })

theorem witness_BufferRoundTrip : Memory.wf roundTripStart.mem = true ∧ encRunOk roundTripStart = true ∧
    roundTripStart.ekValid = true ∧
    roundTripStart.dk = keyFile (nr roundTripStart.alg) (invert (fileKeys (nr roundTripStart.alg) roundTripStart.ek)) ∧
    roundTripStart.chain = 0 ∧
    roundTripSecond.any (fun u => decide (u.statusCode = .success) && decRunOk u) = true := by decide +kernel

theorem witness_FirstFailureIsReported :
    decode 0x0000000A = .error .opcode ∧ decode 0x00000006 = .ok .encbuf ∧
    firstAnswer .encb State.reset = some (.fails .notReady .none) ∧
    firstAnswer (.init 3 5 false) State.reset = some (.fails .notImplemented .none) ∧
    firstAnswer (.mstart 4 false) (flagged .ecb) = some (.fails .nullArgument .iv) ∧
    firstAnswer .decbuf (describing 0 0 0 0 (flagged .ecb)) = some (.fails .missingPadding .none) ∧
    firstAnswer .encbuf (describing 0 0xFFFFFFF0 0 0 (flagged .ecb)) = some (.fails .addrRange .none) ∧
    firstAnswer .encbuf (describing 0 1 0 0 (flagged .ecb)) = some .sizing ∧
    firstAnswer .decbuf invalidBuffer = none ∧ Memory.wf invalidBuffer.mem = true := by decide +kernel

theorem witness_FailureChangesOnlyStatus :
    (∃ t, exec .encb State.reset = .next t ∧ t.statusCode ≠ .success) ∧
    endsWith (exec .decbuf invalidBuffer) (fun t => decide (t.statusCode = .invalidPadding)) = true :=
  ⟨⟨_, rfl, by decide⟩, by decide +kernel⟩

theorem witness_CommandsEndWithTheirOwnCodes : ∀ a b rest,
    { State.reset with pending := [.memPut 0xFFFFFFFF 1] }.pending = .memPut a b :: rest → a < 2 ^ State.reset.platform.aw := by
  intro a b rest h
  cases h
  decide

theorem witness_CommandsWriteOnlyTheirColumns : ∃ t t', exec .encb (flagged .ecb) = .next t ∧
    exec .encbuf (describing 0 0 0 0 (flagged .ecb)) = .next t' := ⟨_, _, rfl, rfl⟩

/-- A real run of each buffer command with the addresses next to its destination outside the stored range and the last one in
it; a failure of each with a destination. -/
theorem witness_CommandsWriteOnlyTheirColumns_memory :
    (let s := describing 0x1000 0 0x2000 16 (flagged .ecb)
     Memory.wf s.mem = true ∧ endsWith (exec .encbuf s) (fun t => decide (t.statusCode = .success)) = true ∧
      ¬ (s.dstAddr ≤ 0x1FFF ∧ 0x1FFF < s.dstAddr + reqOf .encbuf s) ∧
      (s.dstAddr ≤ 0x200F ∧ 0x200F < s.dstAddr + reqOf .encbuf s) ∧
      ¬ (s.dstAddr ≤ 0x2010 ∧ 0x2010 < s.dstAddr + reqOf .encbuf s)) ∧
    (Memory.wf validBuffer.mem = true ∧ endsWith (exec .decbuf validBuffer) (fun t => decide (t.statusCode = .success)) = true ∧
      ¬ (validBuffer.dstAddr ≤ 0x1FFF ∧ 0x1FFF < validBuffer.dstAddr + reqOf .decbuf validBuffer) ∧
      ¬ (validBuffer.dstAddr ≤ 0x2010 ∧ 0x2010 < validBuffer.dstAddr + reqOf .decbuf validBuffer)) ∧
    endsWith (exec .encbuf (describing 0x1000 0 0x2000 15 (flagged .ecb))) (fun t =>
      decide (t.statusCode ≠ .success ∧ t.statusCode ≠ .invalidPadding)) = true ∧
    endsWith (exec .decbuf (describing 0x1000 16 0x2000 15 (flagged .ecb))) (fun t =>
      decide (t.statusCode ≠ .success ∧ t.statusCode ≠ .invalidPadding)) = true := by decide +kernel

theorem witness_FlagsAreSetAndClearedByCommands :
    (∃ t, exec .kinv State.reset = .next t ∧ t.statusCode ≠ .success) ∧
    (∃ t, exec (.kexp 2) State.reset = .next t ∧ t.statusCode = .success) ∧
    (∃ t, exec .kinv (flagged .ecb) = .next t ∧ t.statusCode = .success) ∧
    (∃ t, exec (.mstart 4 true) (flagged .ecb) = .next t ∧ t.statusCode = .success) ∧
    (∃ t, exec (.init 2 4 true) State.reset = .next t ∧ t.statusCode = .success) ∧
    (∃ t, exec .decb (flagged .ecb) = .next t) :=
  ⟨⟨_, rfl, by decide⟩, ⟨_, rfl, rfl⟩, ⟨_, rfl, rfl⟩, ⟨_, rfl, rfl⟩, ⟨_, rfl, rfl⟩, ⟨_, rfl⟩⟩

theorem witness_OnlyRealBufferRunsTouchMemory : ∃ t t', (Instr.encb ≠ .encbuf ∧ Instr.encb ≠ .decbuf) ∧
    exec .encb (flagged .ecb) = .next t ∧ (describing 0 16 0 0 (flagged .ecb)).dstAddr = 0 ∧
    exec .decbuf (describing 0 16 0 0 (flagged .ecb)) = .next t' := ⟨_, _, by decide, rfl, rfl, rfl⟩

theorem witness_NullAddressByteIsUntouched : Memory.wf validBuffer.mem = true ∧
    endsWith (exec .decbuf validBuffer) (fun t => decide (t.statusCode = .success)) = true := by decide +kernel

/-- The premises of the three invariants in a live session, and the step from it. -/
def liveState : State := { decSession keyV10 .ctr keyV10 with pending := [.write 0x00 0x04] }

theorem witness_StepKeepsSessionInvariants : SessionInv liveState ∧ ∃ t, step liveState = .next t := by
  refine ⟨?_, ⟨_, rfl⟩⟩
  unfold SessionInv
  decide +kernel

theorem witness_StepKeepsSchedules : ScheduleInv liveState ∧ ∃ t, step liveState = .next t := by
  refine ⟨⟨fun _ => ⟨keyBytes .aes128 keyV10 0, by decide +kernel, rfl⟩, fun _ => ⟨rfl, by decide +kernel⟩⟩, ⟨_, rfl⟩⟩

theorem witness_StepKeepsDataLegal : DataInv liveState ∧ ∃ t, step liveState = .next t := by
  refine ⟨?_, ⟨_, rfl⟩⟩
  unfold DataInv descriptorsFit statusLegal
  decide +kernel

end Sys2Proof.Tests
end

section
/-! SUPPORT. What a command can end with, whatever the command: the arms of `exec`, the one inversion lemma over all of them,
the registers the block and buffer commands can change, and that no command reads the `STATUS` it finds. -/

namespace Sys2Proof.Machine

/-! ### The arms of `exec` -/

@[simp] theorem exec_kexp (alg : BitVec 2) (s : State) : exec (.kexp alg) s = execKexp alg s := rfl
@[simp] theorem exec_kinv (s : State) : exec .kinv s = execKinv s := rfl
@[simp] theorem exec_mstart (mode : BitVec 3) (v : Bool) (s : State) : exec (.mstart mode v) s = execMstart mode v s := rfl
@[simp] theorem exec_encb (s : State) : exec .encb s = execEncb s := rfl
@[simp] theorem exec_decb (s : State) : exec .decb s = execDecb s := rfl
@[simp] theorem exec_encbuf (s : State) : exec .encbuf s = execEncbuf s := rfl
@[simp] theorem exec_decbuf (s : State) : exec .decbuf s = execDecbuf s := rfl
@[simp] theorem exec_init (alg : BitVec 2) (mode : BitVec 3) (v : Bool) (s : State) :
    exec (.init alg mode v) s = execInit alg mode v s := rfl
@[simp] theorem exec_clear (s : State) : exec .clear s = execClear s := rfl

/-- `CLEAR` reaches the state of `Reset` (R371). -/
theorem execClear_eq_reset (s : State) : execClear s = .next (resetEngine s) := rfl

/-! ### How a command ends -/

/-- The results a command can have. -/
inductive CommandEnd (i : Instr) (s : State) : Result → Prop where
  /-- A failure with a code of the command's row of R335, an argument standing exactly with `NULL_ARGUMENT`, that changes
  `STATUS` alone (R336). -/
  | failure {c : StatusCode} {a : StatusArg} (failed : c ≠ .success) (allowed : c ∈ allowedCodes i)
      (argument : a ≠ .none ↔ c = .nullArgument) : CommandEnd i s (.next (withStatus c a s))
  /-- The one failure that changes more than `STATUS` (R278). -/
  | badPadding (x : Block128) (m : Memory) (n : Nat) (decrypts : i = .decbuf) :
      CommandEnd i s (.next (withStatus .invalidPadding .none { s with chain := x, mem := m, dstLen := n }))
  /-- Code 0 and argument 0 (R15). -/
  | success (u : State) : CommandEnd i s (.next (withStatus .success .none u))

theorem execEncbuf_ends (s : State) : CommandEnd .encbuf s (execEncbuf s) := by
  unfold execEncbuf
  split
  · exact .failure (by decide) (by decide) (by decide)
  split
  · exact .failure (by decide) (by decide) (by decide)
  split
  · exact .success _
  split
  · exact .failure (by decide) (by decide) (by decide)
  split
  · exact .failure (by decide) (by decide) (by decide)
  split
  · exact .failure (by decide) (by decide) (by decide)
  · exact .success _

theorem decRun_ends (s : State) : CommandEnd .decbuf s (decRun s) := by
  obtain ⟨x, m, n, ⟨h, -⟩ | ⟨h, -⟩⟩ := decRun_frame s
  · rw [h]; exact .badPadding x m n rfl
  · rw [h]; exact .success { s with chain := x, mem := m, dstLen := n }

theorem execDecbuf_ends (s : State) : CommandEnd .decbuf s (execDecbuf s) := by
  unfold execDecbuf
  split
  · exact .failure (by decide) (by decide) (by decide)
  split
  · exact .failure (by decide) (by decide) (by decide)
  split
  · exact .failure (by decide) (by decide) (by decide)
  split
  · exact .success _
  split
  · exact .failure (by decide) (by decide) (by decide)
  split
  · exact .failure (by decide) (by decide) (by decide)
  split
  · exact .failure (by decide) (by decide) (by decide)
  · exact decRun_ends s

/-- Every command, from every state, ends in one of the three ways; none stops the engine (R337). -/
theorem exec_ends (i : Instr) (s : State) : CommandEnd i s (exec i s) := by
  cases i with
  | kexp alg =>
    obtain ⟨-, h⟩ | ⟨a, -, h⟩ := execKexp_cases alg s <;> rw [exec_kexp, h]
    · exact .failure (by decide) (by simp [allowedCodes]) (by decide)
    · exact .success _
  | kinv =>
    obtain ⟨-, h⟩ | ⟨-, h⟩ := execKinv_cases s <;> rw [exec_kinv, h]
    · exact .failure (by decide) (by decide) (by decide)
    · exact .success _
  | mstart mode v =>
    obtain ⟨-, h⟩ | ⟨m, -, ⟨-, h⟩ | ⟨-, -, -, h⟩ | ⟨-, -, h⟩⟩ := execMstart_cases mode v s <;> rw [exec_mstart, h]
    · exact .failure (by decide) (by simp [allowedCodes]) (by decide)
    · exact .failure (by decide) (by simp [allowedCodes]) (by decide)
    · exact .failure (by decide) (by simp [allowedCodes]) (by decide)
    · exact .success _
  | encb =>
    obtain ⟨-, h⟩ | ⟨-, h⟩ := execEncb_cases s <;> rw [exec_encb, h]
    · exact .failure (by decide) (by decide) (by decide)
    · exact .success _
  | decb =>
    obtain ⟨-, h⟩ | ⟨-, -, h⟩ := execDecb_cases s <;> rw [exec_decb, h]
    · exact .failure (by decide) (by decide) (by decide)
    · exact .success _
  | encbuf => exact execEncbuf_ends s
  | decbuf => exact execDecbuf_ends s
  | init alg mode v =>
    obtain ⟨-, h⟩ | ⟨a, m, -, -, ⟨-, -, h⟩ | ⟨-, h⟩⟩ := execInit_cases alg mode v s <;> rw [exec_init, h]
    · exact .failure (by decide) (by simp [allowedCodes]) (by decide)
    · exact .failure (by decide) (by simp [allowedCodes]) (by decide)
    · exact .success _
  | clear => exact .success (resetEngine s)

/-- No command stops the engine (R337), and an argument stands exactly with `NULL_ARGUMENT` (R332). -/
theorem exec_next (i : Instr) (s : State) :
    ∃ t, exec i s = .next t ∧ (t.statusArg ≠ .none ↔ t.statusCode = .nullArgument) := by
  have hend := exec_ends i s
  generalize exec i s = r at hend ⊢
  cases hend with
  | failure _ _ harg => exact ⟨_, rfl, harg⟩
  | badPadding => exact ⟨_, rfl, by simp⟩
  | success u => exact ⟨_, rfl, by simp⟩

theorem issueCommand_next (w : CmdWord) (s : State) :
    ∃ t, issueCommand w s = .next t ∧ (t.statusArg ≠ .none ↔ t.statusCode = .nullArgument) := by
  unfold issueCommand
  cases decode w with
  | error e => exact ⟨_, failWith_eq _ _ _, by simp⟩
  | ok i => exact exec_next i s

/-! ### What the block and buffer commands can change -/

/-- The four commands that run a session change at most `DOUT`, `S`, memory, `DST_LEN` and `STATUS`. -/
theorem sessionCommand_frame {i : Instr} {s t : State} (hi : i = .encb ∨ i = .decb ∨ i = .encbuf ∨ i = .decbuf)
    (h : exec i s = .next t) :
    t = { s with dout := t.dout, chain := t.chain, mem := t.mem, dstLen := t.dstLen, statusCode := t.statusCode,
                 statusArg := t.statusArg } := by
  obtain rfl | rfl | rfl | rfl := hi
  · obtain ⟨-, h'⟩ | ⟨-, h'⟩ := execEncb_cases s
    all_goals cases h'.symm.trans h; rfl
  · obtain ⟨-, h'⟩ | ⟨-, -, h'⟩ := execDecb_cases s
    all_goals cases h'.symm.trans h; rfl
  · obtain ⟨_, _, -, h', -⟩ | ⟨-, -, -, h'⟩ | ⟨-, h'⟩ := execEncbuf_cases s
    · cases h'.symm.trans h; rfl
    · cases h'.symm.trans h; rfl
    · obtain ⟨_, _, hr⟩ := encRun_frame s
      cases (h'.trans hr).symm.trans h; rfl
  · obtain ⟨_, _, -, h', -⟩ | ⟨-, -, h'⟩ | ⟨-, h'⟩ := execDecbuf_cases s
    · cases h'.symm.trans h; rfl
    · cases h'.symm.trans h; rfl
    · obtain ⟨_, _, _, ⟨hr, -⟩ | ⟨hr, -⟩⟩ := decRun_frame s
      all_goals cases (h'.trans hr).symm.trans h; rfl

theorem sessionCommand_tags {i : Instr} {s t : State} (hi : i = .encb ∨ i = .decb ∨ i = .encbuf ∨ i = .decbuf)
    (h : exec i s = .next t) : t.alg = s.alg ∧ t.mode = s.mode := by
  rw [sessionCommand_frame hi h]
  exact ⟨rfl, rfl⟩

theorem sessionCommand_flags {i : Instr} {s t : State} (hi : i = .encb ∨ i = .decb ∨ i = .encbuf ∨ i = .decbuf)
    (h : exec i s = .next t) :
    t.ekValid = s.ekValid ∧ t.dkValid = s.dkValid ∧ t.msValid = s.msValid ∧ t.ivValid = s.ivValid := by
  rw [sessionCommand_frame hi h]
  exact ⟨rfl, rfl, rfl, rfl⟩

/-- `KINV` leaves the tags. -/
theorem kinv_tags {s t : State} (h : exec .kinv s = .next t) : t.alg = s.alg ∧ t.mode = s.mode := by
  obtain ⟨-, h'⟩ | ⟨-, h'⟩ := execKinv_cases s
  all_goals cases h'.symm.trans h; simp

/-- A failing command changes no flag (R27). -/
theorem exec_failure_flags {i : Instr} {s t : State} (h : exec i s = .next t) (hf : t.statusCode ≠ .success) :
    t.ekValid = s.ekValid ∧ t.dkValid = s.dkValid ∧ t.msValid = s.msValid ∧ t.ivValid = s.ivValid := by
  have hend := exec_ends i s
  rw [h] at hend
  cases hend with
  | failure => exact ⟨rfl, rfl, rfl, rfl⟩
  | badPadding => exact ⟨rfl, rfl, rfl, rfl⟩
  | success u => exact absurd rfl hf

/-! ### No command reads the `STATUS` it finds (R337) -/

@[simp] theorem encStep_withStatus (x : Block128) (c : StatusCode) (a : StatusArg) (s : State) :
    (withStatus c a s).encStep x = s.encStep x := rfl

@[simp] theorem decStep_withStatus (x : Block128) (c : StatusCode) (a : StatusArg) (s : State) :
    (withStatus c a s).decStep x = s.decStep x := rfl

@[simp] theorem srcChunk_withStatus (i : Nat) (c : StatusCode) (a : StatusArg) (s : State) :
    srcChunk (withStatus c a s) i = srcChunk s i := rfl

@[simp] theorem encBlockTo_withStatus (i : Nat) (x : Block128) (c : StatusCode) (a : StatusArg) (s : State) :
    encBlockTo i x (withStatus c a s) = withStatus c a (encBlockTo i x s) := by
  rw [encBlockTo, encBlockTo, encStep_withStatus]
  simp only [withStatus]

@[simp] theorem decBlockTo_withStatus (i k : Nat) (x : Block128) (c : StatusCode) (a : StatusArg) (s : State) :
    decBlockTo i k x (withStatus c a s) = withStatus c a (decBlockTo i k x s) := by
  rw [decBlockTo, decBlockTo, decStep_withStatus]
  simp only [withStatus]

@[simp] theorem encChunks_withStatus (n i : Nat) (c : StatusCode) (a : StatusArg) (s : State) :
    encChunks n i (withStatus c a s) = withStatus c a (encChunks n i s) := by
  induction n generalizing i s with
  | zero => rfl
  | succ n ih => rw [encChunks, encChunks, srcChunk_withStatus, encBlockTo_withStatus, ih]

@[simp] theorem decChunks_withStatus (n i : Nat) (c : StatusCode) (a : StatusArg) (s : State) :
    decChunks n i (withStatus c a s) = withStatus c a (decChunks n i s) := by
  induction n generalizing i s with
  | zero => rfl
  | succ n ih => rw [decChunks, decChunks, srcChunk_withStatus, decBlockTo_withStatus, ih]

theorem encRun_withStatus (c : StatusCode) (a : StatusArg) (s : State) : encRun (withStatus c a s) = encRun s := by
  simp only [encRun, encChunks_withStatus, withStatus_srcLen]
  rfl

theorem decRun_withStatus (c : StatusCode) (a : StatusArg) (s : State) : decRun (withStatus c a s) = decRun s := by
  simp only [decRun, decChunks_withStatus, withStatus_srcLen]
  rfl

theorem exec_withStatus (i : Instr) (c : StatusCode) (a : StatusArg) (s : State) :
    exec i (withStatus c a s) = exec i s := by
  cases i with
  | kexp alg => rfl
  | kinv => rfl
  | mstart mode v => rfl
  | encb => rfl
  | decb => rfl
  | encbuf => rw [exec_encbuf, execEncbuf, encRun_withStatus]; rfl
  | decbuf => rw [exec_decbuf, execDecbuf, decRun_withStatus]; rfl
  | init alg mode v => rfl
  | clear => rfl

theorem issueCommand_withStatus (w : CmdWord) (c : StatusCode) (a : StatusArg) (s : State) :
    issueCommand w (withStatus c a s) = issueCommand w s := by
  unfold issueCommand
  cases decode w with
  | error e => rfl
  | ok i => exact exec_withStatus i c a s

end Sys2Proof.Machine
end

section
/-! SUPPORT. The words `STATUS` and `CTX` by their fields, and the register port by the numbers of R33. -/

namespace Sys2Proof.Machine

/-! ### `STATUS` (R30) -/

theorem statusWord_withStatus (c : StatusCode) (a : StatusArg) (s : State) :
    statusWord (withStatus c a s) = 0#20 ++ statusArgBits a ++ statusCodeBits c := rfl

theorem statusWord_code (s : State) : (statusWord s).extractLsb' 0 8 = statusCodeBits s.statusCode :=
  BitVec.extractLsb'_append_eq_right

theorem statusWord_arg (s : State) : (statusWord s).extractLsb' 8 4 = statusArgBits s.statusArg := by
  rw [statusWord, BitVec.extractLsb'_append_eq_of_le (by decide)]
  exact BitVec.extractLsb'_append_eq_right

theorem statusWord_reserved (s : State) : (statusWord s).extractLsb' 12 19 = 0 := by
  rw [statusWord, BitVec.extractLsb'_append_eq_of_le (by decide), BitVec.extractLsb'_append_eq_of_le (by decide)]
  decide

theorem statusWord_busy (s : State) : (statusWord s).getLsbD 31 = false := by
  simp only [statusWord, BitVec.getLsbD_append]
  simp

theorem statusCodeBits_eq_zero_iff (c : StatusCode) : statusCodeBits c = 0 ↔ c = .success := by
  cases c <;> decide

theorem statusArgBits_eq_zero_iff (a : StatusArg) : statusArgBits a = 0 ↔ a = .none := by
  cases a <;> decide

/-- `STATUS` reads 0 exactly after a success. -/
theorem statusWord_eq_zero_iff (s : State) : statusWord s = 0 ↔ s.statusCode = .success ∧ s.statusArg = .none := by
  constructor
  · intro h
    have hc := statusWord_code s
    have ha := statusWord_arg s
    rw [h] at hc ha
    exact ⟨(statusCodeBits_eq_zero_iff _).mp hc.symm, (statusArgBits_eq_zero_iff _).mp ha.symm⟩
  · rintro ⟨hc, ha⟩
    rw [statusWord, hc, ha]
    decide

theorem statusWord_resetOn (p : Platform) : statusWord (State.resetOn p) = 0 :=
  (statusWord_eq_zero_iff _).mpr ⟨rfl, rfl⟩

/-! ### `CTX` (R31) -/

theorem ctxWord_alg (s : State) : (ctxWord s).extractLsb' 0 2 = algCode s.alg := BitVec.extractLsb'_append_eq_right

theorem ctxWord_mode (s : State) : (ctxWord s).extractLsb' 2 3 = modeCode s.mode := by
  rw [ctxWord, BitVec.extractLsb'_append_eq_of_le (by decide)]
  exact BitVec.extractLsb'_append_eq_right

theorem ctxWord_flags (s : State) :
    (ctxWord s).getLsbD 5 = s.ekValid ∧ (ctxWord s).getLsbD 6 = s.dkValid ∧ (ctxWord s).getLsbD 7 = s.msValid ∧
    (ctxWord s).getLsbD 8 = s.ivValid := by
  simp only [ctxWord, BitVec.getLsbD_append, BitVec.getLsbD_ofBool]
  simp

theorem ctxWord_reserved (s : State) : (ctxWord s).extractLsb' 9 23 = 0 := by
  unfold ctxWord
  iterate 6 rw [BitVec.extractLsb'_append_eq_of_le (by decide)]
  decide

theorem ctxWord_resetOn (p : Platform) : ctxWord (State.resetOn p) = 0 := by
  simp only [ctxWord, resetOn_ivValid, resetOn_msValid, resetOn_dkValid, resetOn_ekValid, resetOn_mode, resetOn_alg]
  decide

/-! ### The register map (R33) -/

theorem regOf_ek (i : Fin 15) : regOf (BitVec.ofNat 8 (0x10 + i.val)) = .ek i := by
  revert i; decide

theorem regOf_dk (i : Fin 15) : regOf (BitVec.ofNat 8 (0x20 + i.val)) = .dk i := by
  revert i; decide

/-- The numbers above the last round key of `DK` are reserved. -/
theorem regOf_above {n : BitVec 8} (h : 0x2F ≤ n.toNat) : regOf n = .reserved := by
  unfold regOf
  split
  case h_14 => rw [dif_neg (by omega), dif_neg (by omega)]
  all_goals omega

theorem regOf_reserved {n : BitVec 8} (h : n = 0x03 ∨ n = 0x0E ∨ n = 0x0F ∨ n = 0x1F ∨ 0x2F ≤ n.toNat) :
    regOf n = .reserved := by
  obtain rfl | rfl | rfl | rfl | h := h
  · rfl
  · rfl
  · rfl
  · rfl
  · exact regOf_above h

/-- R34: a host write to the register does nothing, because it is read-only or the number is reserved. -/
def Reg.ignoresWrite : Reg → Bool
  | .status => true
  | .ctx => true
  | .chain => true
  | .dout => true
  | .ek _ => true
  | .dk _ => true
  | .reserved => true
  | .cmd => false
  | .keyLo => false
  | .keyHi => false
  | .iv => false
  | .din => false
  | .srcAddr => false
  | .srcLen => false
  | .dstAddr => false
  | .dstLen => false

/-- From 0x10 up there are only round keys and reserved numbers. -/
theorem regOf_ignoresWrite_of_ge {n : BitVec 8} (h : 0x10 ≤ n.toNat) : (regOf n).ignoresWrite = true := by
  unfold regOf
  split
  case h_14 => split <;> [rfl; split <;> rfl]
  all_goals omega

theorem regOf_ignoresWrite {n : BitVec 8}
    (h : n ∈ [0x01#8, 0x02#8, 0x03#8, 0x07#8, 0x09#8, 0x0E#8, 0x0F#8] ∨ 0x10 ≤ n.toNat) :
    (regOf n).ignoresWrite = true := by
  obtain h | h := h
  · revert n; decide
  · exact regOf_ignoresWrite_of_ge h

/-! ### The register port (R34) -/

theorem hostWrite_of_ne_cmd {n : BitVec 8} (h : regOf n ≠ .cmd) (v : Nat) (s : State) :
    hostWrite n v s = .next (writeRegister (regOf n) v s) := if_neg h

/-- A block written to an operand register is stored whole. -/
theorem writeRegister_block (x : Block128) (s : State) :
    writeRegister .keyLo x.toNat s = { s with keyLo := x } ∧ writeRegister .keyHi x.toNat s = { s with keyHi := x } ∧
    writeRegister .iv x.toNat s = { s with iv := x } ∧ writeRegister .din x.toNat s = { s with din := x } := by
  simp [writeRegister]

/-- A number of `AW` bits written to a descriptor register is stored whole. -/
theorem writeRegister_descriptor {v : Nat} {s : State} (hv : v < 2 ^ s.platform.aw) :
    writeRegister .srcAddr v s = { s with srcAddr := v } ∧ writeRegister .srcLen v s = { s with srcLen := v } ∧
    writeRegister .dstAddr v s = { s with dstAddr := v } ∧ writeRegister .dstLen v s = { s with dstLen := v } := by
  simp [writeRegister, Nat.mod_eq_of_lt hv]

theorem writeRegister_ignored {r : Reg} (h : r.ignoresWrite = true) (v : Nat) (s : State) : writeRegister r v s = s := by
  cases r with
  | status | ctx | chain | dout | ek _ | dk _ | reserved => rfl
  | cmd | keyLo | keyHi | iv | din | srcAddr | srcLen | dstAddr | dstLen => cases h

theorem hostWrite_ignored {n : BitVec 8} (h : (regOf n).ignoresWrite = true) (v : Nat) (s : State) :
    hostWrite n v s = .next s := by
  have hc : regOf n ≠ .cmd := by
    intro hc
    rw [hc] at h
    cases h
  rw [hostWrite_of_ne_cmd hc, writeRegister_ignored h]

theorem hostWrite_cmd (w : CmdWord) (s : State) : hostWrite 0x00 w.toNat s = issueCommand w s := by
  rw [hostWrite, if_pos (by decide), BitVec.ofNat_toNat, BitVec.setWidth_eq]

/-- A register's value fits its width (R33). -/
theorem readRegister_lt {s : State} (h : descriptorsFit s) (r : Reg) :
    readRegister r s < 2 ^ regWidth s.platform r := by
  obtain ⟨hsa, hsl, hda, hdl⟩ := h
  cases r with
  | cmd => exact Nat.two_pow_pos _
  | status => exact (statusWord s).isLt
  | ctx => exact (ctxWord s).isLt
  | keyLo => exact s.keyLo.isLt
  | keyHi => exact s.keyHi.isLt
  | iv => exact s.iv.isLt
  | chain => exact s.chain.isLt
  | din => exact s.din.isLt
  | dout => exact s.dout.isLt
  | srcAddr => exact hsa
  | srcLen => exact hsl
  | dstAddr => exact hda
  | dstLen => exact hdl
  | ek i => exact (s.ek[i.val]).isLt
  | dk i => exact (s.dk[i.val]).isLt
  | reserved => exact Nat.two_pow_pos _

/-- After reset every register reads 0 (R35). -/
theorem readRegister_resetOn (r : Reg) (p : Platform) : readRegister r (State.resetOn p) = 0 := by
  cases r with
  | status => exact congrArg BitVec.toNat (statusWord_resetOn p)
  | ctx => exact congrArg BitVec.toNat (ctxWord_resetOn p)
  | ek i => simp [readRegister]
  | dk i => simp [readRegister]
  | _ => rfl

theorem readRegister_resetEngine (r : Reg) (s : State) : readRegister r (resetEngine s) = 0 := by
  rw [← readRegister_resetOn r s.platform]
  cases r <;> rfl

end Sys2Proof.Machine
end

section
/-! SUPPORT. The round keys a command writes, read back as the sequence they were written from, and the mode a code names. -/

namespace Sys2Proof.Machine

/-- The entries 0 to `Nr` that `KEXP` and `INIT` write to `EK` are the expanded key. -/
@[simp] theorem fileKeys_expand (a : Alg) (key : List Byte) :
    fileKeys (nr a) (keyFile (nr a) (expand a key)) = expand a key :=
  fileKeys_keyFile _ _ (nr_le a) (expand_length a key)

/-- The entries 0 to `Nr` that a command writes to `DK` are the inverted schedule. -/
@[simp] theorem fileKeys_invert {a : Alg} {ek : List Block128} (h : ek.length = nr a + 1) :
    fileKeys (nr a) (keyFile (nr a) (invert ek)) = invert ek :=
  fileKeys_keyFile _ _ (nr_le a) ((invert_length ek).trans h)

theorem modeCode_of_modeOf {c : BitVec 3} {m : Mode} (h : modeOf c = some m) : modeCode m = c := by
  obtain ⟨m', rfl⟩ | hn := modeCode_cases c
  · rw [modeOf_modeCode, Option.some.injEq] at h
    rw [h]
  · rw [hn] at h
    cases h

end Sys2Proof.Machine
end

section
/-! CERTIFICATE. The statements about the registers, the flags and the reset (spec/10_state.md). -/

namespace Sys2Proof.Certificates

open Sys2Proof.Machine

/-- Settles O7, register number by register number. -/
theorem hostPortFollowsRegisterMap : Obligations.HostPortFollowsRegisterMap := by
  unfold Obligations.HostPortFollowsRegisterMap
  refine ⟨fun s n => rfl, fun s => ?reads, fun s x => ?blocks, fun s v hv => ?descriptors,
    fun s n v hn => hostWrite_ignored (regOf_ignoresWrite hn) v s, fun s w => hostWrite_cmd w s,
    fun s n hs => readRegister_lt hs (regOf n)⟩
  case reads =>
    refine ⟨rfl, rfl, rfl, rfl, rfl, rfl, rfl, rfl, rfl, rfl, rfl, rfl, rfl, fun i => ?_, fun i => ?_, fun n hn => ?_⟩
    · rw [hostRead_hostData, regOf_ek, readRegister]
    · rw [hostRead_hostData, regOf_dk, readRegister]
    · rw [hostRead_hostData, regOf_reserved hn, readRegister]
  case blocks =>
    obtain ⟨hlo, hhi, hiv, hdin⟩ := writeRegister_block x s
    exact ⟨congrArg _ hlo, congrArg _ hhi, congrArg _ hiv, congrArg _ hdin⟩
  case descriptors =>
    obtain ⟨hsa, hsl, hda, hdl⟩ := writeRegister_descriptor hv
    exact ⟨congrArg _ hsa, congrArg _ hsl, congrArg _ hda, congrArg _ hdl⟩

/-- Settles O8: a command's outcome does not depend on the `STATUS` it finds, and no outcome is a stop. -/
theorem statusHoldsLatestOutcome : Obligations.StatusHoldsLatestOutcome := by
  unfold Obligations.StatusHoldsLatestOutcome
  refine ⟨fun s => ⟨statusWord_code s, statusWord_arg s, statusWord_reserved s, statusWord_busy s⟩, statusWord_resetOn _,
    fun w s c a => issueCommand_withStatus w c a s, fun w s => ?ends, fun s => ⟨?iv, ?src⟩,
    fun s v => hostWrite_ignored rfl v s, fun s t n v hn h => ?frame, fun s n => rfl⟩
  case ends =>
    obtain ⟨t, h, harg⟩ := issueCommand_next w s
    refine ⟨t, h, harg, ?_⟩
    rw [statusWord_eq_zero_iff]
    have hnone : t.statusCode = .success → t.statusArg = .none := by
      intro hc
      by_contra ha
      exact absurd (hc.symm.trans (harg.mp ha)) (by decide)
    exact ⟨fun hc => ⟨hc, hnone hc⟩, And.left⟩
  case iv => rw [statusWord_withStatus]; decide
  case src => rw [statusWord_withStatus]; decide
  case frame =>
    rw [hostWrite_of_ne_cmd hn, writeRegister_frame] at h
    cases h
    exact ⟨rfl, rfl⟩

/-- Settles O9: of the five other commands, `KINV` writes only `DK` and its flag, and the block and buffer commands no tag. -/
theorem ctxShowsTagsAndFlags : Obligations.CtxShowsTagsAndFlags := by
  unfold Obligations.CtxShowsTagsAndFlags
  refine ⟨fun s => ⟨ctxWord_alg s, ctxWord_mode s, ?flags⟩, ctxWord_resetOn _, fun s v => hostWrite_ignored rfl v s,
    fun i s t h hne => ?tags⟩
  case flags =>
    obtain ⟨hek, hdk, hms, hiv⟩ := ctxWord_flags s
    exact ⟨hek, hdk, hms, hiv, ctxWord_reserved s⟩
  case tags =>
    have changed {P : Prop} (hkept : t.alg = s.alg ∧ t.mode = s.mode) : P :=
      hne.elim (absurd hkept.1) (absurd hkept.2)
    cases i with
    | kexp a => exact .inl ⟨a, rfl⟩
    | kinv => exact changed (kinv_tags h)
    | mstart m v => exact .inr (.inl ⟨m, v, rfl⟩)
    | init a m v => exact .inr (.inr (.inl ⟨a, m, v, rfl⟩))
    | clear => exact .inr (.inr (.inr rfl))
    | encb => exact changed (sessionCommand_tags (.inl rfl) h)
    | decb => exact changed (sessionCommand_tags (.inr (.inl rfl)) h)
    | encbuf => exact changed (sessionCommand_tags (.inr (.inr (.inl rfl))) h)
    | decbuf => exact changed (sessionCommand_tags (.inr (.inr (.inr rfl))) h)

/-- Settles O48, command by command. -/
theorem flagsAreSetAndClearedByCommands : Obligations.FlagsAreSetAndClearedByCommands := by
  unfold Obligations.FlagsAreSetAndClearedByCommands
  refine ⟨fun i s t h hf => exec_failure_flags h hf, fun alg s t h hok => ?kexp, fun s t h hok => ?kinv,
    fun mode v s t h hok => ?mstart, fun alg mode v s t h hok => ?init,
    fun s => ⟨_, execClear_eq_reset s, rfl, rfl, rfl, rfl⟩, fun i s t hi h => sessionCommand_flags hi h,
    fun s => ⟨rfl, rfl, rfl, rfl⟩⟩
  case kexp =>
    obtain ⟨-, h'⟩ | ⟨a, -, h'⟩ := execKexp_cases alg s
    · cases h'.symm.trans h; cases hok
    · cases h'.symm.trans h
      simp [State.expandKey]
  case kinv =>
    obtain ⟨-, h'⟩ | ⟨-, h'⟩ := execKinv_cases s
    · cases h'.symm.trans h; cases hok
    · cases h'.symm.trans h
      simp [fileKeys_length]
  case mstart =>
    obtain ⟨-, h'⟩ | ⟨m, hm, ⟨-, h'⟩ | ⟨-, -, -, h'⟩ | ⟨hek, -, h'⟩⟩ := execMstart_cases mode v s
    · cases h'.symm.trans h; cases hok
    · cases h'.symm.trans h; cases hok
    · cases h'.symm.trans h; cases hok
    · cases h'.symm.trans h
      simp [hek, modeCode_of_modeOf hm]
  case init =>
    obtain ⟨-, h'⟩ | ⟨a, m, -, hm, ⟨-, -, h'⟩ | ⟨-, h'⟩⟩ := execInit_cases alg mode v s
    · cases h'.symm.trans h; cases hok
    · cases h'.symm.trans h; cases hok
    · cases h'.symm.trans h
      simp [State.expandKey, modeCode_of_modeOf hm]

/-- Settles O10: `Reset` and `CLEAR` reach the same state, whose every register reads 0. -/
theorem resetZeroesEngine : Obligations.ResetZeroesEngine := by
  unfold Obligations.ResetZeroesEngine
  refine ⟨fun s => ⟨resetEngine s, rfl, rfl, rfl, rfl, rfl, rfl, rfl, fun i => ?keys, rfl, rfl, rfl, rfl, rfl, rfl,
    statusWord_resetOn s.platform, ctxWord_resetOn s.platform, rfl, rfl, rfl, rfl, rfl, rfl,
    fun n => readRegister_resetEngine (regOf n) s, execClear_eq_reset s⟩, fun p n => readRegister_resetOn (regOf n) p⟩
  case keys => exact ⟨zeroFile_getElem i.isLt, zeroFile_getElem i.isLt⟩

end Sys2Proof.Certificates
end

section
/-! SUPPORT. What the byte vectors of the buffer memory hold after a store, what the range check of R72 says address by
address, and the last test of the buffer commands before their real run. -/

namespace Sys2Proof.Machine

/-! ### Bytes after a store -/

/-- Storing a byte vector puts byte `j` at `addr + j`. -/
theorem memWrite_read_inside {m : Memory} (addr : Nat) (v : List Byte) (h : Memory.wf m = true) {j : Nat}
    (hj : j < v.length) : Memory.read (memWrite m addr v) (addr + j) = v.getD j 0 := by
  induction v generalizing m addr j with
  | nil => cases hj
  | cons b v ih =>
    have hw := Memory.wf_write addr b h
    cases j with
    | zero =>
      rw [Nat.add_zero, memWrite, memWrite_read_outside _ v hw (by omega), Memory.read_write h, if_pos rfl,
        List.getD_cons_zero]
    | succ j =>
      have hv : j < v.length := Nat.lt_of_succ_lt_succ hj
      rw [memWrite, List.getD_cons_succ, ← ih (addr + 1) hw hv, Nat.add_right_comm, Nat.add_assoc]

theorem memWrite_read {m : Memory} (addr : Nat) (v : List Byte) (h : Memory.wf m = true) (a : Nat) :
    Memory.read (memWrite m addr v) a = storedByte m addr v a := by
  rw [storedByte]
  split
  case isTrue ha =>
    obtain ⟨j, rfl⟩ := Nat.exists_eq_add_of_le ha.1
    rw [memWrite_read_inside addr v h (by omega), Nat.add_sub_cancel_left]
  case isFalse ha => exact memWrite_read_outside addr v h ha

/-! ### The range check -/

theorem rangeAccessible_iff (p : Platform) (addr n : Nat) :
    rangeAccessible p addr n = true ↔ ∀ x, addr ≤ x ∧ x < addr + n → accessible p x = true := by
  simp only [rangeAccessible, List.all_eq_true, List.mem_range]
  constructor
  · rintro h x ⟨hlo, hhi⟩
    obtain ⟨j, rfl⟩ := Nat.exists_eq_add_of_le hlo
    exact h j (by omega)
  · exact fun h j hj => h (addr + j) (by omega)

/-- Two ranges that are not empty and neither of which ends below the other share the higher of their two first addresses. -/
theorem rangesDisjoint_iff (a n b m : Nat) :
    rangesDisjoint a n b m = true ↔ ∀ x, ¬ ((a ≤ x ∧ x < a + n) ∧ (b ≤ x ∧ x < b + m)) := by
  rw [rangesDisjoint, decide_eq_true_eq]
  constructor
  · intro h x
    omega
  · intro h
    have hmax := h (max a b)
    omega

/-- The three conditions of R72. A source address below `2^AW` makes the exception for an empty source redundant. -/
theorem rangeOk_iff {p : Platform} {src : Nat} (n dst req : Nat) (hsrc : src < 2 ^ p.aw) :
    rangeOk p src n dst req = true ↔
      (src + n ≤ 2 ^ p.aw ∧ dst + req ≤ 2 ^ p.aw) ∧
      (∀ x, (src ≤ x ∧ x < src + n) ∨ (dst ≤ x ∧ x < dst + req) → accessible p x = true) ∧
      ((∀ x, ¬ ((src ≤ x ∧ x < src + n) ∧ (dst ≤ x ∧ x < dst + req))) ∨ dst = src) := by
  have hwrap : (n = 0 ∨ src + n ≤ 2 ^ p.aw) ↔ src + n ≤ 2 ^ p.aw := by omega
  simp only [rangeOk, Bool.and_eq_true, Bool.or_eq_true, decide_eq_true_eq, rangeAccessible_iff, rangesDisjoint_iff, hwrap,
    or_imp, forall_and, and_assoc]

/-! ### The last test before a real run -/

theorem needsDk_iff (m : Mode) : needsDk m = true ↔ m = .ecb ∨ m = .cbc := by
  cases m <;> decide

/-- `ENCBUF` with every test before the range check passed (R270). -/
theorem execEncbuf_of_capacity {s : State} (hms : s.msValid = true) (hreq : encReq s.srcLen < 2 ^ s.platform.aw)
    (hdst : s.dstAddr ≠ 0) (hsrc : s.srcAddr = 0 → s.srcLen = 0) (hcap : encReq s.srcLen ≤ s.dstLen) :
    execEncbuf s =
      if rangeOk s.platform s.srcAddr s.srcLen s.dstAddr (encReq s.srcLen) = false then failWith .addrRange .none s
      else encRun s := by
  have hnull : ¬ (s.srcAddr = 0 ∧ 0 < s.srcLen) := by omega
  rw [execEncbuf, if_neg (by simp [hms]), if_neg hreq.not_ge, if_neg hdst, if_neg hnull, if_neg hcap.not_gt]

/-- `DECBUF` with every test before the range check passed (R275). -/
theorem execDecbuf_of_capacity {s : State} (hms : s.msValid = true) (hdk : needsDk s.mode = true → s.dkValid = true)
    (hlen : s.srcLen ≠ 0) (hmod : s.srcLen % 16 = 0) (hdst : s.dstAddr ≠ 0) (hsrc : s.srcAddr ≠ 0)
    (hcap : s.srcLen ≤ s.dstLen) :
    execDecbuf s =
      if rangeOk s.platform s.srcAddr s.srcLen s.dstAddr s.srcLen = false then failWith .addrRange .none s
      else decRun s := by
  have hready : ¬ (needsDk s.mode = true ∧ s.dkValid = false) := fun h => by simp [hdk h.1] at h
  have hwhole : ¬ (s.srcLen = 0 ∨ s.srcLen % 16 ≠ 0) := by omega
  rw [execDecbuf, if_neg (by simp [hms]), if_neg hready, if_neg hwhole, if_neg hdst, if_neg hsrc, if_neg hcap.not_gt]

end Sys2Proof.Machine
end

section
/-! CERTIFICATE. The statements about the buffer memory (spec/20_memory.md). -/

namespace Sys2Proof.Certificates

open Sys2Proof.Machine

/-- Settles O37: the failure is the last test of R270 and of R275. -/
theorem rangeCheckGuardsRealRuns : Obligations.RangeCheckGuardsRealRuns := by
  unfold Obligations.RangeCheckGuardsRealRuns
  refine ⟨fun p src n dst req hsrc => rangeOk_iff n dst req hsrc, fun s hms hreq hdst hsrc hcap hrange => ?encbuf,
    fun s hms hdk hlen hmod hdst hsrc hcap hrange => ?decbuf⟩
  case encbuf => rw [exec_encbuf, execEncbuf_of_capacity hms hreq hdst hsrc hcap, if_pos hrange, failWith_eq, withStatus]
  case decbuf =>
    have hdk' : needsDk s.mode = true → s.dkValid = true := fun h => hdk ((needsDk_iff _).mp h)
    rw [exec_decbuf, execDecbuf_of_capacity hms hdk' hlen hmod hdst hsrc hcap, if_pos hrange, failWith_eq, withStatus]

/-- Settles O13: a store lays the byte vector over the old memory, an empty one over no address. -/
theorem memReadAndMemWrite : Obligations.MemReadAndMemWrite := by
  unfold Obligations.MemReadAndMemWrite
  exact ⟨fun m addr n => ⟨memRead_length m addr n, fun j hj => memRead_getD m addr hj⟩,
    fun m addr v hm a => memWrite_read addr v hm a, fun m addr => ⟨memWrite_nil m addr, rfl⟩⟩

/-- Settles O12: a block is stored and loaded as the vector of its sixteen bytes. -/
theorem blocksLoadAndStoreInByteOrder : Obligations.BlocksLoadAndStoreInByteOrder := by
  unfold Obligations.BlocksLoadAndStoreInByteOrder
  refine ⟨fun m a i hi => ?load, fun m a x hm c => ?store, fun x => ?order⟩
  case load => rw [blockByte_blockOfBytes _ (memRead_length m a 16).le, memRead_getD m a hi]
  case store =>
    rw [memWrite_read a _ hm, storedByte, blockBytes_length]
    split
    case isTrue hc => exact blockBytes_getD x (by omega)
    case isFalse => rfl
  case order =>
    have hx : x.toNat < 2 ^ 128 := x.isLt
    constructor
    · rw [blockByte_toNat, pow_zero, Nat.div_one]
    · rw [blockByte_toNat]
      omega

end Sys2Proof.Certificates
end

section
/-! SUPPORT. What the tests of R92 say of a word, field by field: they are the decoder's own tests and the mask of the word's
row in R95. The commands whose tag has no table entry. -/

namespace Sys2Proof.Machine

/-! ### The opcode map (R94) -/

theorem opcodeOf_eq_some_iff {b : BitVec 8} {op : Opcode} : opcodeOf b = some op ↔ b = opcodeBits op := by
  constructor
  · intro h
    unfold opcodeOf at h
    split at h <;> cases h <;> exact BitVec.eq_of_toNat_eq ‹_›
  · rintro rfl
    cases op <;> rfl

theorem opcodeBits_injective {op op' : Opcode} (h : opcodeBits op = opcodeBits op') : op = op' :=
  Option.some.inj ((opcodeOf_eq_some_iff.mpr rfl).symm.trans (opcodeOf_eq_some_iff.mpr h))

theorem opcodeBits_range (op : Opcode) : opcodeBits op ≠ 0 ∧ (opcodeBits op).toNat ≤ 9 := by
  cases op <;> decide

/-- Only `KEXP` and `INIT` use `ALG`. -/
theorem usesAlg_eq_false {op : Opcode} (hkexp : opcodeBits op ≠ 0x01) (hinit : opcodeBits op ≠ 0x08) :
    usesAlg op = false := by
  cases op with
  | kexp => exact absurd rfl hkexp
  | init => exact absurd rfl hinit
  | _ => rfl

/-- Only `MSTART` and `INIT` use `MODE` and `IVP`. -/
theorem usesMode_usesIvp_eq_false {op : Opcode} (hmstart : opcodeBits op ≠ 0x03) (hinit : opcodeBits op ≠ 0x08) :
    usesMode op = false ∧ usesIvp op = false := by
  cases op with
  | mstart => exact absurd rfl hmstart
  | init => exact absurd rfl hinit
  | _ => exact ⟨rfl, rfl⟩

/-- The row of R94 an instruction belongs to. -/
def rowOf : Instr → Opcode
  | .kexp _ => .kexp
  | .kinv => .kinv
  | .mstart _ _ => .mstart
  | .encb => .encb
  | .decb => .decb
  | .encbuf => .encbuf
  | .decbuf => .decbuf
  | .init _ _ _ => .init
  | .clear => .clear

@[simp] theorem rowOf_instrOf (op : Opcode) (alg : BitVec 2) (mode : BitVec 3) (ivp : Bool) :
    rowOf (instrOf op alg mode ivp) = op := by
  cases op <;> rfl

/-! ### The tests of R92 -/

/-- The word passes every test of R92 for the row `op`: it has the row's opcode, and its reserved bits and the fields the row
does not use are 0. -/
structure Selects (w : CmdWord) (op : Opcode) : Prop where
  opcode : cmdOp w = opcodeBits op
  reserved : cmdReserved w = 0
  alg : usesAlg op = false → cmdAlg w = 0
  mode : usesMode op = false → cmdMode w = 0
  ivp : usesIvp op = false → cmdIvp w = false

theorem Selects.unique {w : CmdWord} {op op' : Opcode} (h : Selects w op) (h' : Selects w op') : op = op' :=
  opcodeBits_injective (h.opcode.symm.trans h'.opcode)

theorem decode_of_selects {w : CmdWord} {op : Opcode} (h : Selects w op) :
    decode w = .ok (instrOf op (cmdAlg w) (cmdMode w) (cmdIvp w)) := by
  simp only [decode, opcodeOf_eq_some_iff.mpr h.opcode]
  rw [if_neg (not_not_intro h.reserved), if_neg (fun hu => hu.2 (h.alg hu.1)), if_neg (fun hu => hu.2 (h.mode hu.1)),
    if_neg (fun hu => hu.2 (h.ivp hu.1))]

/-- A word decodes to an instruction exactly when it selects a row and the instruction is that row's with the word's fields. -/
theorem decode_eq_ok_iff {w : CmdWord} {i : Instr} :
    decode w = .ok i ↔ ∃ op, Selects w op ∧ instrOf op (cmdAlg w) (cmdMode w) (cmdIvp w) = i := by
  constructor
  · intro h
    unfold decode at h
    split at h
    · cases h
    case h_2 op hop =>
      split_ifs at h with hr ha hm hv
      cases h
      exact ⟨op, ⟨opcodeOf_eq_some_iff.mp hop, not_not.mp hr, fun hu => not_not.mp fun hne => ha ⟨hu, hne⟩,
        fun hu => not_not.mp fun hne => hm ⟨hu, hne⟩, fun hu => not_not.mp fun hne => hv ⟨hu, hne⟩⟩, rfl⟩
  · rintro ⟨op, h, rfl⟩
    exact decode_of_selects h

theorem decode_eq_instrOf_iff {w : CmdWord} {op : Opcode} :
    decode w = .ok (instrOf op (cmdAlg w) (cmdMode w) (cmdIvp w)) ↔ Selects w op := by
  refine ⟨fun h => ?_, decode_of_selects⟩
  obtain ⟨op', h', hi⟩ := decode_eq_ok_iff.mp h
  have hop : op' = op := by simpa using congrArg rowOf hi
  exact hop ▸ h'

/-! ### The masks of R95 -/

/-- A mask that keeps a field the row does not use and drops one it uses. -/
def fieldMask (n : Nat) (used : Bool) : BitVec n := if used then 0 else BitVec.allOnes n

theorem and_fieldMask_eq_zero_iff {n : Nat} (x : BitVec n) (used : Bool) :
    x &&& fieldMask n used = 0 ↔ (used = false → x = 0) := by
  cases used <;> simp [fieldMask]

/-- The mask of a row of R95: the opcode, the reserved bits and the fields the row does not use. -/
def rowMask (op : Opcode) : CmdWord :=
  BitVec.allOnes 18 ++ fieldMask 1 (usesIvp op) ++ fieldMask 3 (usesMode op) ++ fieldMask 2 (usesAlg op) ++
    BitVec.allOnes 8

/-- Each row of R95 has the match that is its opcode alone and the mask of the bits it does not use. -/
theorem commandTable_row {r : Opcode × CmdWord × CmdWord} (h : r ∈ commandTable) :
    r = (r.1, fieldsWord r.1 0 0 false, rowMask r.1) := by
  revert r; decide

theorem row_mem_commandTable (op : Opcode) : (op, fieldsWord op 0 0 false, rowMask op) ∈ commandTable := by
  cases op <;> decide

theorem append_and_append_eq_iff {n m : Nat} {x p x' : BitVec n} {y q y' : BitVec m} :
    (x ++ y) &&& (p ++ q) = x' ++ y' ↔ x &&& p = x' ∧ y &&& q = y' := by
  rw [BitVec.and_append]
  constructor
  · intro h
    have hy : y &&& q = y' := by
      simpa only [BitVec.extractLsb'_append_eq_right] using congrArg (BitVec.extractLsb' 0 m) h
    exact ⟨(BitVec.append_left_inj y').mp (hy ▸ h), hy⟩
  · rintro ⟨rfl, rfl⟩
    rfl

/-- A command word is its five fields (R91). -/
theorem fields_append (w : CmdWord) :
    cmdReserved w ++ BitVec.ofBool (cmdIvp w) ++ cmdMode w ++ cmdAlg w ++ cmdOp w = w := by
  have hivp : BitVec.ofBool (cmdIvp w) = w.extractLsb' 13 1 := by
    ext i hi
    obtain rfl : i = 0 := by omega
    simp [cmdIvp]
  rw [hivp, cmdReserved, cmdMode, cmdAlg, cmdOp,
    BitVec.extractLsb'_append_extractLsb'_eq_extractLsb' (show 14 = 13 + 1 from rfl),
    BitVec.extractLsb'_append_extractLsb'_eq_extractLsb' (show 13 = 10 + 3 from rfl),
    BitVec.extractLsb'_append_extractLsb'_eq_extractLsb' (show 10 = 8 + 2 from rfl),
    BitVec.extractLsb'_append_extractLsb'_eq_extractLsb' (show 8 = 0 + 8 from rfl)]
  exact BitVec.extractLsb'_eq_self

theorem ofBool_eq_zero_iff (b : Bool) : BitVec.ofBool b = 0 ↔ b = false := by
  cases b <;> decide

/-- The mask and the match of R95 compare the word field by field (R91). -/
theorem and_rowMask_eq_iff_fields (w : CmdWord) (op : Opcode) :
    w &&& rowMask op = fieldsWord op 0 0 false ↔
      (((cmdReserved w &&& BitVec.allOnes 18 = 0 ∧ BitVec.ofBool (cmdIvp w) &&& fieldMask 1 (usesIvp op) = 0) ∧
        cmdMode w &&& fieldMask 3 (usesMode op) = 0) ∧ cmdAlg w &&& fieldMask 2 (usesAlg op) = 0) ∧
      cmdOp w &&& BitVec.allOnes 8 = opcodeBits op := by
  conv_lhs => rw [← fields_append w]
  exact append_and_append_eq_iff.trans (and_congr_left' (append_and_append_eq_iff.trans (and_congr_left'
    (append_and_append_eq_iff.trans (and_congr_left' append_and_append_eq_iff)))))

/-- The mask and the match of R95 say what the tests of R92 say. -/
theorem and_rowMask_eq_iff (w : CmdWord) (op : Opcode) :
    w &&& rowMask op = fieldsWord op 0 0 false ↔ Selects w op := by
  rw [and_rowMask_eq_iff_fields]
  simp only [BitVec.and_allOnes, and_fieldMask_eq_zero_iff, ofBool_eq_zero_iff]
  constructor
  · rintro ⟨⟨⟨⟨hr, hv⟩, hm⟩, ha⟩, ho⟩
    exact ⟨ho, hr, ha, hm, hv⟩
  · rintro ⟨ho, hr, ha, hm, hv⟩
    exact ⟨⟨⟨⟨hr, hv⟩, hm⟩, ha⟩, ho⟩

theorem row_match_iff {r : Opcode × CmdWord × CmdWord} (hr : r ∈ commandTable) (w : CmdWord) :
    w &&& r.2.2 = r.2.1 ↔ Selects w r.1 := by
  rw [commandTable_row hr]
  exact and_rowMask_eq_iff w r.1

/-! ### Words that name no performed operation (R96) -/

/-- A word that selects no row ends with `ILLEGAL_COMMAND` and changes nothing else. -/
theorem issueCommand_of_not_selects {w : CmdWord} (h : ∀ op, ¬ Selects w op) (s : State) :
    issueCommand w s = .next (withStatus .illegalCommand .none s) := by
  unfold issueCommand
  cases hd : decode w with
  | error e => rfl
  | ok i =>
    obtain ⟨op, hs, -⟩ := decode_eq_ok_iff.mp hd
    exact absurd hs (h op)

theorem issueCommand_of_decode {w : CmdWord} {i : Instr} (h : decode w = .ok i) (s : State) :
    issueCommand w s = exec i s := by
  rw [issueCommand, h]

theorem algImplemented_of_algOf {c : BitVec 2} {a : Alg} (h : algOf c = some a) : algImplemented c = true := by
  obtain ⟨a', rfl⟩ | rfl := algCode_cases c
  · cases a' <;> rfl
  · cases h

theorem modeImplemented_of_modeOf {c : BitVec 3} {m : Mode} (h : modeOf c = some m) : modeImplemented c = true := by
  rw [← modeCode_of_modeOf h]
  cases m <;> rfl

/-- A command with a tag that has no table entry ends with `NOT_IMPLEMENTED`, whatever the state. -/
theorem exec_of_not_wellFormed {i : Instr} (h : i.wellFormed = false) (s : State) :
    exec i s = .next (withStatus .notImplemented .none s) := by
  cases i with
  | kexp alg =>
    obtain ⟨-, hx⟩ | ⟨a, ha, -⟩ := execKexp_cases alg s
    · exact hx
    · rw [Instr.wellFormed, algImplemented_of_algOf ha] at h
      cases h
  | mstart mode v =>
    obtain ⟨-, hx⟩ | ⟨m, hm, -⟩ := execMstart_cases mode v s
    · exact hx
    · rw [Instr.wellFormed, modeImplemented_of_modeOf hm] at h
      cases h
  | init alg mode v =>
    obtain ⟨-, hx⟩ | ⟨a, m, ha, hm, -⟩ := execInit_cases alg mode v s
    · exact hx
    · rw [Instr.wellFormed, algImplemented_of_algOf ha, modeImplemented_of_modeOf hm] at h
      cases h
  | kinv | encb | decb | encbuf | decbuf | clear => cases h

theorem modeImplemented_eq_false {mode : BitVec 3} (h : 5 ≤ mode.toNat) : modeImplemented mode = false :=
  decide_eq_false h.not_gt

end Sys2Proof.Machine
end

section
/-! CERTIFICATE. The statements about the words of the opcode table (spec/30_encoding.md). -/

namespace Sys2Proof.Certificates

open Sys2Proof.Machine

/-- Settles O2: a row's mask and match are the tests of R92, and these fix the opcode. -/
theorem wordsSelectTableRows : Obligations.WordsSelectTableRows := by
  unfold Obligations.WordsSelectTableRows
  refine ⟨fun w r hr => (row_match_iff hr w).trans decode_eq_instrOf_iff.symm, fun w r hr r' hr' hw hw' => ?unique,
    fun w s hnone => ?illegal, fun w i s hd hwf => (issueCommand_of_decode hd s).trans (exec_of_not_wellFormed hwf s)⟩
  case unique =>
    have hop : r.1 = r'.1 := ((row_match_iff hr w).mp hw).unique ((row_match_iff hr' w).mp hw')
    rw [commandTable_row hr, commandTable_row hr', hop]
  case illegal =>
    exact issueCommand_of_not_selects
      (fun op h => hnone _ (row_mem_commandTable op) ((and_rowMask_eq_iff w op).mpr h)) s

/-- Settles O3: a word of the first two classes fails a test of R92 for every row, and the tags of the third have no entry. -/
theorem unperformedWordsFail : Obligations.UnperformedWordsFail := by
  unfold Obligations.UnperformedWordsFail
  refine ⟨fun w s hop => issueCommand_of_not_selects (fun op h => ?opcode) s,
    fun w s hlo hhi hfield => issueCommand_of_not_selects (fun op h => ?field) s,
    fun s => exec_of_not_wellFormed rfl s, fun mode v s hm => ?mode,
    fun alg mode v s htag => exec_of_not_wellFormed ?tag s⟩
  case opcode =>
    obtain ⟨hne, hle⟩ := opcodeBits_range op
    rw [h.opcode] at hop
    exact hop.elim hne (by omega)
  case field =>
    rw [h.opcode] at hfield
    obtain hr | ⟨hkexp, hinit, ha⟩ | ⟨hmstart, hinit, hmv⟩ := hfield
    · exact hr h.reserved
    · exact ha (h.alg (usesAlg_eq_false hkexp hinit))
    · obtain ⟨hmode, hivp⟩ := usesMode_usesIvp_eq_false hmstart hinit
      exact hmv.elim (· (h.mode hmode)) (by simp [h.ivp hivp])
  case mode => exact exec_of_not_wellFormed (i := .mstart mode v) (modeImplemented_eq_false hm) s
  case tag =>
    obtain rfl | hm := htag
    · rfl
    · rw [Instr.wellFormed, modeImplemented_eq_false hm, Bool.and_false]

end Sys2Proof.Certificates
end

section
/-! SUPPORT. The counter increment (R126 to R128): a block is the number its bytes stand for, adding one carries into byte `i`
exactly when every byte below it is `0xff`, and `ByteSwap` turns `IncBE` into `LaneInc`. -/

namespace Sys2Proof.Machine

/-! ### The value of a block -/

/-- The bytes of a block are the base-256 digits of its value. -/
theorem block_toNat_mod (x : Block128) (k : Nat) :
    x.toNat % 256 ^ k = ∑ i ∈ Finset.range k, (blockByte x i).toNat * 256 ^ i := by
  induction k with
  | zero => rw [pow_zero, Nat.mod_one, Finset.sum_range_zero]
  | succ k ih => rw [Nat.mod_pow_succ, Finset.sum_range_succ, ih, blockByte_toNat, Nat.mul_comm]

theorem block_toNat_eq_sum (x : Block128) :
    x.toNat = ∑ i ∈ Finset.range 16, (blockByte x i).toNat * 256 ^ i := by
  rw [← block_toNat_mod, Nat.mod_eq_of_lt (show x.toNat < 256 ^ 16 from x.isLt)]

/-! ### `ByteSwap` (R126) -/

theorem blockByte_byteSwap (x : Block128) {i : Nat} (h : i < 16) : blockByte (byteSwap x) i = blockByte x (15 - i) :=
  blockByte_blockOf _ h

theorem byteSwap_involutive : Function.Involutive byteSwap := fun x => block_ext fun i hi => by
  rw [blockByte_byteSwap _ hi, blockByte_byteSwap _ (by omega), Nat.sub_sub_self (by omega)]

theorem beValue_eq_sum (x : Block128) :
    beValue x = ∑ i ∈ Finset.range 16, (blockByte x i).toNat * 256 ^ (15 - i) := rfl

/-- The big-endian value is the lane value of the reversed bytes. -/
theorem beValue_eq_toNat_byteSwap (x : Block128) : beValue x = (byteSwap x).toNat := by
  rw [beValue_eq_sum, block_toNat_eq_sum,
    ← Finset.sum_range_reflect (fun i => (blockByte (byteSwap x) i).toNat * 256 ^ i)]
  refine Finset.sum_congr rfl fun i hi => ?_
  have hi : i < 16 := Finset.mem_range.mp hi
  rw [blockByte_byteSwap _ (by omega), show 15 - (16 - 1 - i) = i by omega]

/-! ### `LaneInc` (R127) -/

theorem laneInc_toNat (x : Block128) : (laneInc x).toNat = (x.toNat + 1) % 2 ^ 128 := BitVec.toNat_add x 1

theorem laneInc_bijective : Function.Bijective laneInc := AddGroup.addRight_bijective (1 : Block128)

theorem laneInc_iterate_toNat (n : Nat) (x : Block128) : (laneInc^[n] x).toNat = (x.toNat + n) % 2 ^ 128 := by
  induction n with
  | zero => exact (Nat.mod_eq_of_lt x.isLt).symm
  | succ n ih => rw [Function.iterate_succ_apply', laneInc_toNat, ih, Nat.mod_add_mod, Nat.add_assoc]

theorem laneInc_iterate_eq_self_iff (n : Nat) (x : Block128) : laneInc^[n] x = x ↔ 2 ^ 128 ∣ n := by
  have hx : x.toNat < 2 ^ 128 := x.isLt
  rw [← BitVec.toNat_inj, laneInc_iterate_toNat]
  omega

/-- Adding one carries out of the lowest `i` digits exactly when each of them is 255. -/
theorem pow_dvd_succ_iff (n i : Nat) : 256 ^ i ∣ n + 1 ↔ ∀ k < i, n / 256 ^ k % 256 = 255 := by
  induction i with
  | zero => simp
  | succ i ih =>
    have hstep (h : 256 ^ i ∣ n + 1) : 256 ^ (i + 1) ∣ n + 1 ↔ n / 256 ^ i % 256 = 255 := by
      rw [pow_succ, ← Nat.dvd_div_iff_mul_dvd h, Nat.succ_div_of_dvd h]
      omega
    rw [Nat.forall_lt_succ_right, ← ih]
    exact ⟨fun h => have h' := (pow_dvd_pow 256 i.le_succ).trans h; ⟨h', (hstep h').mp h⟩,
      fun ⟨h', h⟩ => (hstep h').mpr h⟩

/-- Byte `i` after an increment: one more when every byte below it is `0xff`, else what it was. -/
theorem blockByte_laneInc (x : Block128) {i : Nat} (h : i < 16) :
    blockByte (laneInc x) i = blockByte x i + if ∀ k < i, blockByte x k = 0xff then 1 else 0 := by
  have hcarry : (∀ k < i, blockByte x k = 0xff) ↔ 256 ^ i ∣ x.toNat + 1 := by
    simp [pow_dvd_succ_iff, ← BitVec.toNat_inj, blockByte_toNat]
  have hwrap : (x.toNat + 1) % 2 ^ 128 / 256 ^ i % 256 = (x.toNat + 1) / 256 ^ i % 256 := by
    rw [show (2 : Nat) ^ 128 = 256 ^ i * 256 ^ (16 - i) by rw [← pow_add, Nat.add_sub_cancel' h.le]; rfl,
      Nat.mod_mul_right_div_self, Nat.mod_mod_of_dvd _ (dvd_pow_self 256 (by omega))]
  apply BitVec.eq_of_toNat_eq
  simp only [hcarry]
  rw [blockByte_toNat, laneInc_toNat, hwrap, Nat.succ_div, BitVec.toNat_add, blockByte_toNat]
  split <;> simp

/-! ### `IncBE` (R128) -/

theorem incBE_semiconj : Function.Semiconj byteSwap incBE laneInc := fun x => byteSwap_involutive (laneInc (byteSwap x))

theorem incBE_bijective : Function.Bijective incBE :=
  byteSwap_involutive.bijective.comp (laneInc_bijective.comp byteSwap_involutive.bijective)

theorem beValue_incBE (x : Block128) : beValue (incBE x) = (beValue x + 1) % 2 ^ 128 := by
  rw [beValue_eq_toNat_byteSwap, incBE_semiconj, laneInc_toNat, ← beValue_eq_toNat_byteSwap]

theorem incBE_iterate_eq_self_iff (n : Nat) (x : Block128) : incBE^[n] x = x ↔ 2 ^ 128 ∣ n := by
  rw [← byteSwap_involutive.injective.eq_iff, incBE_semiconj.iterate_right n, laneInc_iterate_eq_self_iff]

/-- Byte `i` of the next counter block: one more when every byte after it is `0xff`, else what it was. -/
theorem blockByte_incBE (x : Block128) {i : Nat} (h : i < 16) :
    blockByte (incBE x) i = blockByte x i + if ∀ k < 15 - i, blockByte x (15 - k) = 0xff then 1 else 0 := by
  have hcarry : (∀ k < 15 - i, blockByte (byteSwap x) k = 0xff) ↔ ∀ k < 15 - i, blockByte x (15 - k) = 0xff :=
    forall₂_congr fun k hk => by rw [blockByte_byteSwap _ (by omega)]
  rw [incBE, blockByte_byteSwap _ h, blockByte_laneInc _ (by omega), blockByte_byteSwap _ (by omega),
    Nat.sub_sub_self (by omega)]
  simp only [hcarry]

theorem blockByte_zero (i : Nat) : blockByte 0 i = 0 := BitVec.extractLsb'_zero

/-- All-`0xff` wraps to all-zero. -/
theorem incBE_of_all_ff {x : Block128} (h : ∀ j < 16, blockByte x j = 0xff) : incBE x = 0 :=
  block_ext fun i hi => by
    rw [blockByte_incBE x hi, if_pos fun k _ => h _ (by omega), h i hi, blockByte_zero]
    rfl

/-- The byte algorithm of R128: the last byte that is not `0xff` takes the carry, and the bytes after it become zero. -/
theorem blockByte_incBE_of_last {x : Block128} {j : Nat} (hj : j < 16) (hne : blockByte x j ≠ 0xff)
    (hff : ∀ k, j < k → k < 16 → blockByte x k = 0xff) {i : Nat} (hi : i < 16) :
    blockByte (incBE x) i = if i < j then blockByte x i else if i = j then blockByte x j + 1 else 0 := by
  rw [blockByte_incBE x hi]
  obtain hlt | rfl | hgt := lt_trichotomy i j
  · have hstop : ¬ ∀ k < 15 - i, blockByte x (15 - k) = 0xff := fun h =>
      hne (by simpa [Nat.sub_sub_self (show j ≤ 15 by omega)] using h (15 - j) (by omega))
    rw [if_neg hstop, if_pos hlt, add_zero]
  · rw [if_pos fun k hk => hff _ (by omega) (by omega), if_neg (lt_irrefl i), if_pos rfl]
  · rw [if_pos fun k hk => hff _ (by omega) (by omega), if_neg hgt.not_gt, if_neg hgt.ne', hff i hgt hi]
    rfl

end Sys2Proof.Machine
end

section
/-! CERTIFICATE. The statement about the counter block (spec/40_block_primitives.md). -/

namespace Sys2Proof.Certificates

open Sys2Proof.Machine

/-- Settles O15: `ByteSwap` carries `LaneInc` over to `IncBE`, so the value, the carries and the period are those of the lane. -/
theorem counterIncrementIsBigEndian : Obligations.CounterIncrementIsBigEndian := by
  unfold Obligations.CounterIncrementIsBigEndian
  exact ⟨fun x => ⟨fun _ => blockByte_byteSwap x, byteSwap_involutive x, laneInc_toNat x, rfl, beValue_incBE x,
    incBE_of_all_ff, fun _ hj hne hff _ => blockByte_incBE_of_last hj hne hff, fun n => incBE_iterate_eq_self_iff n x⟩,
    incBE_bijective⟩

end Sys2Proof.Certificates
end

section
/-! SUPPORT. The layers of the cipher (spec/40_block_primitives.md section 5): each inverse layer undoes its layer, the row
shift commutes with the byte substitution, and the inverse column mix is linear over xor. -/

namespace Sys2Proof.Machine

/-! ### The field GF(2^8) (R123) -/

theorem gmulLoop_xor (b b' : Byte) (n k : Nat) (r r' a : Byte) :
    gmulLoop (b ^^^ b') n k (r ^^^ r') a = gmulLoop b n k r a ^^^ gmulLoop b' n k r' a := by
  induction n generalizing k r r' a with
  | zero => rfl
  | succ n ih =>
    have hstep : (if (b ^^^ b').getLsbD k then r ^^^ r' ^^^ a else r ^^^ r') =
        (if b.getLsbD k then r ^^^ a else r) ^^^ (if b'.getLsbD k then r' ^^^ a else r') := by
      rw [BitVec.getLsbD_xor]
      cases b.getLsbD k <;> cases b'.getLsbD k
      case false.false => rfl
      case false.true => exact BitVec.xor_assoc r r' a
      case true.false =>
        change r ^^^ r' ^^^ a = r ^^^ a ^^^ r'
        ac_rfl
      case true.true =>
        calc r ^^^ r'
          _ = r ^^^ r' ^^^ (a ^^^ a) := by rw [BitVec.xor_self, BitVec.xor_zero]
          _ = r ^^^ a ^^^ (r' ^^^ a) := by ac_rfl
    rw [gmulLoop, hstep, ih]
    rfl

/-- `GMul` is additive in the operand whose bits it reads. -/
theorem gmul_xor (c a b : Byte) : gmul c (a ^^^ b) = gmul c a ^^^ gmul c b := gmulLoop_xor a b 8 0 0 0 c

/-! ### The substitution tables (R124, R125) -/

theorem invSbox_sbox (a : Byte) : invSbox (sbox a) = a := by
  revert a; decide +kernel

/-! ### One column (R133, R134)

The first row of the product of the matrix of R134 and that of R133, entry by entry. -/

theorem mixProduct_entry_zero (a : Byte) :
    gmul 0x0e (gmul 0x02 a) ^^^ gmul 0x0b a ^^^ gmul 0x0d a ^^^ gmul 0x09 (gmul 0x03 a) = a := by
  revert a; decide +kernel

theorem mixProduct_entry_one (a : Byte) :
    gmul 0x0e (gmul 0x03 a) ^^^ gmul 0x0b (gmul 0x02 a) ^^^ gmul 0x0d a ^^^ gmul 0x09 a = 0 := by
  revert a; decide +kernel

theorem mixProduct_entry_two (a : Byte) :
    gmul 0x0e a ^^^ gmul 0x0b (gmul 0x03 a) ^^^ gmul 0x0d (gmul 0x02 a) ^^^ gmul 0x09 a = 0 := by
  revert a; decide +kernel

theorem mixProduct_entry_three (a : Byte) :
    gmul 0x0e a ^^^ gmul 0x0b a ^^^ gmul 0x0d (gmul 0x03 a) ^^^ gmul 0x09 (gmul 0x02 a) = 0 := by
  revert a; decide +kernel

/-- The first row of the product of the two matrices is that of the identity. -/
theorem invMixRow_zero_mixRow (a0 a1 a2 a3 : Byte) :
    invMixRow 0 (mixRow 0 a0 a1 a2 a3) (mixRow 1 a0 a1 a2 a3) (mixRow 2 a0 a1 a2 a3) (mixRow 3 a0 a1 a2 a3) = a0 :=
  calc
    _ = (gmul 0x0e (gmul 0x02 a0) ^^^ gmul 0x0b a0 ^^^ gmul 0x0d a0 ^^^ gmul 0x09 (gmul 0x03 a0)) ^^^
        (gmul 0x0e (gmul 0x03 a1) ^^^ gmul 0x0b (gmul 0x02 a1) ^^^ gmul 0x0d a1 ^^^ gmul 0x09 a1) ^^^
        (gmul 0x0e a2 ^^^ gmul 0x0b (gmul 0x03 a2) ^^^ gmul 0x0d (gmul 0x02 a2) ^^^ gmul 0x09 a2) ^^^
        (gmul 0x0e a3 ^^^ gmul 0x0b a3 ^^^ gmul 0x0d (gmul 0x03 a3) ^^^ gmul 0x09 (gmul 0x02 a3)) := by
      simp only [mixRow, invMixRow, gmul_xor]
      ac_rfl
    _ = a0 := by
      rw [mixProduct_entry_zero, mixProduct_entry_one, mixProduct_entry_two, mixProduct_entry_three]
      simp

/-- Both matrices are circulant: the next row is the row applied to the rotated column. -/
theorem mixRow_succ {r : Nat} (h : r < 4) (a0 a1 a2 a3 : Byte) :
    mixRow ((r + 1) % 4) a0 a1 a2 a3 = mixRow r a1 a2 a3 a0 := by
  interval_cases r <;> simp only [mixRow, Nat.reduceAdd, Nat.reduceMod] <;> ac_rfl

theorem invMixRow_succ {r : Nat} (h : r < 3) (a0 a1 a2 a3 : Byte) :
    invMixRow (r + 1) a0 a1 a2 a3 = invMixRow r a1 a2 a3 a0 := by
  interval_cases r <;> simp only [invMixRow] <;> ac_rfl

/-- The product of the two matrices is the identity, row by row. -/
theorem invMixRow_mixRow {r : Nat} (h : r < 4) (a0 a1 a2 a3 : Byte) :
    invMixRow r (mixRow 0 a0 a1 a2 a3) (mixRow 1 a0 a1 a2 a3) (mixRow 2 a0 a1 a2 a3) (mixRow 3 a0 a1 a2 a3) =
      [a0, a1, a2, a3].getD r 0 := by
  induction r generalizing a0 a1 a2 a3 with
  | zero => exact invMixRow_zero_mixRow a0 a1 a2 a3
  | succ r ih =>
    have h1 : mixRow 1 a0 a1 a2 a3 = mixRow 0 a1 a2 a3 a0 := mixRow_succ (r := 0) (by decide) ..
    have h2 : mixRow 2 a0 a1 a2 a3 = mixRow 1 a1 a2 a3 a0 := mixRow_succ (r := 1) (by decide) ..
    have h3 : mixRow 3 a0 a1 a2 a3 = mixRow 2 a1 a2 a3 a0 := mixRow_succ (r := 2) (by decide) ..
    have h0 : mixRow 0 a0 a1 a2 a3 = mixRow 3 a1 a2 a3 a0 := mixRow_succ (r := 3) (by decide) ..
    have hr : r < 3 := by omega
    rw [invMixRow_succ hr, h1, h2, h3, h0, ih (by omega)]
    interval_cases r <;> rfl

theorem invMixRow_xor (r : Nat) (a0 a1 a2 a3 b0 b1 b2 b3 : Byte) :
    invMixRow r (a0 ^^^ b0) (a1 ^^^ b1) (a2 ^^^ b2) (a3 ^^^ b3) = invMixRow r a0 a1 a2 a3 ^^^ invMixRow r b0 b1 b2 b3 := by
  unfold invMixRow
  split <;> simp only [gmul_xor] <;> ac_rfl

/-! ### The layers, byte by byte (R131 to R134) -/

theorem blockByte_subBytes (s : Block128) {i : Nat} (h : i < 16) : blockByte (subBytes s) i = sbox (blockByte s i) :=
  blockByte_blockOf _ h

theorem blockByte_invSubBytes (s : Block128) {i : Nat} (h : i < 16) :
    blockByte (invSubBytes s) i = invSbox (blockByte s i) :=
  blockByte_blockOf _ h

theorem blockByte_shiftRows (s : Block128) {i : Nat} (h : i < 16) :
    blockByte (shiftRows s) i = blockByte s (5 * i % 16) :=
  blockByte_blockOf _ h

theorem blockByte_invShiftRows (s : Block128) {i : Nat} (h : i < 16) :
    blockByte (invShiftRows s) i = blockByte s (13 * i % 16) :=
  blockByte_blockOf _ h

/-- Row `r` of column `c` of a state whose columns have been replaced. -/
theorem blockByte_mapColumns (row : Nat → Byte → Byte → Byte → Byte → Byte) (s : Block128) {c r : Nat} (hc : c < 4)
    (hr : r < 4) : blockByte (mapColumns row s) (4 * c + r) = row r (blockByte s (4 * c)) (blockByte s (4 * c + 1))
      (blockByte s (4 * c + 2)) (blockByte s (4 * c + 3)) := by
  rw [mapColumns, blockByte_blockOf _ (by omega), show (4 * c + r) % 4 = r by omega, show (4 * c + r) / 4 = c by omega]

/-- Two states with the same bytes in every row of every column are equal (R12). -/
theorem block_ext_columns {x y : Block128} (h : ∀ c < 4, ∀ r < 4, blockByte x (4 * c + r) = blockByte y (4 * c + r)) :
    x = y :=
  block_ext fun i hi => Nat.div_add_mod i 4 ▸ h (i / 4) (by omega) (i % 4) (by omega)

theorem invSubBytes_subBytes (s : Block128) : invSubBytes (subBytes s) = s := block_ext fun i hi => by
  rw [blockByte_invSubBytes _ hi, blockByte_subBytes _ hi, invSbox_sbox]

theorem invShiftRows_shiftRows (s : Block128) : invShiftRows (shiftRows s) = s := block_ext fun i hi => by
  rw [blockByte_invShiftRows _ hi, blockByte_shiftRows _ (by omega), show 5 * (13 * i % 16) % 16 = i by omega]

theorem shiftRows_subBytes (s : Block128) : shiftRows (subBytes s) = subBytes (shiftRows s) := block_ext fun i hi => by
  rw [blockByte_shiftRows _ hi, blockByte_subBytes _ (by omega), blockByte_subBytes _ hi, blockByte_shiftRows _ hi]

theorem invMixColumns_mixColumns : Function.LeftInverse invMixColumns mixColumns := fun s =>
  block_ext_columns fun c hc r hr => by
    have hmix (k : Nat) (hk : k < 4) := blockByte_mapColumns mixRow s hc hk
    rw [invMixColumns, blockByte_mapColumns _ _ hc hr, mixColumns, ← Nat.add_zero (4 * c), hmix 0 (by decide)]
    rw [hmix 1 (by decide), hmix 2 (by decide), hmix 3 (by decide), invMixRow_mixRow hr]
    interval_cases r <;> rfl

theorem invMixColumns_xor128 (x y : Block128) :
    invMixColumns (xor128 x y) = xor128 (invMixColumns x) (invMixColumns y) :=
  block_ext_columns fun c hc r hr => by
    simp only [xor128, blockByte_xor, invMixColumns, blockByte_mapColumns _ _ hc hr, invMixRow_xor]

/-- On blocks, which are finitely many, a function that undoes another is undone by it. -/
theorem block_rightInverse_of_leftInverse {f g : Block128 → Block128} (h : Function.LeftInverse f g) :
    Function.RightInverse f g :=
  h.rightInverse_of_surjective (Finite.surjective_of_injective h.injective)

theorem mixColumns_invMixColumns (s : Block128) : mixColumns (invMixColumns s) = s :=
  block_rightInverse_of_leftInverse invMixColumns_mixColumns s

theorem invMixColumns_injective : Function.Injective invMixColumns :=
  Function.LeftInverse.injective mixColumns_invMixColumns

end Sys2Proof.Machine
end

section
/-! SUPPORT. The equivalent inverse cipher (spec/41_key_schedule.md R176; spec/42_round_function.md R203, R204): what `Invert`
does to a sequence written as first key, interior keys and last key, and that `D` under it undoes `E` round by round, from the
last round back. -/

namespace Sys2Proof.Machine

/-! ### `Invert` (R176) -/

theorem invert_getD (ek : List Block128) {i : Nat} (h : i < ek.length) :
    (invert ek).getD i 0 = if i = 0 ∨ i = ek.length - 1 then ek.getD (ek.length - 1 - i) 0
      else invMixColumns (ek.getD (ek.length - 1 - i) 0) := by
  simp [invert, h]

theorem invert_getD_end (ek : List Block128) {i : Nat} (h : i < ek.length) (hend : i = 0 ∨ i = ek.length - 1) :
    (invert ek).getD i 0 = ek.getD (ek.length - 1 - i) 0 := by
  rw [invert_getD ek h, if_pos hend]

theorem invert_getD_interior (ek : List Block128) {i : Nat} (hlo : 0 < i) (hhi : i < ek.length - 1) :
    (invert ek).getD i 0 = invMixColumns (ek.getD (ek.length - 1 - i) 0) := by
  rw [invert_getD ek (by omega), if_neg (by omega)]

/-- Every key of a sequence can be recovered from the inverted sequence. -/
theorem getD_eq_of_invert (ek : List Block128) {j : Nat} (h : j < ek.length) :
    ek.getD j 0 = if j = 0 ∨ j = ek.length - 1 then (invert ek).getD (ek.length - 1 - j) 0
      else mixColumns ((invert ek).getD (ek.length - 1 - j) 0) := by
  have hback : ek.length - 1 - (ek.length - 1 - j) = j := by omega
  split
  case isTrue hend => rw [invert_getD_end ek (by omega) (by omega), hback]
  case isFalse hmid => rw [invert_getD_interior ek (by omega) (by omega), hback, mixColumns_invMixColumns]

theorem invert_injective : Function.Injective invert := by
  intro ek ek' h
  have hlen : ek.length = ek'.length := by simpa using congrArg List.length h
  refine List.ext_getElem hlen fun j hj hj' => ?_
  rw [← List.getD_eq_getElem _ 0 hj, ← List.getD_eq_getElem _ 0 hj', getD_eq_of_invert ek hj, getD_eq_of_invert ek' hj', h,
    hlen]

/-- `Invert` of a first key, interior keys and a last key. -/
theorem invert_cons_append_singleton (k l : Block128) (ks : List Block128) :
    invert (k :: (ks ++ [l])) = l :: (ks.reverse.map invMixColumns ++ [k]) := by
  refine List.ext_getElem (by simp) fun i hi hi' => ?_
  rw [← List.getD_eq_getElem _ 0 hi, ← List.getD_eq_getElem _ 0 hi']
  have hn : (k :: (ks ++ [l])).length = ks.length + 2 := by simp
  rw [invert_length, hn] at hi
  cases i with
  | zero => rw [invert_getD_end _ (by omega) (.inl rfl), hn]; simp
  | succ i =>
    obtain hlt | rfl : i < ks.length ∨ i = ks.length := by omega
    · have hidx : ks.length + 2 - 1 - (i + 1) = ks.length - 1 - i + 1 := by omega
      rw [invert_getD_interior _ (by omega) (by omega), hn, hidx, List.getD_cons_succ, List.getD_cons_succ,
        List.getD_append _ _ _ _ (by omega), List.getD_append _ _ _ _ (by simpa using hlt)]
      have hj : ks.length - 1 - i < ks.length := by omega
      simp [hlt, hj]
    · rw [invert_getD_end _ (by omega) (.inr (by omega)), hn]; simp

/-! ### The rounds (R135, R136, R203, R204) -/

theorem encRounds_append_singleton (ks : List Block128) (l s : Block128) :
    encRounds s (ks ++ [l]) = encLast (ks.foldl encRound s) l := by
  induction ks generalizing s with
  | nil => rfl
  | cons k ks ih =>
    rw [List.foldl_cons, ← ih]
    cases ks <;> rfl

theorem decRounds_append_singleton (ks : List Block128) (l s : Block128) :
    decRounds s (ks ++ [l]) = decLast (ks.foldl decRound s) l := by
  induction ks generalizing s with
  | nil => rfl
  | cons k ks ih =>
    rw [List.foldl_cons, ← ih]
    cases ks <;> rfl

theorem xor128_xor128_cancel (x k : Block128) : xor128 (xor128 x k) k = x := by
  rw [xor128, xor128, BitVec.xor_assoc, BitVec.xor_self, BitVec.xor_zero]

/-- The byte layers of an encryption round, undone in the order of the decryption round. -/
theorem invSubBytes_invShiftRows_subBytes_shiftRows (s : Block128) :
    invSubBytes (invShiftRows (subBytes (shiftRows s))) = s := by
  rw [← shiftRows_subBytes, invShiftRows_shiftRows, invSubBytes_subBytes]

/-- A decryption round under the transformed key undoes an encryption round behind the byte layers of the round after it. -/
theorem decRound_encRound (s k : Block128) :
    decRound (subBytes (shiftRows (encRound s k))) (invMixColumns k) = subBytes (shiftRows s) := by
  rw [decRound, invSubBytes_invShiftRows_subBytes_shiftRows, encRound, invMixColumns_xor128, invMixColumns_mixColumns,
    xor128_xor128_cancel]

/-- The decryption rounds under the transformed interior keys, last key first, undo the encryption rounds. -/
theorem foldl_decRound_foldl_encRound (ks : List Block128) (s : Block128) :
    (ks.reverse.map invMixColumns).foldl decRound (subBytes (shiftRows (ks.foldl encRound s))) = subBytes (shiftRows s) := by
  induction ks generalizing s with
  | nil => rfl
  | cons k ks ih =>
    rw [List.reverse_cons, List.map_append, List.foldl_append, List.foldl_cons, ih]
    exact decRound_encRound s k

/-- `D` under the inverted schedule undoes `E`, for arbitrary round keys. -/
theorem blockDecrypt_blockEncrypt {ek : List Block128} (h : 2 ≤ ek.length) :
    Function.LeftInverse (fun x => blockDecrypt x (invert ek)) (fun x => blockEncrypt x ek) := by
  intro p
  obtain ⟨k, rest, rfl⟩ : ∃ k rest, ek = k :: rest := List.exists_cons_of_length_pos (by omega)
  obtain ⟨ks, l, rfl⟩ : ∃ ks l, rest = ks ++ [l] :=
    ⟨_, _, (List.dropLast_concat_getLast (by rintro rfl; simp at h)).symm⟩
  change blockDecrypt (encRounds (xor128 p k) (ks ++ [l])) (invert (k :: (ks ++ [l]))) = p
  rw [invert_cons_append_singleton, blockDecrypt, decRounds_append_singleton, encRounds_append_singleton, encLast,
    xor128_xor128_cancel, foldl_decRound_foldl_encRound, decLast, invSubBytes_invShiftRows_subBytes_shiftRows,
    xor128_xor128_cancel]

end Sys2Proof.Machine
end

section
/-! SUPPORT. The words of an opcode (spec/30_encoding.md R91, R92, R98): a word a row selects is the encoding of its instruction,
so every other word with the row's opcode is illegal. -/

namespace Sys2Proof.Machine

/-- The encoding of a row's instruction: the fields the row does not use are 0 (R98). -/
theorem encode_instrOf (op : Opcode) (alg : BitVec 2) (mode : BitVec 3) (ivp : Bool) :
    encode (instrOf op alg mode ivp) = fieldsWord op (if usesAlg op then alg else 0) (if usesMode op then mode else 0)
      (if usesIvp op then ivp else false) := by
  cases op <;> rfl

theorem encode_of_selects {w : CmdWord} {op : Opcode} (h : Selects w op) :
    encode (instrOf op (cmdAlg w) (cmdMode w) (cmdIvp w)) = w := by
  have halg : (if usesAlg op then cmdAlg w else 0) = cmdAlg w :=
    ite_eq_left_iff.mpr fun hu => (h.alg (Bool.eq_false_of_not_eq_true hu)).symm
  have hmode : (if usesMode op then cmdMode w else 0) = cmdMode w :=
    ite_eq_left_iff.mpr fun hu => (h.mode (Bool.eq_false_of_not_eq_true hu)).symm
  have hivp : (if usesIvp op then cmdIvp w else false) = cmdIvp w :=
    ite_eq_left_iff.mpr fun hu => (h.ivp (Bool.eq_false_of_not_eq_true hu)).symm
  rw [encode_instrOf, halg, hmode, hivp]
  conv_rhs => rw [← fields_append w, h.opcode, h.reserved]
  rfl

/-- A word with the opcode of a row that is the encoding of none of the row's instructions ends with `ILLEGAL_COMMAND`. -/
theorem issueCommand_of_not_encode {w : CmdWord} {op : Opcode} (hop : cmdOp w = opcodeBits op)
    (h : ∀ alg mode ivp, w ≠ encode (instrOf op alg mode ivp)) (s : State) :
    issueCommand w s = .next (withStatus .illegalCommand .none s) :=
  issueCommand_of_not_selects (fun op' hsel => by
    obtain rfl : op' = op := opcodeBits_injective (hsel.opcode.symm.trans hop)
    exact h _ _ _ (encode_of_selects hsel).symm) s

end Sys2Proof.Machine
end

section
/-! SUPPORT. The key of the two lanes (spec/41_key_schedule.md R161), the words of the schedule that are key words (R165), and
what `KEXP` and `KINV` write (R170, R180). -/

namespace Sys2Proof.Machine

/-! ### The key (R161) -/

theorem keyBytes_getD (a : Alg) (lo hi : Block128) {n : Nat} (h : n < 4 * nk a) :
    (keyBytes a lo hi).getD n 0 = if n < 16 then blockByte lo n else blockByte hi (n - 16) := by
  have hn : n < 32 := h.trans_le (by cases a <;> decide)
  have htake : (keyBytes a lo hi).getD n 0 = (blockBytes lo ++ blockBytes hi).getD n 0 := by
    simp [keyBytes, List.getElem?_take_of_lt h]
  rw [htake]
  split
  case isTrue hlt => rw [List.getD_append _ _ _ _ (by simpa using hlt), blockBytes_getD lo hlt]
  case isFalse hge =>
    rw [List.getD_append_right _ _ _ _ (by simpa using hge), blockBytes_length, blockBytes_getD hi (by omega)]

/-- Two high lanes give the same key when they agree on the bytes the algorithm reads. -/
theorem keyBytes_congr {a : Alg} (lo : Block128) {hi hi' : Block128}
    (h : ∀ i, i + 16 < 4 * nk a → blockByte hi i = blockByte hi' i) : keyBytes a lo hi = keyBytes a lo hi' := by
  refine List.ext_getElem (by rw [keyBytes_length, keyBytes_length]) fun n hn hn' => ?_
  have hlt : n < 4 * nk a := keyBytes_length a lo hi ▸ hn
  rw [← List.getD_eq_getElem _ 0 hn, ← List.getD_eq_getElem _ 0 hn', keyBytes_getD a lo hi hlt, keyBytes_getD a lo hi' hlt]
  split
  case isTrue => rfl
  case isFalse hge => exact h _ (by omega)

/-! ### Words and round keys -/

/-- A word is its four bytes. -/
theorem wordOf_wordByte (w : Word32) : wordOf (wordByte w 0) (wordByte w 1) (wordByte w 2) (wordByte w 3) = w := by
  rw [wordOf, wordByte, wordByte, wordByte, wordByte,
    BitVec.extractLsb'_append_extractLsb'_eq_extractLsb' (show 8 * 3 = 8 * 2 + 8 from rfl),
    BitVec.extractLsb'_append_extractLsb'_eq_extractLsb' (show 8 * 2 = 8 * 1 + 8 from rfl),
    BitVec.extractLsb'_append_extractLsb'_eq_extractLsb' (show 8 * 1 = 8 * 0 + 8 from rfl)]
  exact BitVec.extractLsb'_eq_self

/-- A word is word `j` of the block whose bytes `4j` to `4j + 3` are its bytes (R11). -/
theorem wordOf_blockByte (x : Block128) (j : Nat) :
    wordOf (blockByte x (4 * j)) (blockByte x (4 * j + 1)) (blockByte x (4 * j + 2)) (blockByte x (4 * j + 3)) =
      blockWord x j := by
  have hbyte (m : Nat) (hm : m < 4) := wordByte_blockWord x j hm
  rw [← hbyte 1 (by decide), ← hbyte 2 (by decide), ← hbyte 3 (by decide), ← Nat.add_zero (4 * j), ← hbyte 0 (by decide),
    wordOf_wordByte]

/-- Two blocks with the same four words are equal. -/
theorem block_ext_words {x y : Block128} (h : ∀ j < 4, blockWord x j = blockWord y j) : x = y := by
  rw [← blockOfWords_blockWord x, ← blockOfWords_blockWord y, h 0 (by decide), h 1 (by decide), h 2 (by decide),
    h 3 (by decide)]

theorem four_le_nk (a : Alg) : 4 ≤ nk a := by cases a <;> decide

theorem one_le_nr (a : Alg) : 1 ≤ nr a := by cases a <;> decide

/-- The words of the key are the words of its lanes. -/
theorem keyWord_keyBytes_lo (a : Alg) (lo hi : Block128) {j : Nat} (h : j < 4) :
    keyWord (keyBytes a lo hi) j = blockWord lo j := by
  have hnk := four_le_nk a
  have hbyte (m : Nat) (hm : m < 16) : (keyBytes a lo hi).getD m 0 = blockByte lo m := by
    rw [keyBytes_getD _ _ _ (by omega), if_pos hm]
  rw [← wordOf_blockByte, keyWord, hbyte _ (by omega), hbyte _ (by omega), hbyte _ (by omega), hbyte _ (by omega)]

theorem keyWord_keyBytes_hi {a : Alg} (lo hi : Block128) {j : Nat} (h : 4 + j < nk a) :
    keyWord (keyBytes a lo hi) (4 + j) = blockWord hi j := by
  have hbyte (m : Nat) (hm : m < 4 * j + 4) : (keyBytes a lo hi).getD (16 + m) 0 = blockByte hi m := by
    rw [keyBytes_getD _ _ _ (by omega), if_neg (by omega), Nat.add_sub_cancel_left]
  rw [← wordOf_blockByte, keyWord, Nat.mul_add]
  simp only [Nat.reduceMul, Nat.add_assoc]
  rw [hbyte _ (by omega), hbyte _ (by omega), hbyte _ (by omega), hbyte _ (by omega)]

theorem wordsFrom_getD_of_lt (nkw n k : Nat) (w : List Word32) {i : Nat} (h : i < w.length) :
    (wordsFrom nkw n k w).getD i 0 = w.getD i 0 := by
  induction n generalizing k w with
  | zero => rfl
  | succ n ih => rw [wordsFrom, ih _ _ (by simp; omega), List.getD_append _ _ _ _ h]

/-- The first `Nk` words of the schedule are those of the key. -/
theorem scheduleWords_getD_of_lt {a : Alg} (key : List Byte) {i : Nat} (h : i < nk a) :
    (scheduleWords a key).getD i 0 = keyWord key i := by
  rw [scheduleWords, wordsFrom_getD_of_lt _ _ _ _ (by simpa using h)]
  simp [h]

theorem blockWord_roundKey (w : List Word32) (r : Nat) {j : Nat} (h : j < 4) :
    blockWord (roundKey w r) j = w.getD (4 * r + j) 0 := by
  obtain ⟨h0, h1, h2, h3⟩ := blockWord_blockOfWords (w.getD (4 * r) 0) (w.getD (4 * r + 1) 0) (w.getD (4 * r + 2) 0)
    (w.getD (4 * r + 3) 0)
  interval_cases j
  exacts [h0, h1, h2, h3]

theorem blockWord_expand {a : Alg} (key : List Byte) {r j : Nat} (hr : r ≤ nr a) (hj : j < 4) :
    blockWord ((expand a key).getD r 0) j = (scheduleWords a key).getD (4 * r + j) 0 := by
  rw [← blockWord_roundKey _ r hj]
  simp [expand, Nat.lt_succ_iff.mpr hr]

/-- Round key 0 is the low lane. -/
theorem expand_keyBytes_zero (a : Alg) (lo hi : Block128) : (expand a (keyBytes a lo hi)).getD 0 0 = lo :=
  block_ext_words fun j hj => by
    have hnk := four_le_nk a
    rw [blockWord_expand _ (Nat.zero_le _) hj, Nat.mul_zero, Nat.zero_add, scheduleWords_getD_of_lt _ (by omega),
      keyWord_keyBytes_lo a lo hi hj]

theorem blockByte_eq_wordByte (x : Block128) (i : Nat) : blockByte x i = wordByte (blockWord x (i / 4)) (i % 4) := by
  rw [wordByte_blockWord x _ (Nat.mod_lt i (by decide)), Nat.div_add_mod]

/-- Round key 1 begins with the bytes of the high lane that are key bytes. -/
theorem blockByte_expand_keyBytes_one {a : Alg} (lo hi : Block128) {i : Nat} (hi16 : i < 16) (h : 4 + i / 4 < nk a) :
    blockByte ((expand a (keyBytes a lo hi)).getD 1 0) i = blockByte hi i := by
  rw [blockByte_eq_wordByte, blockWord_expand _ (one_le_nr a) (by omega), Nat.mul_one, scheduleWords_getD_of_lt _ h,
    keyWord_keyBytes_hi lo hi h, ← blockByte_eq_wordByte]

/-! ### What `KEXP` and `KINV` write (R170, R180) -/

theorem execKexp_algCode (a : Alg) (s : State) :
    execKexp (algCode a) s = .next (withStatus .success .none (withFlags true false false false
      { s with ek := keyFile (nr a) (s.expandKey a), dk := zeroFile, alg := a, mode := .ecb, chain := 0 })) := by
  rw [execKexp, algOf_algCode]
  rfl

/-- `CTX` of a context with a schedule and no session (R31). -/
theorem ctxWord_toNat_of_schedule {s : State} (hmode : s.mode = .ecb) (hek : s.ekValid = true) (hdk : s.dkValid = false)
    (hms : s.msValid = false) (hiv : s.ivValid = false) : (ctxWord s).toNat = 0x20 + (algCode s.alg).toNat := by
  rw [ctxWord, hmode, hek, hdk, hms, hiv]
  cases s.alg <;> rfl

theorem execKinv_of_ekValid {s : State} (h : s.ekValid = true) :
    execKinv s = .next (withStatus .success .none
      { s with dk := keyFile (nr s.alg) (invert (fileKeys (nr s.alg) s.ek)), dkValid := true }) := by
  rw [execKinv, if_neg (by simp [h]), succeed_eq]

theorem execKinv_of_not_ekValid {s : State} (h : s.ekValid = false) :
    execKinv s = .next (withStatus .notReady .none s) := by
  rw [execKinv, if_pos h, failWith_eq]

theorem fileKeys_eq_map_getD (a : Alg) (f : Vector Block128 15) :
    fileKeys (nr a) f = (List.range (nr a + 1)).map fun j => f.toList.getD j 0 := by
  refine List.ext_getElem (by simp [fileKeys_length]) fun i hi hi' => ?_
  rw [fileKeys_length] at hi
  have hi15 : i < 15 := hi.trans_le (Nat.succ_le_succ (nr_le a))
  simp [fileKeys, hi15]

end Sys2Proof.Machine
end

section
/-! CERTIFICATE. The statements about the key schedule (spec/41_key_schedule.md). -/

namespace Sys2Proof.Certificates

open Sys2Proof.Machine

/-- Settles O17: AES-128 reads no byte of the high lane and AES-192 its first eight. -/
theorem keyBytesComeFromKeyLanes : Obligations.KeyBytesComeFromKeyLanes := by
  unfold Obligations.KeyBytesComeFromKeyLanes
  refine ⟨fun a lo hi => ⟨keyBytes_length a lo hi, fun n hn => keyBytes_getD a lo hi hn⟩,
    fun lo hi hi' => keyBytes_congr lo fun i hread => ?aes128,
    fun lo hi hi' h => keyBytes_congr lo fun i hread => h i ?aes192⟩
  case aes128 => simp only [nk] at hread; omega
  case aes192 => simp only [nk] at hread; omega

/-- Settles O20: `Invert` is injective because each of its keys can be undone in its place. -/
theorem invertReversesAndTransforms : Obligations.InvertReversesAndTransforms := by
  unfold Obligations.InvertReversesAndTransforms
  refine ⟨fun ek n hn hlen => ?entries, fun ek ek' h => invert_injective h⟩
  have hlast : ek.length - 1 = n := by omega
  refine ⟨(invert_length ek).trans hlen, ?first, ?last, fun i hlo hhi => ?interior⟩
  case first => rw [invert_getD_end ek (by omega) (.inl rfl), hlast, Nat.sub_zero]
  case last => rw [invert_getD_end ek (by omega) (.inr hlast.symm), hlast, Nat.sub_self]
  case interior =>
    have hi : (invert ek).getD i 0 = invMixColumns (ek.getD (n - i) 0) := by
      rw [invert_getD_interior ek hlo (by omega), hlast]
    exact ⟨hi, by rw [hi, mixColumns_invMixColumns]⟩

/-- Settles O21: `D` under an inverted schedule undoes `E`, whatever the round keys. -/
theorem scheduleSelfConsistency : Obligations.ScheduleSelfConsistency := by
  unfold Obligations.ScheduleSelfConsistency
  intro a key p
  have hlen : 2 ≤ (expand a key).length := by cases a <;> simp [nr]
  exact blockDecrypt_blockEncrypt hlen p

/-- Settles O25: the key words stand at the front of the schedule, so entries 0 and 1 show the key lanes. -/
theorem kexpExpandsKey : Obligations.KexpExpandsKey := by
  unfold Obligations.KexpExpandsKey
  refine ⟨by decide, fun w s hop hne => issueCommand_of_not_encode (op := .kexp) hop (fun alg _ _ => hne alg) s,
    fun s => exec_of_not_wellFormed rfl s, fun a s => ?expands⟩
  have hentry (r : Nat) (hr : r < 15) (hle : r ≤ nr a) : (keyFile (nr a) (s.expandKey a))[r] =
      (expand a (keyBytes a s.keyLo s.keyHi)).getD r 0 := (keyFile_getElem _ _ hr).trans (if_pos hle)
  have hone := hentry 1 (by decide) (one_le_nr a)
  refine ⟨_, execKexp_algCode a s, fun i => keyFile_getElem _ _ i.isLt, fun i => zeroFile_getElem i.isLt, rfl, rfl, rfl,
    rfl, rfl, rfl, rfl, rfl, rfl, ctxWord_toNat_of_schedule rfl rfl rfl rfl rfl, ?low, fun ha => ?high,
    fun ha i hi => ?highHalf, ⟨_, execKexp_algCode a _, rfl⟩, rfl, fun x => rfl⟩
  case low => exact (hentry 0 (by decide) (Nat.zero_le _)).trans (expand_keyBytes_zero a s.keyLo s.keyHi)
  case high =>
    have hnk : nk a = 8 := congrArg nk ha
    exact hone.trans (block_ext fun i hi => blockByte_expand_keyBytes_one _ _ hi (by omega))
  case highHalf =>
    have hnk : nk a = 6 := congrArg nk ha
    exact (congrArg (blockByte · i) hone).trans (blockByte_expand_keyBytes_one _ _ (by omega) (by omega))

/-- Settles O26: a second `KINV` finds the same `EK` and `EK_VALID`. -/
theorem kinvInvertsSchedule : Obligations.KinvInvertsSchedule := by
  unfold Obligations.KinvInvertsSchedule
  refine ⟨rfl, fun w s hop hne => issueCommand_of_not_encode (op := .kinv) hop (fun _ _ _ => hne) s,
    fun s h => execKinv_of_not_ekValid h, fun s h => ⟨_, execKinv_of_ekValid h, fun i => ?dk, rfl, rfl, rfl,
      execKinv_of_ekValid h, rfl, fun x => rfl⟩⟩
  case dk =>
    rw [← fileKeys_eq_map_getD]
    exact keyFile_getElem _ _ i.isLt

end Sys2Proof.Certificates
end

section
/-! SUPPORT. The three key schedules of the FIPS-197 keys (spec/95_test_vectors.md V10 to V12), which the known answers of
spec/42_round_function.md R209 encrypt under. -/

namespace Sys2Proof.Machine

/-- `EK[0..10]` of V10. -/
def fipsRoundKeys128 : List Block128 :=
  [0x000102030405060708090a0b0c0d0e0f, 0xd6aa74fdd2af72fadaa678f1d6ab76fe, 0xb692cf0b643dbdf1be9bc5006830b3fe,
   0xb6ff744ed2c2c9bf6c590cbf0469bf41, 0x47f7f7bc95353e03f96c32bcfd058dfd, 0x3caaa3e8a99f9deb50f3af57adf622aa,
   0x5e390f7df7a69296a7553dc10aa31f6b, 0x14f9701ae35fe28c440adf4d4ea9c026, 0x47438735a41c65b9e016baf4aebf7ad2,
   0x549932d1f08557681093ed9cbe2c974e, 0x13111d7fe3944a17f307a78b4d2b30c5].map fips

/-- `EK[0..12]` of V11. -/
def fipsRoundKeys192 : List Block128 :=
  [0x000102030405060708090a0b0c0d0e0f, 0x10111213141516175846f2f95c43f4fe, 0x544afef55847f0fa4856e2e95c43f4fe,
   0x40f949b31cbabd4d48f043b810b7b342, 0x58e151ab04a2a5557effb5416245080c, 0x2ab54bb43a02f8f662e3a95d66410c08,
   0xf501857297448d7ebdf1c6ca87f33e3c, 0xe510976183519b6934157c9ea351f1e0, 0x1ea0372a995309167c439e77ff12051e,
   0xdd7e0e887e2fff68608fc842f9dcc154, 0x859f5f237a8d5a3dc0c02952beefd63a, 0xde601e7827bcdf2ca223800fd8aeda32,
   0xa4970a331a78dc09c418c271e3a41d5d].map fips

/-- `EK[0..14]` of V12. -/
def fipsRoundKeys256 : List Block128 :=
  [0x000102030405060708090a0b0c0d0e0f, 0x101112131415161718191a1b1c1d1e1f, 0xa573c29fa176c498a97fce93a572c09c,
   0x1651a8cd0244beda1a5da4c10640bade, 0xae87dff00ff11b68a68ed5fb03fc1567, 0x6de1f1486fa54f9275f8eb5373b8518d,
   0xc656827fc9a799176f294cec6cd5598b, 0x3de23a75524775e727bf9eb45407cf39, 0x0bdc905fc27b0948ad5245a4c1871c2f,
   0x45f5a66017b2d387300d4d33640a820a, 0x7ccff71cbeb4fe5413e6bbf0d261a7df, 0xf01afafee7a82979d7a5644ab3afe640,
   0x2541fe719bf500258813bbd55a721c0a, 0x4e5a6699a9f24fe07e572baacdf8cdea, 0x24fc79ccbf0979e9371ac23c6d68de36].map fips

theorem expand_aes128_fips :
    expand .aes128 (keyBytes .aes128 (fips 0x000102030405060708090a0b0c0d0e0f) 0) =
      fipsRoundKeys128 := by
  decide +kernel

theorem expand_aes192_fips :
    expand .aes192 (keyBytes .aes192 (fips 0x000102030405060708090a0b0c0d0e0f) (fips 0x10111213141516170000000000000000)) =
      fipsRoundKeys192 := by
  decide +kernel

theorem expand_aes256_fips :
    expand .aes256 (keyBytes .aes256 (fips 0x000102030405060708090a0b0c0d0e0f) (fips 0x101112131415161718191a1b1c1d1e1f)) =
      fipsRoundKeys256 := by
  decide +kernel

end Sys2Proof.Machine
end

section
/-! CERTIFICATE. The statement about the known answers of the round function (spec/42_round_function.md R209). -/

namespace Sys2Proof.Certificates

open Sys2Proof.Machine

/-- Settles O23: each key expands to the round keys of V10 to V12, and the rounds of `E` under these give the ciphertext. -/
theorem knownAnswers : Obligations.KnownAnswers := by
  unfold Obligations.KnownAnswers
  rw [expand_aes128_fips, expand_aes192_fips, expand_aes256_fips]
  refine ⟨?aes128, ?aes192, ?aes256⟩
  case aes128 => decide +kernel
  case aes192 => decide +kernel
  case aes256 => decide +kernel

end Sys2Proof.Certificates
end

section
/-! SUPPORT. The session commands on one block (spec/43_modes.md R221 to R224, R230, R240, R245): one equation per mode for the
step in each direction, and how each command ends, test by test. -/

namespace Sys2Proof.Machine

/-! ### The mode steps (R222, R223) -/

theorem encStep_of_ecb {s : State} (h : s.mode = .ecb) (x : Block128) : s.encStep x = (s.enc x, s.chain) := by
  rw [State.encStep, h, modeEnc]

theorem encStep_of_cbc {s : State} (h : s.mode = .cbc) (x : Block128) :
    s.encStep x = (s.enc (x ^^^ s.chain), s.enc (x ^^^ s.chain)) := by
  rw [State.encStep, h, modeEnc, xor128]

theorem encStep_of_cfb {s : State} (h : s.mode = .cfb) (x : Block128) :
    s.encStep x = (s.enc s.chain ^^^ x, s.enc s.chain ^^^ x) := by
  rw [State.encStep, h, modeEnc, xor128]

theorem encStep_of_ofb {s : State} (h : s.mode = .ofb) (x : Block128) :
    s.encStep x = (s.enc s.chain ^^^ x, s.enc s.chain) := by
  rw [State.encStep, h, modeEnc, xor128]

theorem encStep_of_ctr {s : State} (h : s.mode = .ctr) (x : Block128) :
    s.encStep x = (x ^^^ s.enc s.chain, incBE s.chain) := by
  rw [State.encStep, h, modeEnc, xor128]

theorem decStep_of_ecb {s : State} (h : s.mode = .ecb) (x : Block128) : s.decStep x = (s.dec x, s.chain) := by
  rw [State.decStep, h, modeDec]

theorem decStep_of_cbc {s : State} (h : s.mode = .cbc) (x : Block128) : s.decStep x = (s.dec x ^^^ s.chain, x) := by
  rw [State.decStep, h, modeDec, xor128]

theorem decStep_of_cfb {s : State} (h : s.mode = .cfb) (x : Block128) : s.decStep x = (s.enc s.chain ^^^ x, x) := by
  rw [State.decStep, h, modeDec, xor128]

/-- In OFB and CTR the two directions are one function. -/
theorem decStep_eq_encStep {s : State} (h : s.mode = .ofb ∨ s.mode = .ctr) (x : Block128) : s.decStep x = s.encStep x := by
  obtain h | h := h <;> rw [State.decStep, State.encStep, h] <;> rfl

/-! ### The block cipher over the files (R207) -/

theorem enc_eq_blockEncrypt (s : State) (x : Block128) :
    s.enc x = blockEncrypt x ((List.range (nr s.alg + 1)).map fun i => s.ek.toList.getD i 0) := by
  rw [State.enc, fileKeys_eq_map_getD]

theorem dec_eq_blockDecrypt (s : State) (x : Block128) :
    s.dec x = blockDecrypt x ((List.range (nr s.alg + 1)).map fun i => s.dk.toList.getD i 0) := by
  rw [State.dec, fileKeys_eq_map_getD]

/-! ### `MSTART` (R230) -/

theorem needsIv_iff (m : Mode) : needsIv m = true ↔ m ≠ .ecb := by
  cases m <;> decide

theorem execMstart_of_not_ekValid {s : State} (h : s.ekValid = false) (m : Mode) (v : Bool) :
    execMstart (modeCode m) v s = .next (withStatus .notReady .none s) := by
  rw [execMstart, modeOf_modeCode]
  exact if_pos h

theorem execMstart_of_missing_iv {s : State} (h : s.ekValid = true) {m : Mode} (hm : m ≠ .ecb) :
    execMstart (modeCode m) false s = .next (withStatus .nullArgument .iv s) := by
  rw [execMstart, modeOf_modeCode]
  exact (if_neg (by simp [h])).trans (if_pos ⟨(needsIv_iff m).mpr hm, rfl⟩)

theorem execMstart_of_ready {s : State} (h : s.ekValid = true) {m : Mode} {v : Bool} (hv : m ≠ .ecb → v = true) :
    execMstart (modeCode m) v s = .next (withStatus .success .none
      { s with mode := m, chain := if v then s.iv else 0, ivValid := v, msValid := true }) := by
  have hiv : ¬ (needsIv m = true ∧ v = false) := fun ⟨hm, hf⟩ => by simp [hv ((needsIv_iff m).mp hm)] at hf
  rw [execMstart, modeOf_modeCode]
  exact (if_neg (by simp [h])).trans (if_neg hiv)

/-! ### `ENCB` and `DECB` (R240, R245) -/

theorem execEncb_of_not_msValid {s : State} (h : s.msValid = false) :
    execEncb s = .next (withStatus .notReady .none s) := by
  rw [execEncb, if_pos h, failWith_eq]

theorem execEncb_of_msValid {s : State} (h : s.msValid = true) :
    execEncb s = .next (withStatus .success .none
      { s with dout := (s.encStep s.din).1, chain := (s.encStep s.din).2 }) := by
  rw [execEncb, if_neg (by simp [h]), succeed_eq]

theorem execDecb_of_not_ready {s : State} (h : s.msValid = false ∨ (needsDk s.mode = true ∧ s.dkValid = false)) :
    execDecb s = .next (withStatus .notReady .none s) := by
  rw [execDecb, failWith_eq]
  split
  case isTrue => rfl
  case isFalse hms => exact if_pos (h.resolve_left hms)

theorem execDecb_of_ready {s : State} (hms : s.msValid = true) (hdk : needsDk s.mode = true → s.dkValid = true) :
    execDecb s = .next (withStatus .success .none
      { s with dout := (s.decStep s.din).1, chain := (s.decStep s.din).2 }) := by
  have hready : ¬ (needsDk s.mode = true ∧ s.dkValid = false) := fun ⟨hm, hf⟩ => by simp [hdk hm] at hf
  rw [execDecb, if_neg (by simp [hms]), if_neg hready, succeed_eq]

end Sys2Proof.Machine
end

section
/-! SUPPORT. What does not use the inverse cipher does not see the decryption schedule (spec/43_modes.md R224): with other
decryption round keys and another `DK_VALID` the command does the same and leaves them as they are. -/

namespace Sys2Proof.Machine

/-- The state with other decryption round keys and another `DK_VALID`. -/
def withDk (d : Vector Block128 15) (v : Bool) (s : State) : State := { s with dk := d, dkValid := v }

/-- A result with its next state, if it has one, passed through `f`. -/
def mapNext (f : State → State) : Result → Result
  | .next s => .next (f s)
  | .fault r => .fault r
  | .refused r => .refused r

/-! ### The mode steps -/

theorem modeDec_congr_dec {m : Mode} (h : needsDk m = false) (enc dec dec' : Block128 → Block128) :
    modeDec enc dec m = modeDec enc dec' m := by
  cases m with
  | ecb | cbc => cases h
  | cfb | ofb | ctr => rfl

theorem modeDec_congr_enc {m : Mode} (h : needsDk m = true) (enc enc' dec : Block128 → Block128) :
    modeDec enc dec m = modeDec enc' dec m := by
  cases m with
  | ecb | cbc => rfl
  | cfb | ofb | ctr => cases h

theorem needsDk_eq_false {m : Mode} (hecb : m ≠ .ecb) (hcbc : m ≠ .cbc) : needsDk m = false :=
  Bool.eq_false_of_not_eq_true fun h => ((needsDk_iff m).mp h).elim hecb hcbc

section
variable (d : Vector Block128 15) (v : Bool)

@[simp] theorem withDk_mode (s : State) : (withDk d v s).mode = s.mode := rfl

@[simp] theorem withDk_srcLen (s : State) : (withDk d v s).srcLen = s.srcLen := rfl

@[simp] theorem srcChunk_withDk (s : State) (i : Nat) : srcChunk (withDk d v s) i = srcChunk s i := rfl

theorem encStep_withDk (s : State) (x : Block128) : (withDk d v s).encStep x = s.encStep x := rfl

theorem decStep_withDk {s : State} (h : needsDk s.mode = false) (x : Block128) :
    (withDk d v s).decStep x = s.decStep x :=
  congrFun₂ (modeDec_congr_dec h s.enc (withDk d v s).dec s.dec) x s.chain

/-! ### The chunk loops -/

theorem encBlockTo_withDk (i : Nat) (x : Block128) (s : State) :
    encBlockTo i x (withDk d v s) = withDk d v (encBlockTo i x s) := by
  rw [encBlockTo, encBlockTo, encStep_withDk]
  simp only [withDk]

theorem decBlockTo_withDk {s : State} (h : needsDk s.mode = false) (i k : Nat) (x : Block128) :
    decBlockTo i k x (withDk d v s) = withDk d v (decBlockTo i k x s) := by
  rw [decBlockTo, decBlockTo, decStep_withDk d v h]
  simp only [withDk]

theorem encChunks_withDk (n i : Nat) (s : State) : encChunks n i (withDk d v s) = withDk d v (encChunks n i s) := by
  induction n generalizing i s with
  | zero => rfl
  | succ n ih =>
    rw [encChunks, encBlockTo_withDk, ih]
    rfl

theorem decChunks_withDk {s : State} (h : needsDk s.mode = false) (n i : Nat) :
    decChunks n i (withDk d v s) = withDk d v (decChunks n i s) := by
  induction n generalizing i s with
  | zero => rfl
  | succ n ih =>
    rw [decChunks, decBlockTo_withDk d v h, ih (by rwa [decBlockTo_mode])]
    rfl

/-! ### The commands -/

theorem encRun_withDk (s : State) : encRun (withDk d v s) = mapNext (withDk d v) (encRun s) := by
  simp only [encRun, encChunks_withDk]
  exact congrArg (fun u => succeed { u with dstLen := encReq s.srcLen }) (encBlockTo_withDk d v _ _ _)

theorem decRun_withDk {s : State} (h : needsDk s.mode = false) :
    decRun (withDk d v s) = mapNext (withDk d v) (decRun s) := by
  have hmode : needsDk (decChunks (s.srcLen / 16 - 1) 0 s).mode = false := by rwa [decChunks_frame]
  simp only [decRun, withDk_srcLen, srcChunk_withDk, decChunks_withDk d v h, decStep_withDk d v hmode,
    decBlockTo_withDk d v hmode]
  cases padCheck _ <;> rfl

theorem execEncb_withDk (s : State) : execEncb (withDk d v s) = mapNext (withDk d v) (execEncb s) := by
  obtain ⟨hms, h⟩ | ⟨hms, h⟩ := execEncb_cases s
  · rw [h, execEncb_of_not_msValid (s := withDk d v s) hms]
    rfl
  · rw [h, execEncb_of_msValid (s := withDk d v s) hms]
    rfl

theorem execDecb_withDk {s : State} (hdk : needsDk s.mode = false) :
    execDecb (withDk d v s) = mapNext (withDk d v) (execDecb s) := by
  have hready : ¬ needsDk s.mode = true := by simp [hdk]
  obtain ⟨hms | hfail, h⟩ | ⟨hms, -, h⟩ := execDecb_cases s
  · rw [h, execDecb_of_not_ready (s := withDk d v s) (.inl hms)]
    rfl
  · exact absurd hfail.1 hready
  · rw [h, execDecb_of_ready (s := withDk d v s) hms (absurd · hready), decStep_withDk d v hdk]
    rfl

theorem execEncbuf_withDk (s : State) : execEncbuf (withDk d v s) = mapNext (withDk d v) (execEncbuf s) := by
  simp only [execEncbuf, encRun_withDk, apply_ite (mapNext (withDk d v))]
  rfl

theorem execDecbuf_withDk {s : State} (h : needsDk s.mode = false) :
    execDecbuf (withDk d v s) = mapNext (withDk d v) (execDecbuf s) := by
  simp only [execDecbuf, withDk_mode, h, Bool.false_eq_true, false_and, if_false, decRun_withDk d v h,
    apply_ite (mapNext (withDk d v))]
  rfl

/-- The encrypting commands, and the decrypting ones in a mode that needs no decryption schedule. -/
theorem exec_withDk {i : Instr} {s : State}
    (h : i = .encb ∨ i = .encbuf ∨ ((i = .decb ∨ i = .decbuf) ∧ needsDk s.mode = false)) :
    exec i (withDk d v s) = mapNext (withDk d v) (exec i s) := by
  obtain rfl | rfl | ⟨rfl | rfl, hdk⟩ := h
  · exact execEncb_withDk d v s
  · exact execEncbuf_withDk d v s
  · exact execDecb_withDk d v hdk
  · exact execDecbuf_withDk d v hdk

end

end Sys2Proof.Machine
end

section
/-! CERTIFICATE. The statements about the mode sessions (spec/43_modes.md). -/

namespace Sys2Proof.Certificates

open Sys2Proof.Machine

/-- Settles O27: the failures are the tests of R230 in their order. -/
theorem mstartStartsSession : Obligations.MstartStartsSession := by
  unfold Obligations.MstartStartsSession
  refine ⟨by decide, fun w s hop hne => issueCommand_of_not_encode (op := .mstart) hop (fun _ mode v => hne mode v) s,
    fun mode v s hm => exec_of_not_wellFormed (i := .mstart mode v) (modeImplemented_eq_false hm) s,
    fun m v s hek => execMstart_of_not_ekValid hek m v, fun m s hek hm => execMstart_of_missing_iv hek hm,
    fun m v s hek hv => ⟨_, execMstart_of_ready hek hv, rfl, fun h => if_pos h, fun h => if_neg (by simp [h]), rfl, rfl,
      rfl, rfl, rfl, fun x => rfl⟩⟩

/-- Settles O28, mode by mode. -/
theorem encbEncryptsOneBlock : Obligations.EncbEncryptsOneBlock := by
  unfold Obligations.EncbEncryptsOneBlock
  refine ⟨rfl, fun w s hop hne => issueCommand_of_not_encode (op := .encb) hop (fun _ _ _ => hne) s,
    fun s hms => execEncb_of_not_msValid hms, fun s hms => ⟨_, execEncb_of_msValid hms, rfl, rfl, fun hm => ?ecb,
      fun hm => ?cbc, fun hm => ?cfb, fun hm => ?ofb, fun hm => ?ctr, enc_eq_blockEncrypt s, rfl, fun x => rfl⟩⟩
  case ecb => exact Prod.ext_iff.mp (encStep_of_ecb hm s.din)
  case cbc =>
    obtain ⟨hout, hchain⟩ := Prod.ext_iff.mp (encStep_of_cbc hm s.din)
    exact ⟨hout, hchain.trans hout.symm⟩
  case cfb =>
    obtain ⟨hout, hchain⟩ := Prod.ext_iff.mp (encStep_of_cfb hm s.din)
    exact ⟨hout, hchain.trans hout.symm⟩
  case ofb => exact Prod.ext_iff.mp (encStep_of_ofb hm s.din)
  case ctr => exact Prod.ext_iff.mp (encStep_of_ctr hm s.din)

/-- Settles O29, mode by mode; in OFB and CTR the step is that of `ENCB`. -/
theorem decbDecryptsOneBlock : Obligations.DecbDecryptsOneBlock := by
  unfold Obligations.DecbDecryptsOneBlock
  simp only [← needsDk_iff]
  refine ⟨rfl, fun w s hop hne => issueCommand_of_not_encode (op := .decb) hop (fun _ _ _ => hne) s,
    fun s hready => execDecb_of_not_ready hready, fun s hms hdk => ⟨_, execDecb_of_ready hms hdk, rfl, rfl, fun hm => ?ecb,
      fun hm => ?cbc, fun hm => ?cfb, fun hm => ?ofb, fun hm => ?ctr, fun hm => ?encb, dec_eq_blockDecrypt s, rfl,
      fun x => rfl⟩⟩
  case ecb => exact Prod.ext_iff.mp (decStep_of_ecb hm s.din)
  case cbc => exact Prod.ext_iff.mp (decStep_of_cbc hm s.din)
  case cfb => exact Prod.ext_iff.mp (decStep_of_cfb hm s.din)
  case ofb => exact Prod.ext_iff.mp ((decStep_eq_encStep (.inl hm) s.din).trans (encStep_of_ofb hm s.din))
  case ctr => exact Prod.ext_iff.mp ((decStep_eq_encStep (.inr hm) s.din).trans (encStep_of_ctr hm s.din))
  case encb => rw [exec_encb, execEncb_of_msValid hms, decStep_eq_encStep hm]

/-- Settles O32: the modes other than ECB and CBC need no decryption schedule, and a command without one never reads it. -/
theorem inverseCipherOnlyInEcbAndCbcDecrypt : Obligations.InverseCipherOnlyInEcbAndCbcDecrypt := by
  unfold Obligations.InverseCipherOnlyInEcbAndCbcDecrypt
  refine ⟨fun enc dec dec' m x c hecb hcbc => congrFun₂ (modeDec_congr_dec (needsDk_eq_false hecb hcbc) enc dec dec') x c,
    fun enc enc' dec m x c hm => congrFun₂ (modeDec_congr_enc ((needsDk_iff m).mpr hm) enc enc' dec) x c,
    fun i s t d v hi h => ?commands⟩
  case commands =>
    have hi' := hi.imp_right (Or.imp_right (And.imp_right fun hm => needsDk_eq_false hm.1 hm.2))
    exact (exec_withDk d v hi').trans (congrArg (mapNext (withDk d v)) h)

end Sys2Proof.Certificates
end

section
/-! SUPPORT. PKCS#7 padding byte by byte (spec/44_buffer.md R261, R263), and how each test of the buffer commands after the
valid flags ends them (R264 to R270, R275). -/

namespace Sys2Proof.Machine

/-! ### Padding -/

theorem blockByte_pad {t : List Byte} (ht : t.length ≤ 15) {i : Nat} (hi : i < 16) :
    blockByte (pad t) i = if i < t.length then t.getD i 0 else BitVec.ofNat 8 (16 - t.length) := by
  rw [pad, blockByte_blockOfBytes _ (by simp; omega)]
  split
  case isTrue h => exact List.getD_append _ _ _ _ h
  case isFalse h =>
    rw [List.getD_append_right _ _ _ _ (by omega)]
    exact List.getD_replicate _ (by omega)

theorem padCheck_eq_some_iff (b : Block128) (k : Nat) :
    padCheck b = some k ↔
      1 ≤ k ∧ k ≤ 16 ∧ (blockByte b 15).toNat = k ∧ ∀ j, 16 - k ≤ j → j ≤ 15 → (blockByte b j).toNat = k := by
  simp only [padCheck, Option.ite_none_right_eq_some, Option.some.injEq, List.all_eq_true, List.mem_range, beq_iff_eq]
  constructor
  · rintro ⟨⟨hpos, hle, hall⟩, rfl⟩
    refine ⟨hpos, hle, rfl, fun j hlo hhi => ?_⟩
    obtain ⟨d, rfl⟩ := Nat.exists_eq_add_of_le hlo
    rw [hall d (by omega)]
  · rintro ⟨hpos, hle, rfl, hall⟩
    exact ⟨⟨hpos, hle, fun j hj => BitVec.eq_of_toNat_eq (hall _ (by omega) (by omega))⟩, rfl⟩

/-- R263: `PadCheck` reads back the length that `Pad` wrote. -/
theorem padCheck_pad {t : List Byte} (ht : t.length ≤ 15) : padCheck (pad t) = some (16 - t.length) := by
  have hpadding {j : Nat} (hlo : t.length ≤ j) (hhi : j ≤ 15) : (blockByte (pad t) j).toNat = 16 - t.length := by
    rw [blockByte_pad ht (by omega), if_neg (by omega), BitVec.toNat_ofNat]
    omega
  exact (padCheck_eq_some_iff _ _).mpr
    ⟨by omega, by omega, hpadding ht le_rfl, fun j hlo hhi => hpadding (by omega) hhi⟩

/-- The padding of the empty buffer: one block of the byte 16. -/
theorem pad_nil : pad [] = fips 0x10101010101010101010101010101010 := by decide +kernel

/-! ### The tests of `ENCBUF` after its valid flag -/

theorem execEncbuf_of_too_large {s : State} (hms : s.msValid = true) (hreq : 2 ^ s.platform.aw ≤ encReq s.srcLen) :
    execEncbuf s = .next (withStatus .addrRange .none s) := by
  rw [execEncbuf, if_neg (by simp [hms]), if_pos hreq, failWith_eq]

section
variable {s : State} (hms : s.msValid = true) (hreq : encReq s.srcLen < 2 ^ s.platform.aw)
include hms hreq

theorem execEncbuf_of_null_destination (hdst : s.dstAddr = 0) :
    execEncbuf s = .next (withStatus .success .none { s with dstLen := encReq s.srcLen }) := by
  rw [execEncbuf, if_neg (by simp [hms]), if_neg hreq.not_ge, if_pos hdst, succeed_eq]

theorem execEncbuf_of_null_source (hdst : s.dstAddr ≠ 0) (hsrc : s.srcAddr = 0) (hlen : 0 < s.srcLen) :
    execEncbuf s = .next (withStatus .nullArgument .src s) := by
  rw [execEncbuf, if_neg (by simp [hms]), if_neg hreq.not_ge, if_neg hdst, if_pos ⟨hsrc, hlen⟩, failWith_eq]

theorem execEncbuf_of_small_destination (hdst : s.dstAddr ≠ 0) (hsrc : s.srcAddr = 0 → s.srcLen = 0)
    (hcap : s.dstLen < encReq s.srcLen) : execEncbuf s = .next (withStatus .dstTooSmall .none s) := by
  have hnull : ¬ (s.srcAddr = 0 ∧ 0 < s.srcLen) := by omega
  rw [execEncbuf, if_neg (by simp [hms]), if_neg hreq.not_ge, if_neg hdst, if_neg hnull, if_pos hcap, failWith_eq]

end

/-! ### The tests of `DECBUF` after its valid flags and `MISSING_PADDING` -/

section
variable {s : State} (hms : s.msValid = true) (hdk : needsDk s.mode = true → s.dkValid = true) (hlen : s.srcLen ≠ 0)
  (hmod : s.srcLen % 16 = 0)
include hms hdk hlen hmod

/-- The first three tests of R275 passed. -/
theorem execDecbuf_of_whole_blocks :
    execDecbuf s =
      if s.dstAddr = 0 then succeed { s with dstLen := s.srcLen }
      else if s.srcAddr = 0 then failWith .nullArgument .src s
      else if s.dstLen < s.srcLen then failWith .dstTooSmall .none s
      else if rangeOk s.platform s.srcAddr s.srcLen s.dstAddr s.srcLen = false then failWith .addrRange .none s
      else decRun s := by
  have hready : ¬ (needsDk s.mode = true ∧ s.dkValid = false) := fun h => by simp [hdk h.1] at h
  have hwhole : ¬ (s.srcLen = 0 ∨ s.srcLen % 16 ≠ 0) := by omega
  rw [execDecbuf, if_neg (by simp [hms]), if_neg hready, if_neg hwhole]

theorem execDecbuf_of_null_destination (hdst : s.dstAddr = 0) :
    execDecbuf s = .next (withStatus .success .none { s with dstLen := s.srcLen }) := by
  rw [execDecbuf_of_whole_blocks hms hdk hlen hmod, if_pos hdst, succeed_eq]

theorem execDecbuf_of_null_source (hdst : s.dstAddr ≠ 0) (hsrc : s.srcAddr = 0) :
    execDecbuf s = .next (withStatus .nullArgument .src s) := by
  rw [execDecbuf_of_whole_blocks hms hdk hlen hmod, if_neg hdst, if_pos hsrc, failWith_eq]

theorem execDecbuf_of_small_destination (hdst : s.dstAddr ≠ 0) (hsrc : s.srcAddr ≠ 0) (hcap : s.dstLen < s.srcLen) :
    execDecbuf s = .next (withStatus .dstTooSmall .none s) := by
  rw [execDecbuf_of_whole_blocks hms hdk hlen hmod, if_neg hdst, if_neg hsrc, if_pos hcap, failWith_eq]

end

/-! ### The empty buffer (R266) -/

/-- The real run on an empty source writes one encrypted block of padding. -/
theorem encRun_of_empty {s : State} (h : s.srcLen = 0) :
    encRun s = .next (withStatus .success .none
      { encBlockTo 0 (pad []) s with dstLen := 16 }) := by
  have htail : encTail s = pad [] := by
    rw [encTail, h]
    rfl
  rw [encRun, h, Nat.zero_div]
  simp only [encChunks]
  rw [htail, succeed_eq]
  rfl

theorem memRead_memWrite_same {m : Memory} (addr : Nat) (v : List Byte) (h : Memory.wf m = true) :
    memRead (memWrite m addr v) addr v.length = v := by
  apply List.ext_getElem (memRead_length _ _ _)
  intro j _ hj
  simp only [memRead, List.getElem_map, List.getElem_range, memWrite_read_inside addr v h hj]
  exact List.getD_eq_getElem v 0 hj

end Sys2Proof.Machine
end

section
/-! SUPPORT. The chunk loops as the mode's stream over the source blocks (spec/20_memory.md R75; spec/44_buffer.md R275,
R278): disjoint or in place, no step reads a source byte that an earlier step has overwritten. -/

namespace Sys2Proof.Machine

/-! ### Streams and their bytes -/

theorem stream_append_singleton (f : Block128 → Block128 → Block128 × Block128) (xs : List Block128) (x c : Block128) :
    stream f (xs ++ [x]) c = ((stream f xs c).1 ++ [(f x (stream f xs c).2).1], (f x (stream f xs c).2).2) := by
  induction xs generalizing c with
  | nil => rfl
  | cons y ys ih => rw [List.cons_append, stream, stream, ih, List.cons_append]

@[simp] theorem stream_length (f : Block128 → Block128 → Block128 × Block128) (xs : List Block128) (c : Block128) :
    (stream f xs c).1.length = xs.length := by
  induction xs generalizing c with
  | nil => rfl
  | cons y ys ih => rw [stream, List.length_cons, List.length_cons, ih]

@[simp] theorem blocksBytes_length (xs : List Block128) : (blocksBytes xs).length = 16 * xs.length := by
  simp [blocksBytes, List.length_flatMap, Nat.mul_comm]

theorem blocksBytes_append_singleton (xs : List Block128) (x : Block128) :
    blocksBytes (xs ++ [x]) = blocksBytes xs ++ blockBytes x := by
  simp [blocksBytes]

/-- A store right above an earlier one: together they lay down both byte vectors. -/
theorem storedByte_append {m m' : Memory} {addr : Nat} {v : List Byte} (h : ∀ a, Memory.read m' a = storedByte m addr v a)
    (w : List Byte) (a : Nat) : storedByte m' (addr + v.length) w a = storedByte m addr (v ++ w) a := by
  rw [storedByte, h]
  simp only [storedByte, List.length_append]
  by_cases hw : addr + v.length ≤ a ∧ a < addr + v.length + w.length
  · rw [if_pos hw, if_pos (by omega), List.getD_append_right _ _ _ _ (by omega), Nat.sub_add_eq]
  · rw [if_neg hw]
    by_cases hv : addr ≤ a ∧ a < addr + v.length
    · rw [if_pos hv, if_pos (by omega), List.getD_append _ _ _ _ (by omega)]
    · rw [if_neg hv, if_neg (by omega)]

/-! ### The source ahead of the destination -/

/-- When its step comes, the chunk of each source byte lies outside the destination blocks written before. -/
def SourceAhead (s : State) : Prop :=
  ∀ x < s.srcLen, ¬ (s.dstAddr ≤ s.srcAddr + x ∧ s.srcAddr + x < s.dstAddr + 16 * (x / 16))

theorem sourceAhead_of_rangeOk {s : State} {req : Nat} (hreq : s.srcLen ≤ req)
    (h : rangeOk s.platform s.srcAddr s.srcLen s.dstAddr req = true) : SourceAhead s := by
  simp only [rangeOk, rangesDisjoint, Bool.and_eq_true, Bool.or_eq_true, decide_eq_true_eq] at h
  obtain ⟨-, hdisjoint⟩ := h
  intro x hx
  omega

/-- The source chunks of a buffer are the blocks of the bytes it holds (R64). -/
theorem fullChunks_source (s : State) : fullChunks (s.srcLen / 16) (memRead s.mem s.srcAddr s.srcLen) =
    (List.range (s.srcLen / 16)).map (srcChunk s) := by
  apply List.map_congr_left
  intro i hi
  rw [List.mem_range] at hi
  rw [srcChunk]
  congr 1
  apply List.ext_getElem
  · simp; omega
  · intro j _ _
    simp [memRead, Nat.add_assoc]

/-! ### Steps over the source blocks -/

/-- The state `t` that a run from `s` has reached after the steps `f` over the blocks `xs`: `S` is the stream's, the stream's
bytes are stored from the destination address up, and nothing else has changed. -/
structure StepsDone (f : Block128 → Block128 → Block128 × Block128) (s : State) (xs : List Block128) (t : State) : Prop where
  frame : t = { s with chain := t.chain, mem := t.mem }
  canonical : Memory.wf t.mem = true
  chain : t.chain = (stream f xs s.chain).2
  stored : ∀ a, Memory.read t.mem a = storedByte s.mem s.dstAddr (blocksBytes (stream f xs s.chain).1) a

theorem StepsDone.nil (f : Block128 → Block128 → Block128 × Block128) {s : State} (h : Memory.wf s.mem = true) :
    StepsDone f s [] s :=
  ⟨rfl, h, rfl, fun a => (if_neg (by simp [stream, blocksBytes])).symm⟩

/-- One more step, its output stored as the next destination block. -/
theorem StepsDone.snoc {f : Block128 → Block128 → Block128 × Block128} {s t u : State} {xs : List Block128} {x : Block128}
    (h : StepsDone f s xs t) (hframe : u = { t with chain := u.chain, mem := u.mem }) (hchain : u.chain = (f x t.chain).2)
    (hmem : u.mem = memWrite t.mem (s.dstAddr + 16 * xs.length) (blockBytes (f x t.chain).1)) :
    StepsDone f s (xs ++ [x]) u := by
  refine ⟨?_, ?_, ?_, fun a => ?_⟩
  · rw [hframe, h.frame]
  · rw [hmem]
    exact memWrite_wf _ _ h.canonical
  · rw [stream_append_singleton, hchain, h.chain]
  · have hnext : 16 * xs.length = (blocksBytes (stream f xs s.chain).1).length := by simp
    rw [stream_append_singleton, ← h.chain, blocksBytes_append_singleton, ← storedByte_append h.stored, ← hnext, hmem]
    exact memWrite_read _ _ h.canonical a

/-- The steps done so far have left the next source chunk as it was. -/
theorem StepsDone.srcChunk_eq {f : Block128 → Block128 → Block128 × Block128} {s t : State} {xs : List Block128}
    (h : StepsDone f s xs t) (hahead : SourceAhead s) (hlen : 16 * xs.length + 16 ≤ s.srcLen) :
    srcChunk t xs.length = srcChunk s xs.length := by
  obtain ⟨hframe, -, -, hstored⟩ := h
  have hsrc : t.srcAddr = s.srcAddr := by rw [hframe]
  rw [srcChunk, srcChunk, hsrc]
  refine congrArg blockOfBytes (memRead_congr fun j hj => ?_)
  have hclear := hahead (16 * xs.length + j) (by omega)
  rw [hstored, storedByte, blocksBytes_length, stream_length, if_neg (by omega)]

/-! ### The run of `DECBUF` -/

theorem decStep_of_frame {s t : State} (h : t = { s with chain := t.chain, mem := t.mem }) (x : Block128) :
    t.decStep x = modeDec s.enc s.dec s.mode x t.chain := by
  rw [h]
  rfl

theorem decChunks_stepsDone {s : State} (hahead : SourceAhead s) (n i : Nat) {t : State} (hlen : 16 * (i + n) ≤ s.srcLen)
    (h : StepsDone (modeDec s.enc s.dec s.mode) s ((List.range i).map (srcChunk s)) t) :
    StepsDone (modeDec s.enc s.dec s.mode) s ((List.range (i + n)).map (srcChunk s)) (decChunks n i t) := by
  induction n generalizing i t with
  | zero => exact h
  | succ n ih =>
    have hdst : t.dstAddr = s.dstAddr := by rw [h.frame]
    have hchunk := h.srcChunk_eq hahead (by rw [List.length_map, List.length_range]; omega)
    rw [List.length_map, List.length_range] at hchunk
    have hstep := decStep_of_frame h.frame (srcChunk s i)
    have hnext : StepsDone (modeDec s.enc s.dec s.mode) s ((List.range (i + 1)).map (srcChunk s))
        (decBlockTo i 16 (srcChunk t i) t) := by
      rw [List.range_succ, List.map_append, List.map_singleton, hchunk]
      refine h.snoc (decBlockTo_frame _ _ _ _) ?_ ?_
      · rw [decBlockTo_chain, hstep]
      · rw [decBlockTo_mem, hstep, hdst, List.length_map, List.length_range, List.take_of_length_le (blockBytes_length _).le]
    rw [decChunks, show i + (n + 1) = i + 1 + n by omega]
    exact ih (i + 1) (by omega) hnext

theorem decRunOk_iff (s : State) : decRunOk s = true ↔
    s.msValid = true ∧ (needsDk s.mode = true → s.dkValid = true) ∧ s.srcLen ≠ 0 ∧ s.srcLen % 16 = 0 ∧ s.dstAddr ≠ 0 ∧
    s.srcAddr ≠ 0 ∧ s.srcLen ≤ s.dstLen ∧ rangeOk s.platform s.srcAddr s.srcLen s.dstAddr s.srcLen = true := by
  have hdk : (needsDk s.mode = false ∨ s.dkValid = true) ↔ (needsDk s.mode = true → s.dkValid = true) := by
    cases needsDk s.mode <;> simp
  simp only [decRunOk, Bool.and_eq_true, Bool.or_eq_true, Bool.not_eq_true', decide_eq_true_eq, hdk, Nat.pos_iff_ne_zero,
    and_assoc]

theorem execDecbuf_of_decRunOk {s : State} (h : decRunOk s = true) : execDecbuf s = decRun s := by
  obtain ⟨hms, hdk, hlen, hmod, hdst, hsrc, hcap, hrange⟩ := (decRunOk_iff s).mp h
  rw [execDecbuf_of_capacity hms hdk hlen hmod hdst hsrc hcap, if_neg (by simp [hrange])]

/-- The source chunks of a `DECBUF` before the last one. -/
def leadingChunks (s : State) : List Block128 := (List.range (s.srcLen / 16 - 1)).map (srcChunk s)

/-- The state in which `DECBUF` comes to its last chunk. -/
def decLeading (s : State) : State := decChunks (s.srcLen / 16 - 1) 0 s

@[simp] theorem leadingChunks_length (s : State) : (leadingChunks s).length = s.srcLen / 16 - 1 := by
  simp [leadingChunks]

theorem source_eq_leadingChunks {s : State} (h : 16 ≤ s.srcLen) :
    fullChunks (s.srcLen / 16) (memRead s.mem s.srcAddr s.srcLen) = leadingChunks s ++ [srcChunk s (s.srcLen / 16 - 1)] := by
  obtain ⟨n, hn⟩ : ∃ n, s.srcLen / 16 = n + 1 := ⟨s.srcLen / 16 - 1, by omega⟩
  rw [fullChunks_source, leadingChunks, hn, Nat.add_sub_cancel, List.range_succ, List.map_append, List.map_singleton]

section
variable {s : State} (hwf : Memory.wf s.mem = true) (hok : decRunOk s = true)
include hwf hok

theorem decLeading_stepsDone : StepsDone (modeDec s.enc s.dec s.mode) s (leadingChunks s) (decLeading s) := by
  obtain ⟨-, -, -, -, -, -, -, hrange⟩ := (decRunOk_iff s).mp hok
  have hdone := decChunks_stepsDone (sourceAhead_of_rangeOk le_rfl hrange) (s.srcLen / 16 - 1) 0 (by omega)
    (StepsDone.nil _ hwf)
  rwa [Nat.zero_add] at hdone

/-- The step over the last chunk yields the last block of the output and the final `S`. -/
theorem decRun_last_step :
    (decOutput s).1 = (stream (modeDec s.enc s.dec s.mode) (leadingChunks s) s.chain).1 ++ [decLastBlock s] ∧
    (decLeading s).decStep (srcChunk (decLeading s) (s.srcLen / 16 - 1)) = (decLastBlock s, (decOutput s).2) := by
  obtain ⟨-, -, hlen, hmod, -, -, -, hrange⟩ := (decRunOk_iff s).mp hok
  have hdone := decLeading_stepsDone hwf hok
  have hchunk := hdone.srcChunk_eq (sourceAhead_of_rangeOk le_rfl hrange) (by rw [leadingChunks_length]; omega)
  rw [leadingChunks_length] at hchunk
  have hout : decOutput s = ((stream (modeDec s.enc s.dec s.mode) (leadingChunks s) s.chain).1 ++
      [((decLeading s).decStep (srcChunk s (s.srcLen / 16 - 1))).1],
      ((decLeading s).decStep (srcChunk s (s.srcLen / 16 - 1))).2) := by
    rw [decOutput, source_eq_leadingChunks (by omega), stream_append_singleton, ← hdone.chain,
      ← decStep_of_frame hdone.frame]
  have hlast : decLastBlock s = ((decLeading s).decStep (srcChunk s (s.srcLen / 16 - 1))).1 := by
    rw [decLastBlock, hout, List.getLastD_concat]
  rw [hchunk, hlast, hout]
  exact ⟨rfl, rfl⟩

theorem decRun_of_invalid_padding (hpad : padCheck (decLastBlock s) = none) :
    decRun s = .next (withStatus .invalidPadding .none
      { decLeading s with chain := (decOutput s).2, dstLen := 16 * (s.srcLen / 16 - 1) }) := by
  obtain ⟨-, hstep⟩ := decRun_last_step hwf hok
  rw [decLeading] at hstep
  simp only [decRun, hstep, hpad, failWith_eq]
  rfl

end

end Sys2Proof.Machine
end

section
/-! CERTIFICATE. The statements about the buffer layer (spec/44_buffer.md). -/

namespace Sys2Proof.Certificates

open Sys2Proof.Machine

/-- Settles O36, byte by byte of the padded block. -/
theorem paddingIsPkcs7 : Obligations.PaddingIsPkcs7 := by
  unfold Obligations.PaddingIsPkcs7
  refine ⟨fun n => ⟨rfl, ?_⟩, fun t ht i hi => blockByte_pad ht hi, padCheck_eq_some_iff, fun t ht => padCheck_pad ht⟩
  rw [padLen]
  omega

/-- Settles O38: the sizing query is the test of R270 and of R275 before the source and the capacity are examined. -/
theorem sizingQueryAnswersRequiredSize : Obligations.SizingQueryAnswersRequiredSize := by
  unfold Obligations.SizingQueryAnswersRequiredSize
  simp only [← needsDk_iff]
  refine ⟨fun n => ?sizes, fun s hms hreq hdst => execEncbuf_of_null_destination hms hreq hdst,
    fun s hms hreq => execEncbuf_of_too_large hms hreq,
    fun s hms hdk hlen hmod hdst => execDecbuf_of_null_destination hms hdk hlen hmod hdst⟩
  case sizes =>
    rw [encReq, padLen]
    omega

/-- Settles O39: the failures are two tests of R270 and of R275; on an empty source the run of `ENCBUF` is its last step. -/
theorem realRunNeedsSourceAndCapacity : Obligations.RealRunNeedsSourceAndCapacity := by
  unfold Obligations.RealRunNeedsSourceAndCapacity
  simp only [← needsDk_iff]
  refine ⟨fun s hms hreq hdst hsrc hlen => execEncbuf_of_null_source hms hreq hdst hsrc hlen,
    fun s hms hreq hdst hsrc hcap => execEncbuf_of_small_destination hms hreq hdst hsrc hcap,
    fun s hms hdk hlen hmod hdst hsrc => execDecbuf_of_null_source hms hdk hlen hmod hdst hsrc,
    fun s hms hdk hlen hmod hdst hsrc hcap => execDecbuf_of_small_destination hms hdk hlen hmod hdst hsrc hcap,
    fun s hwf hms hreq hdst hlen hcap hrange => ?empty⟩
  case empty =>
    have hone : encReq s.srcLen = 16 := by rw [hlen]; rfl
    have hrun : exec .encbuf s = encRun s := by
      rw [exec_encbuf, execEncbuf_of_capacity hms (hone ▸ hreq) hdst (fun _ => hlen) (hone ▸ hcap), hone, hlen,
        if_neg (by simp [hrange])]
    have hread := memRead_memWrite_same s.dstAddr (blockBytes (s.encStep (pad [])).1) hwf
    rw [blockBytes_length] at hread
    refine ⟨_, hrun.trans (encRun_of_empty hlen), rfl, rfl, ?_⟩
    simp only [withStatus_mem, encBlockTo_mem, Nat.mul_zero, Nat.add_zero, ← pad_nil]
    exact hread

/-- Settles O42: the steps before the last have stored the stream's other blocks, and no other failure reaches a step. -/
theorem invalidPaddingEffects : Obligations.InvalidPaddingEffects := by
  unfold Obligations.InvalidPaddingEffects
  refine ⟨fun s hwf hok hpad => ?run, fun i s t h hfail hother => ?failures⟩
  case run =>
    obtain ⟨hms, -⟩ := (decRunOk_iff s).mp hok
    obtain ⟨hout, -⟩ := decRun_last_step hwf hok
    have hdone := decLeading_stepsDone hwf hok
    have hrun := decRun_of_invalid_padding hwf hok hpad
    refine ⟨_, (execDecbuf_of_decRunOk hok).trans hrun, rfl, rfl, rfl, rfl, ?_, fun a => ?_, ?_⟩
    · rw [hdone.frame]; exact hms
    · rw [hout, blocksBytes_append_singleton, List.take_left' (by simp)]
      exact hdone.stored a
    · rw [hdone.frame]; rfl
  case failures =>
    have hend := exec_ends i s
    rw [h] at hend
    cases hend with
    | failure => rfl
    | badPadding x m n hi => exact absurd ⟨hi, rfl⟩ hother
    | success u => exact absurd rfl hfail

end Sys2Proof.Certificates
end

section
/-! SUPPORT. How `INIT` ends, test by test (spec/45_session_control.md R300), and that its context is the one `KEXP`, `KINV` and
`MSTART` build one after the other. -/

namespace Sys2Proof.Machine

theorem execInit_of_missing_iv (a : Alg) {m : Mode} (hm : m ≠ .ecb) (s : State) :
    execInit (algCode a) (modeCode m) false s = .next (withStatus .nullArgument .iv s) := by
  rw [execInit, algOf_algCode, modeOf_modeCode]
  exact if_pos ⟨(needsIv_iff m).mpr hm, rfl⟩

theorem execInit_of_ready (a : Alg) {m : Mode} {v : Bool} (hv : m ≠ .ecb → v = true) (s : State) :
    execInit (algCode a) (modeCode m) v s = .next (withStatus .success .none (initContext a m v s)) := by
  have hiv : ¬ (needsIv m = true ∧ v = false) := fun ⟨hm, hf⟩ => by simp [hv ((needsIv_iff m).mp hm)] at hf
  rw [execInit, algOf_algCode, modeOf_modeCode]
  exact if_neg hiv

/-- An `INIT` word with a tag that has no table entry (R92) carries an ill-formed instruction. -/
theorem init_wellFormed_eq_false {alg : BitVec 2} {mode : BitVec 3} (h : alg = 3 ∨ 5 ≤ mode.toNat) (v : Bool) :
    (Instr.init alg mode v).wellFormed = false := by
  rw [Instr.wellFormed, Bool.and_eq_false_iff]
  exact h.imp (fun halg => by rw [halg]; rfl) modeImplemented_eq_false

/-- `KINV` inverts the sequence `KEXP` expanded, since it reads back exactly the entries `KEXP` wrote. -/
theorem kexp_kinv_mstart_reach_initContext (a : Alg) {m : Mode} {v : Bool} (hv : m ≠ .ecb → v = true) (s : State) :
    ∃ s1 s2, execKexp (algCode a) s = .next s1 ∧ execKinv s1 = .next s2 ∧
      execMstart (modeCode m) v s2 = .next (withStatus .success .none (initContext a m v s)) := by
  refine ⟨_, _, execKexp_algCode a s, execKinv_of_ekValid rfl, (execMstart_of_ready rfl hv).trans ?_⟩
  have hread : fileKeys (nr a) (keyFile (nr a) (s.expandKey a)) = s.expandKey a := fileKeys_expand a _
  simp only [withStatus, withFlags, initContext, hread]

/-- `CTX` of a context with both schedules and a session (R31). -/
theorem ctxWord_toNat_of_session {s : State} (hek : s.ekValid = true) (hdk : s.dkValid = true) (hms : s.msValid = true) :
    (ctxWord s).toNat = 0xE0 + s.ivValid.toNat * 0x100 + 4 * (modeCode s.mode).toNat + (algCode s.alg).toNat := by
  rw [ctxWord, hek, hdk, hms]
  generalize s.ivValid = v, modeCode s.mode = mode, algCode s.alg = alg
  revert v mode alg
  decide

end Sys2Proof.Machine
end

section
/-! CERTIFICATE. The statements about the session control commands (spec/45_session_control.md). -/

namespace Sys2Proof.Certificates

open Sys2Proof.Machine

/-- Settles O30: the context `INIT` writes is the one the three commands reach, and its failures are the tests of R300. -/
theorem initBuildsContext : Obligations.InitBuildsContext := by
  unfold Obligations.InitBuildsContext
  refine ⟨by decide, fun w s hop hne => issueCommand_of_not_encode (op := .init) hop hne s,
    fun alg mode v s h => exec_of_not_wellFormed (init_wellFormed_eq_false h v) s,
    fun a m s hm => execInit_of_missing_iv a hm s,
    fun a m v s hv => ⟨_, execInit_of_ready a hv s, fun i => ?ek, fun i => ?dk, rfl, rfl, fun h => if_pos h,
      fun h => if_neg (by simp [h]), rfl, rfl, rfl, rfl, rfl, rfl, ctxWord_toNat_of_session rfl rfl rfl,
      kexp_kinv_mstart_reach_initContext a hv s, rfl, fun x => rfl⟩⟩
  case ek => exact keyFile_getElem _ _ i.isLt
  case dk => exact keyFile_getElem _ _ i.isLt

/-- Settles O31: `CLEAR` ends in the state of `Reset`, whose every register is zero. -/
theorem clearDiscardsContext : Obligations.ClearDiscardsContext := by
  unfold Obligations.ClearDiscardsContext
  refine ⟨rfl, fun w s hop hne => issueCommand_of_not_encode (op := .clear) hop (fun _ _ _ => hne) s,
    fun s => ⟨resetEngine s, execClear_eq_reset s, rfl, rfl, rfl, rfl, rfl, rfl, fun i => ?keys, rfl, rfl, rfl, rfl, rfl,
      rfl, rfl, rfl, rfl, rfl, rfl, rfl, rfl, fun x => rfl⟩⟩
  case keys => exact ⟨zeroFile_getElem i.isLt, zeroFile_getElem i.isLt⟩

end Sys2Proof.Certificates
end

section
/-! SUPPORT. The failure table of R340 as the chain of tests each command makes, and that every command answers as the table
does. -/

namespace Sys2Proof.Machine

/-! ### Tags with a table entry (R91) -/

theorem exists_algCode_of_algImplemented {c : BitVec 2} (h : algImplemented c = true) : ∃ a, c = algCode a :=
  (algCode_cases c).resolve_right (of_decide_eq_true h)

theorem exists_modeCode_of_modeImplemented {c : BitVec 3} (h : modeImplemented c = true) : ∃ m, c = modeCode m := by
  refine (modeCode_cases c).resolve_right fun hnone => ?_
  revert c
  decide

/-! ### The first row whose test holds -/

/-- The answer of the first row of a table whose test holds. -/
def firstRow (rows : List (Bool × RowAnswer)) : Option RowAnswer := (rows.find? fun r => r.1).map fun r => r.2

theorem firstAnswer_eq_firstRow (i : Instr) (s : State) : firstAnswer i s = firstRow (failureRows i s) := rfl

@[simp] theorem firstRow_nil : firstRow [] = none := rfl

@[simp] theorem firstRow_cons (test : Bool) (a : RowAnswer) (rows : List (Bool × RowAnswer)) :
    firstRow ((test, a) :: rows) = if test = true then some a else firstRow rows := by
  cases test <;> rfl

/-- The row of code 7 is the test of R92 on the tags the instruction carries. -/
theorem firstAnswer_of_not_wellFormed {i : Instr} (h : i.wellFormed = false) (s : State) :
    firstAnswer i s = some (.fails .notImplemented .none) := by
  rw [firstAnswer_eq_firstRow, failureRows, firstRow_cons, if_pos]
  cases i with
  | kexp alg => simpa [Instr.wellFormed, algImplemented, algField, modeField] using h
  | mstart mode v => simpa [Instr.wellFormed, modeImplemented, algField, modeField] using h
  | init alg mode v => simpa [Instr.wellFormed, algImplemented, modeImplemented, algField, modeField, imp_iff_not_or] using h
  | kinv | encb | decb | encbuf | decbuf | clear => cases h

theorem firstAnswer_kexp (a : Alg) (s : State) : firstAnswer (.kexp (algCode a)) s = none := by
  cases a <;> rfl

theorem firstAnswer_kinv (s : State) :
    firstAnswer .kinv s = if s.ekValid = false then some (.fails .notReady .none) else none := by
  simp [firstAnswer_eq_firstRow, failureRows, algField, modeField, flagMissing]

theorem firstAnswer_mstart (m : Mode) (v : Bool) (s : State) :
    firstAnswer (.mstart (modeCode m) v) s =
      if s.ekValid = false then some (.fails .notReady .none)
      else if needsIv m = true ∧ v = false then some (.fails .nullArgument .iv)
      else none := by
  cases m <;> simp [firstAnswer_eq_firstRow, failureRows, algField, modeField, flagMissing, modeCode, needsIv]

theorem firstAnswer_encb (s : State) :
    firstAnswer .encb s = if s.msValid = false then some (.fails .notReady .none) else none := by
  simp [firstAnswer_eq_firstRow, failureRows, algField, modeField, flagMissing]

theorem firstAnswer_decb (s : State) :
    firstAnswer .decb s =
      if s.msValid = false then some (.fails .notReady .none)
      else if needsDk s.mode = true ∧ s.dkValid = false then some (.fails .notReady .none)
      else none := by
  simp [firstAnswer_eq_firstRow, failureRows, algField, modeField, flagMissing, ite_or]

theorem firstAnswer_encbuf (s : State) :
    firstAnswer .encbuf s =
      if s.msValid = false then some (.fails .notReady .none)
      else if 2 ^ s.platform.aw ≤ encReq s.srcLen then some (.fails .addrRange .none)
      else if s.dstAddr = 0 then some .sizing
      else if s.srcAddr = 0 ∧ 0 < s.srcLen then some (.fails .nullArgument .src)
      else if s.dstLen < encReq s.srcLen then some (.fails .dstTooSmall .none)
      else if rangeOk s.platform s.srcAddr s.srcLen s.dstAddr (encReq s.srcLen) = false then some (.fails .addrRange .none)
      else none := by
  simp [firstAnswer_eq_firstRow, failureRows, algField, modeField, flagMissing, reqOf]

theorem firstAnswer_decbuf (s : State) :
    firstAnswer .decbuf s =
      if s.msValid = false then some (.fails .notReady .none)
      else if needsDk s.mode = true ∧ s.dkValid = false then some (.fails .notReady .none)
      else if s.srcLen = 0 ∨ s.srcLen % 16 ≠ 0 then some (.fails .missingPadding .none)
      else if s.dstAddr = 0 then some .sizing
      else if s.srcAddr = 0 ∧ 0 < s.srcLen then some (.fails .nullArgument .src)
      else if s.dstLen < s.srcLen then some (.fails .dstTooSmall .none)
      else if rangeOk s.platform s.srcAddr s.srcLen s.dstAddr s.srcLen = false then some (.fails .addrRange .none)
      else none := by
  simp [firstAnswer_eq_firstRow, failureRows, algField, modeField, flagMissing, reqOf, ite_or]

theorem firstAnswer_init (a : Alg) (m : Mode) (v : Bool) (s : State) :
    firstAnswer (.init (algCode a) (modeCode m) v) s =
      if needsIv m = true ∧ v = false then some (.fails .nullArgument .iv) else none := by
  have halg : ¬ algCode a = 3#2 := by cases a <;> decide
  cases m <;> simp [firstAnswer_eq_firstRow, failureRows, algField, modeField, flagMissing, halg, modeCode, needsIv]

theorem firstAnswer_clear (s : State) : firstAnswer .clear s = none := rfl

/-! ### What an answer of the table says of the result -/

/-- What the table's answer (`none` when no test holds) says of the result of the command `i` issued in the state `s`. -/
def Answers (i : Instr) (s : State) : Option RowAnswer → Result → Prop
  | some (.fails c a), r => r = .next (withStatus c a s)
  | some .sizing, r => r = .next (withStatus .success .none { s with dstLen := reqOf i s })
  | none, r => Memory.wf s.mem = true → ∃ t, r = .next t ∧ t.statusArg = .none ∧
      t.statusCode = if i = .decbuf ∧ padCheck (decLastBlock s) = none then .invalidPadding else .success

/-- A test of the command where the table has a row with the same test. -/
theorem Answers.ite {i : Instr} {s : State} {a a' : Option RowAnswer} {r r' : Result} {p : Prop} [Decidable p]
    (hpos : p → Answers i s a r) (hneg : ¬ p → Answers i s a' r') :
    Answers i s (if p then a else a') (if p then r else r') := by
  split
  case isTrue h => exact hpos h
  case isFalse h => exact hneg h

theorem answers_succeed {i : Instr} (hi : i ≠ .decbuf) (s u : State) : Answers i s none (succeed u) :=
  fun _ => ⟨_, succeed_eq u, rfl, (if_neg fun h => hi h.1).symm⟩

/-! ### Every command answers as the table does -/

theorem mstart_answers (m : Mode) (v : Bool) (s : State) :
    Answers (.mstart (modeCode m) v) s (firstAnswer (.mstart (modeCode m) v) s) (exec (.mstart (modeCode m) v) s) := by
  rw [firstAnswer_mstart, exec_mstart, execMstart, modeOf_modeCode]
  exact .ite (fun _ => rfl) fun _ => .ite (fun _ => rfl) fun _ => answers_succeed (by simp) s _

theorem init_answers (a : Alg) (m : Mode) (v : Bool) (s : State) :
    Answers (.init (algCode a) (modeCode m) v) s (firstAnswer (.init (algCode a) (modeCode m) v) s)
      (exec (.init (algCode a) (modeCode m) v) s) := by
  rw [firstAnswer_init, exec_init, execInit, algOf_algCode, modeOf_modeCode]
  exact .ite (fun _ => rfl) fun _ => answers_succeed (by simp) s _

theorem encbuf_answers (s : State) : Answers .encbuf s (firstAnswer .encbuf s) (exec .encbuf s) := by
  rw [firstAnswer_encbuf]
  exact .ite (fun _ => rfl) fun _ => .ite (fun _ => rfl) fun _ => .ite (fun _ => rfl) fun _ => .ite (fun _ => rfl) fun _ =>
    .ite (fun _ => rfl) fun _ => .ite (fun _ => rfl) fun _ => answers_succeed (by decide) s _

theorem decRun_of_valid_padding {s : State} (hwf : Memory.wf s.mem = true) (hok : decRunOk s = true) {k : Nat}
    (hpad : padCheck (decLastBlock s) = some k) : ∃ u, decRun s = .next (withStatus .success .none u) := by
  obtain ⟨-, hstep⟩ := decRun_last_step hwf hok
  rw [decLeading] at hstep
  simp only [decRun, hstep, hpad, succeed_eq]
  exact ⟨_, rfl⟩

theorem decRun_answers {s : State} (hok : decRunOk s = true) : Answers .decbuf s none (decRun s) := by
  intro hwf
  cases hpad : padCheck (decLastBlock s) with
  | none => exact ⟨_, decRun_of_invalid_padding hwf hok hpad, rfl, rfl⟩
  | some k =>
    obtain ⟨u, hu⟩ := decRun_of_valid_padding hwf hok hpad
    exact ⟨_, hu, rfl, rfl⟩

/-- `DECBUF` need not test `SRC_LEN` again for the null source: an empty buffer has failed before. -/
theorem decbuf_answers (s : State) : Answers .decbuf s (firstAnswer .decbuf s) (exec .decbuf s) := by
  rw [firstAnswer_decbuf]
  refine .ite (fun _ => rfl) fun hms => .ite (fun _ => rfl) fun hdk => .ite (fun _ => rfl) fun hwhole =>
    .ite (fun _ => rfl) fun hdst => ?_
  have hnull : (s.srcAddr = 0 ∧ 0 < s.srcLen) ↔ s.srcAddr = 0 := by omega
  rw [if_congr hnull rfl rfl]
  refine .ite (fun _ => rfl) fun hsrc => .ite (fun _ => rfl) fun hcap => .ite (fun _ => rfl) fun hrange => ?_
  have hok : decRunOk s = true := (decRunOk_iff s).mpr
    ⟨by simpa using hms, by simpa using hdk, by omega, by omega, hdst, hsrc, by omega, by simpa using hrange⟩
  exact decRun_answers hok

/-- R340: the tests of every command stand in the order of the table's rows. -/
theorem exec_answers (i : Instr) (s : State) : Answers i s (firstAnswer i s) (exec i s) := by
  cases hwf : i.wellFormed with
  | false =>
    rw [firstAnswer_of_not_wellFormed hwf]
    exact exec_of_not_wellFormed hwf s
  | true =>
    cases i with
    | kexp alg =>
      obtain ⟨a, rfl⟩ := exists_algCode_of_algImplemented hwf
      rw [firstAnswer_kexp, exec_kexp, execKexp_algCode]
      exact answers_succeed (by simp) s _
    | kinv =>
      rw [firstAnswer_kinv]
      exact .ite (fun _ => rfl) fun _ => answers_succeed (by decide) s _
    | mstart mode v =>
      obtain ⟨m, rfl⟩ := exists_modeCode_of_modeImplemented hwf
      exact mstart_answers m v s
    | encb =>
      rw [firstAnswer_encb]
      exact .ite (fun _ => rfl) fun _ => answers_succeed (by decide) s _
    | decb =>
      rw [firstAnswer_decb]
      exact .ite (fun _ => rfl) fun _ => .ite (fun _ => rfl) fun _ => answers_succeed (by decide) s _
    | encbuf => exact encbuf_answers s
    | decbuf => exact decbuf_answers s
    | init alg mode v =>
      obtain ⟨halg, hmode⟩ := Bool.and_eq_true_iff.mp hwf
      obtain ⟨a, rfl⟩ := exists_algCode_of_algImplemented halg
      obtain ⟨m, rfl⟩ := exists_modeCode_of_modeImplemented hmode
      exact init_answers a m v s
    | clear => exact answers_succeed (by decide) s _

theorem answers_of_firstAnswer {i : Instr} {s : State} {a : Option RowAnswer} (h : firstAnswer i s = a) :
    Answers i s a (exec i s) :=
  h ▸ exec_answers i s

/-- `INVALID_PADDING` stands in no other command's row of R335. -/
theorem eq_decbuf_of_allows_invalidPadding {i : Instr} (h : .invalidPadding ∈ allowedCodes i) : i = .decbuf := by
  cases i <;> simp [allowedCodes] at h ⊢

end Sys2Proof.Machine
end

section
/-! CERTIFICATE. The statements about the failures of a command (spec/60_exceptions.md). -/

namespace Sys2Proof.Certificates

open Sys2Proof.Machine

/-- Settles O44: the table is read off `exec_answers`, its first row off the decoder. -/
theorem firstFailureIsReported : Obligations.FirstFailureIsReported := by
  unfold Obligations.FirstFailureIsReported
  refine ⟨fun w s => ⟨fun ⟨e, he⟩ => ?illegal, fun i hi => issueCommand_of_decode hi s⟩,
    fun i s c a h => answers_of_firstAnswer h, fun i s h => answers_of_firstAnswer h, fun i s h => answers_of_firstAnswer h⟩
  case illegal => rw [issueCommand, he, failWith_eq, withStatus]

/-- Settles O45: of the ways a command can end, only the bad padding of `DECBUF` fails and changes more than `STATUS`. -/
theorem failureChangesOnlyStatus : Obligations.FailureChangesOnlyStatus := by
  unfold Obligations.FailureChangesOnlyStatus
  refine ⟨fun i s t h hfail => ?frame, fun i s t h hcode => ?decrypts, fun s c a => ⟨rfl, statusWord_busy _⟩⟩
  all_goals
    have hend := exec_ends i s
    rw [h] at hend
  case frame =>
    cases hend with
    | failure => exact .inl rfl
    | badPadding x m n hi => exact .inr ⟨hi, rfl⟩
    | success u => exact absurd rfl hfail
  case decrypts =>
    cases hend with
    | failure _ hallowed => exact eq_decbuf_of_allows_invalidPadding (hcode ▸ hallowed)
    | badPadding x m n hi => exact hi
    | success u => cases hcode

end Sys2Proof.Certificates
end

section
/-! SUPPORT. The fields of an assembled word (spec/30_encoding.md R91, R98): each is read back as it was put in, so an encoding
decodes to its instruction. -/

namespace Sys2Proof.Machine

section
variable (op : Opcode) (alg : BitVec 2) (mode : BitVec 3) (ivp : Bool)

theorem cmdOp_fieldsWord : cmdOp (fieldsWord op alg mode ivp) = opcodeBits op := BitVec.extractLsb'_append_eq_right

theorem cmdAlg_fieldsWord : cmdAlg (fieldsWord op alg mode ivp) = alg := by
  rw [cmdAlg, fieldsWord, BitVec.extractLsb'_append_eq_of_le (by decide)]
  exact BitVec.extractLsb'_append_eq_right

theorem cmdMode_fieldsWord : cmdMode (fieldsWord op alg mode ivp) = mode := by
  rw [cmdMode, fieldsWord, BitVec.extractLsb'_append_eq_of_le (by decide), BitVec.extractLsb'_append_eq_of_le (by decide)]
  exact BitVec.extractLsb'_append_eq_right

theorem cmdIvp_fieldsWord : cmdIvp (fieldsWord op alg mode ivp) = ivp := by
  simp only [cmdIvp, fieldsWord, BitVec.getLsbD_append, BitVec.getLsbD_ofBool]
  simp

theorem cmdReserved_fieldsWord : cmdReserved (fieldsWord op alg mode ivp) = 0 := by
  unfold cmdReserved fieldsWord
  iterate 4 rw [BitVec.extractLsb'_append_eq_of_le (by decide)]
  exact BitVec.extractLsb'_eq_self

end

/-- A word assembled from the fields a row uses, the others 0, decodes to the row's instruction with these fields. -/
theorem decode_fieldsWord {op : Opcode} {alg : BitVec 2} {mode : BitVec 3} {ivp : Bool} (halg : usesAlg op = false → alg = 0)
    (hmode : usesMode op = false → mode = 0) (hivp : usesIvp op = false → ivp = false) :
    decode (fieldsWord op alg mode ivp) = .ok (instrOf op alg mode ivp) := by
  have hsel : Selects (fieldsWord op alg mode ivp) op :=
    ⟨cmdOp_fieldsWord .., cmdReserved_fieldsWord .., by rwa [cmdAlg_fieldsWord], by rwa [cmdMode_fieldsWord],
      by rwa [cmdIvp_fieldsWord]⟩
  rw [decode_of_selects hsel, cmdAlg_fieldsWord, cmdMode_fieldsWord, cmdIvp_fieldsWord]

theorem decode_encode (i : Instr) : decode (encode i) = .ok i := by
  cases i with
  | kexp alg => exact decode_fieldsWord nofun (fun _ => rfl) (fun _ => rfl)
  | mstart mode ivp => exact decode_fieldsWord (fun _ => rfl) nofun nofun
  | init alg mode ivp => exact decode_fieldsWord nofun nofun nofun
  | kinv | encb | decb | encbuf | decbuf | clear => rfl

end Sys2Proof.Machine
end

section
/-! CERTIFICATE. The statements about the encoding of the instructions (spec/30_encoding.md). -/

namespace Sys2Proof.Certificates

open Sys2Proof.Machine

/-- Settles O1: a row that selects the word gives it back as an encoding, and the fields of an encoding are read back. -/
theorem decodeIffEncode : Obligations.DecodeIffEncode := by
  unfold Obligations.DecodeIffEncode
  refine fun w i => ⟨fun h => ?encodes, fun h => h ▸ decode_encode i⟩
  case encodes =>
    obtain ⟨op, hsel, rfl⟩ := decode_eq_ok_iff.mp h
    exact encode_of_selects hsel

/-- Settles O4: the ten words are encodings; the two others fail the first and the second test of R92. -/
theorem sampleWordsDecode : Obligations.SampleWordsDecode := by
  unfold Obligations.SampleWordsDecode
  exact ⟨decode_encode (.kexp 2), decode_encode .kinv, decode_encode (.mstart 1 true), decode_encode (.mstart 4 false),
    decode_encode .encb, decode_encode .decb, decode_encode .encbuf, decode_encode .decbuf, decode_encode (.init 1 1 true),
    decode_encode .clear, rfl, rfl⟩

end Sys2Proof.Certificates
end

section
/-! SUPPORT. What a real run of a buffer command needs and leaves (spec/44_buffer.md R270, R275): the tests before the run of
`ENCBUF` one by one, and that both runs keep the memory canonical. -/

namespace Sys2Proof.Machine

theorem encRunOk_iff (s : State) : encRunOk s = true ↔
    s.msValid = true ∧ encReq s.srcLen < 2 ^ s.platform.aw ∧ s.dstAddr ≠ 0 ∧ (s.srcAddr = 0 → s.srcLen = 0) ∧
    encReq s.srcLen ≤ s.dstLen ∧ rangeOk s.platform s.srcAddr s.srcLen s.dstAddr (encReq s.srcLen) = true := by
  simp only [encRunOk, Bool.and_eq_true, decide_eq_true_eq, ne_eq, and_assoc, imp_iff_or_not, or_comm]

theorem execEncbuf_of_encRunOk {s : State} (h : encRunOk s = true) : execEncbuf s = encRun s := by
  obtain ⟨hms, hreq, hdst, hsrc, hcap, hrange⟩ := (encRunOk_iff s).mp h
  rw [execEncbuf_of_capacity hms hreq hdst hsrc hcap, if_neg (by simp [hrange])]

theorem encRun_wf {s t : State} (h : Memory.wf s.mem = true) (ht : encRun s = .next t) : Memory.wf t.mem = true := by
  rw [encRun, succeed_eq] at ht
  cases ht
  simpa using memWrite_wf _ _ (encChunks_wf (s.srcLen / 16) 0 s h)

theorem decRun_wf {s t : State} (h : Memory.wf s.mem = true) (ht : decRun s = .next t) : Memory.wf t.mem = true := by
  have hchunks := decChunks_wf (s.srcLen / 16 - 1) 0 s h
  simp only [decRun] at ht
  split at ht
  · cases ht; exact hchunks
  · cases ht; exact memWrite_wf _ _ hchunks

end Sys2Proof.Machine
end

section
/-! SUPPORT. What one step does, action by action (spec/00_scope.md R8; spec/20_memory.md R76), and the invariants of every step:
what all actions keep every step keeps, so for each invariant only the commands are left. -/

namespace Sys2Proof.Machine

/-! ### One step -/

theorem step_of_idle {s : State} (h : s.pending = []) : step s = .next s := by
  rw [step, takeAction, h]

theorem step_of_pending {s : State} {a : HostAction} {rest : List HostAction} (h : s.pending = a :: rest) :
    step s = perform a { s with pending := rest } := by
  rw [step, takeAction, h]

theorem hostWrite_of_cmd {n : BitVec 8} (h : regOf n = .cmd) (v : Nat) (s : State) :
    hostWrite n v s = issueCommand (BitVec.ofNat 32 v) s :=
  if_pos h

theorem perform_write_cmd (w : Nat) (s : State) : perform (.write 0x00 w) s = issueCommand (BitVec.ofNat 32 w) s :=
  hostWrite_of_cmd rfl w s

theorem putByte_of_lt {a : Nat} {s : State} (h : a < 2 ^ s.platform.aw) (b : Byte) :
    putByte a b s = .next { s with mem := Memory.write s.mem a b } :=
  if_pos h

/-- The queue with a command word put first: the next step issues it on the state itself. -/
theorem step_withFetchWord (s : State) (nbits w : Nat) :
    step (s.withFetchWord nbits w) = issueCommand (tableWord nbits w) s :=
  (step_of_pending (queueCommand_pending (tableWord nbits w) s)).trans (hostWrite_cmd (tableWord nbits w) s)

theorem decode_of_decodeTableWord {nbits w : Nat} {i : Instr} (h : decodeTableWord nbits w = some i) :
    decode (tableWord nbits w) = .ok i := by
  unfold decodeTableWord at h
  cases hd : decode (tableWord nbits w) with
  | error e => rw [hd] at h; cases h
  | ok j => rw [hd] at h; cases h; rfl

/-! ### Codes of the commands (R335) -/

theorem success_mem_allowedCodes (i : Instr) : .success ∈ allowedCodes i := by
  cases i <;> exact List.mem_cons_self

theorem exec_next_allowed (i : Instr) (s : State) :
    ∃ t, exec i s = .next t ∧ t.statusCode ∈ allowedCodes i ∧ (t.statusArg ≠ .none ↔ t.statusCode = .nullArgument) := by
  have hend := exec_ends i s
  generalize exec i s = r at hend ⊢
  cases hend with
  | failure _ hallowed harg => exact ⟨_, rfl, hallowed, harg⟩
  | badPadding _ _ _ hi => exact ⟨_, rfl, by subst hi; simp [allowedCodes], by simp⟩
  | success u => exact ⟨_, rfl, success_mem_allowedCodes i, by simp⟩

/-- The reserved codes 2 and 6 stand in no row of R335. -/
theorem allowedCodes_not_reserved {i : Instr} {c : StatusCode} (h : c ∈ allowedCodes i) :
    c ≠ .parseError ∧ c ≠ .allocationFailure := by
  constructor <;> rintro rfl <;> cases i <;> simp [allowedCodes] at h

theorem perform_next {a : HostAction} {s : State} (h : ∀ x b, a = .memPut x b → x < 2 ^ s.platform.aw) :
    ∃ t, perform a s = .next t := by
  cases a with
  | read n => exact ⟨_, rfl⟩
  | write n v =>
    by_cases hn : regOf n = .cmd
    · obtain ⟨t, ht, -⟩ := issueCommand_next (BitVec.ofNat 32 v) s
      exact ⟨t, (hostWrite_of_cmd hn v s).trans ht⟩
    · exact ⟨_, hostWrite_of_ne_cmd hn v s⟩
  | reset => exact ⟨_, rfl⟩
  | memPut x b => exact ⟨_, putByte_of_lt (h x b rfl) b⟩

/-! ### Invariants of every step -/

/-- The predicate holds after whatever a step can do to a state with it. -/
structure KeptByActions (P : State → Prop) : Prop where
  queue (l : List HostAction) {s : State} (h : P s) : P { s with pending := l }
  read (n : BitVec 8) {s : State} (h : P s) : P (hostRead n s)
  write (r : Reg) (v : Nat) {s : State} (h : P s) : P (writeRegister r v s)
  command {i : Instr} {s t : State} (h : P s) (ht : exec i s = .next t) : P t
  illegal {s : State} (h : P s) : P (withStatus .illegalCommand .none s)
  reset {s : State} (h : P s) : P (resetEngine s)
  store (a : Nat) (b : Byte) {s : State} (h : P s) : P { s with mem := Memory.write s.mem a b }

namespace KeptByActions

variable {P : State → Prop} (kept : KeptByActions P) {s t : State} (h : P s)
include kept h

theorem issueCommand {w : CmdWord} (ht : issueCommand w s = .next t) : P t := by
  unfold Machine.issueCommand at ht
  cases hd : decode w with
  | error e => rw [hd] at ht; cases ht; exact kept.illegal h
  | ok i => rw [hd] at ht; exact kept.command h ht

theorem perform {a : HostAction} (ht : perform a s = .next t) : P t := by
  cases a with
  | read n => cases ht; exact kept.read n h
  | write n v =>
    by_cases hn : regOf n = .cmd
    · exact kept.issueCommand h ((hostWrite_of_cmd hn v s).symm.trans ht)
    · cases (hostWrite_of_ne_cmd hn v s).symm.trans ht
      exact kept.write _ v h
  | reset => cases ht; exact kept.reset h
  | memPut x b =>
    by_cases hx : x < 2 ^ s.platform.aw
    · cases (putByte_of_lt hx b).symm.trans ht
      exact kept.store x b h
    · cases (if_neg hx).symm.trans ht

theorem step (ht : step s = .next t) : P t := by
  cases hp : s.pending with
  | nil => cases (step_of_idle hp).symm.trans ht; exact h
  | cons a rest => exact kept.perform (kept.queue rest h) ((step_of_pending hp).symm.trans ht)

end KeptByActions

/-- Without a session each of the four commands that run one fails, and changes `STATUS` alone. -/
theorem sessionCommand_of_not_msValid {i : Instr} {s : State} (hi : i = .encb ∨ i = .decb ∨ i = .encbuf ∨ i = .decbuf)
    (h : s.msValid = false) : exec i s = .next (withStatus .notReady .none s) := by
  obtain rfl | rfl | rfl | rfl := hi
  · exact execEncb_of_not_msValid h
  · exact execDecb_of_not_ready (.inl h)
  · exact if_pos h
  · exact if_pos h

/-! ### The session (R28) -/

theorem sessionInv_resetOn (p : Platform) : SessionInv (State.resetOn p) :=
  ⟨nofun, nofun, nofun, fun _ => ⟨rfl, rfl, rfl⟩,
    fun _ => ⟨rfl, fun i => ⟨zeroFile_getElem i.isLt, zeroFile_getElem i.isLt⟩⟩, fun _ i => zeroFile_getElem i.isLt⟩

theorem sessionCommand_keeps_sessionInv {i : Instr} {s t : State}
    (hi : i = .encb ∨ i = .decb ∨ i = .encbuf ∨ i = .decbuf) (h : SessionInv s) (ht : exec i s = .next t) :
    SessionInv t := by
  cases hms : s.msValid with
  | false =>
    cases (sessionCommand_of_not_msValid hi hms).symm.trans ht
    exact h
  | true =>
    obtain ⟨hdkek, hmsek, hiv, -, hek, hdk⟩ := h
    rw [sessionCommand_frame hi ht]
    exact ⟨hdkek, hmsek, hiv, fun hf => absurd (hms.symm.trans hf) (by decide), hek, hdk⟩

theorem exec_keeps_sessionInv {i : Instr} {s t : State} (h : SessionInv s) (ht : exec i s = .next t) : SessionInv t := by
  have ⟨hdkek, hmsek, hiv, hidle, hek, hdk⟩ := h
  cases i with
  | kexp alg =>
    obtain ⟨-, h'⟩ | ⟨a, -, h'⟩ := execKexp_cases alg s <;> cases h'.symm.trans ht
    · exact h
    · exact ⟨nofun, nofun, nofun, fun _ => ⟨rfl, rfl, rfl⟩, nofun, fun _ i => zeroFile_getElem i.isLt⟩
  | kinv =>
    obtain ⟨-, h'⟩ | ⟨hvalid, h'⟩ := execKinv_cases s <;> cases h'.symm.trans ht
    · exact h
    · exact ⟨fun _ => hvalid, hmsek, hiv, hidle, fun hf => absurd (hvalid.symm.trans hf) (by decide), nofun⟩
  | mstart mode v =>
    obtain ⟨-, h'⟩ | ⟨m, -, ⟨-, h'⟩ | ⟨-, -, -, h'⟩ | ⟨hvalid, hv, h'⟩⟩ := execMstart_cases mode v s <;>
      cases h'.symm.trans ht
    · exact h
    · exact h
    · exact h
    · exact ⟨hdkek, fun _ => hvalid, fun _ hm => hv ((needsIv_iff m).mpr hm), nofun, hek, hdk⟩
  | encb | decb | encbuf | decbuf => exact sessionCommand_keeps_sessionInv (by simp) h ht
  | init alg mode v =>
    obtain ⟨-, h'⟩ | ⟨a, m, -, -, ⟨-, -, h'⟩ | ⟨hv, h'⟩⟩ := execInit_cases alg mode v s <;> cases h'.symm.trans ht
    · exact h
    · exact h
    · exact ⟨fun _ => rfl, fun _ => rfl, fun _ hm => hv ((needsIv_iff m).mpr hm), nofun, nofun, nofun⟩
  | clear =>
    cases (execClear_eq_reset s).symm.trans ht
    exact sessionInv_resetOn s.platform

theorem sessionInv_kept : KeptByActions SessionInv where
  queue _ _ h := h
  read _ _ h := h
  write r v s h := by rw [writeRegister_frame]; exact h
  command := exec_keeps_sessionInv
  illegal h := h
  reset {s} _ := sessionInv_resetOn s.platform
  store _ _ _ h := h

/-! ### The schedules (R25, R27) -/

theorem scheduleInv_resetOn (p : Platform) : ScheduleInv (State.resetOn p) := ⟨nofun, nofun⟩

theorem sessionCommand_keeps_scheduleInv {i : Instr} {s t : State}
    (hi : i = .encb ∨ i = .decb ∨ i = .encbuf ∨ i = .decbuf) (h : ScheduleInv s) (ht : exec i s = .next t) :
    ScheduleInv t := by
  rw [sessionCommand_frame hi ht]
  exact h

theorem exec_keeps_scheduleInv {i : Instr} {s t : State} (h : ScheduleInv s) (ht : exec i s = .next t) : ScheduleInv t := by
  cases i with
  | kexp alg =>
    obtain ⟨-, h'⟩ | ⟨a, -, h'⟩ := execKexp_cases alg s <;> cases h'.symm.trans ht
    · exact h
    · exact ⟨fun _ => ⟨_, keyBytes_length a s.keyLo s.keyHi, rfl⟩, nofun⟩
  | kinv =>
    obtain ⟨-, h'⟩ | ⟨hvalid, h'⟩ := execKinv_cases s <;> cases h'.symm.trans ht
    · exact h
    · exact ⟨h.1, fun _ => ⟨hvalid, rfl⟩⟩
  | mstart mode v =>
    obtain ⟨-, h'⟩ | ⟨m, -, ⟨-, h'⟩ | ⟨-, -, -, h'⟩ | ⟨-, -, h'⟩⟩ := execMstart_cases mode v s <;>
      cases h'.symm.trans ht <;> exact h
  | encb | decb | encbuf | decbuf => exact sessionCommand_keeps_scheduleInv (by simp) h ht
  | init alg mode v =>
    obtain ⟨-, h'⟩ | ⟨a, m, -, -, ⟨-, -, h'⟩ | ⟨-, h'⟩⟩ := execInit_cases alg mode v s <;> cases h'.symm.trans ht
    · exact h
    · exact h
    · have hread : fileKeys (nr a) (keyFile (nr a) (s.expandKey a)) = s.expandKey a := fileKeys_expand a _
      refine ⟨fun _ => ⟨_, keyBytes_length a s.keyLo s.keyHi, rfl⟩, fun _ => ⟨rfl, ?_⟩⟩
      simp only [withStatus_dk, withStatus_ek, withStatus_alg, initContext_dk, initContext_ek, initContext_alg, hread]
  | clear =>
    cases (execClear_eq_reset s).symm.trans ht
    exact scheduleInv_resetOn s.platform

theorem scheduleInv_kept : KeptByActions ScheduleInv where
  queue _ _ h := h
  read _ _ h := h
  write r v s h := by rw [writeRegister_frame]; exact h
  command := exec_keeps_scheduleInv
  illegal h := h
  reset {s} _ := scheduleInv_resetOn s.platform
  store _ _ _ h := h

/-! ### The layout of the data (R14, R332, R333) -/

theorem descriptorsFit_resetOn (p : Platform) : descriptorsFit (State.resetOn p) :=
  ⟨Nat.two_pow_pos _, Nat.two_pow_pos _, Nat.two_pow_pos _, Nat.two_pow_pos _⟩

theorem statusLegal_success {s : State} (hc : s.statusCode = .success) (ha : s.statusArg = .none) : statusLegal s := by
  simp [statusLegal, hc, ha]

theorem dataInv_resetOn (p : Platform) : DataInv (State.resetOn p) :=
  ⟨rfl, descriptorsFit_resetOn p, statusLegal_success rfl rfl⟩

theorem exec_statusLegal {i : Instr} {s t : State} (ht : exec i s = .next t) : statusLegal t := by
  obtain ⟨t', ht', hallowed, harg⟩ := exec_next_allowed i s
  cases ht'.symm.trans ht
  obtain ⟨hparse, halloc⟩ := allowedCodes_not_reserved hallowed
  exact ⟨hparse, halloc, harg⟩

/-- The platform is the one given, the memory is canonical and the descriptors are of their width. -/
def LaidOut (p : Platform) (s : State) : Prop := s.platform = p ∧ Memory.wf s.mem = true ∧ descriptorsFit s

theorem execEncbuf_keeps_laidOut {p : Platform} {s t : State} (h : LaidOut p s) (ht : execEncbuf s = .next t) :
    LaidOut p t := by
  have ⟨hp, hwf, hsa, hsl, hda, hdl⟩ := h
  obtain ⟨_, _, -, h', -⟩ | ⟨-, hreq, -, h'⟩ | ⟨hok, h'⟩ := execEncbuf_cases s
  · cases h'.symm.trans ht; exact h
  · cases h'.symm.trans ht; exact ⟨hp, hwf, hsa, hsl, hda, hreq⟩
  · obtain ⟨-, hreq, -⟩ := (encRunOk_iff s).mp hok
    have hwf' := encRun_wf hwf (h'.symm.trans ht)
    obtain ⟨c, m, hr⟩ := encRun_frame s
    cases (h'.trans hr).symm.trans ht
    exact ⟨hp, hwf', hsa, hsl, hda, hreq⟩

theorem execDecbuf_keeps_laidOut {p : Platform} {s t : State} (h : LaidOut p s) (ht : execDecbuf s = .next t) :
    LaidOut p t := by
  have ⟨hp, hwf, hsa, hsl, hda, hdl⟩ := h
  obtain ⟨_, _, -, h', -⟩ | ⟨-, -, h'⟩ | ⟨hok, h'⟩ := execDecbuf_cases s
  · cases h'.symm.trans ht; exact h
  · cases h'.symm.trans ht; exact ⟨hp, hwf, hsa, hsl, hda, hsl⟩
  · have hwf' := decRun_wf hwf (h'.symm.trans ht)
    obtain ⟨c, m, n, hr⟩ := decRun_frame s
    have hn : n ≤ s.srcLen := by
      obtain ⟨-, hn⟩ | ⟨-, hn⟩ := hr <;> omega
    obtain ⟨hr, -⟩ | ⟨hr, -⟩ := hr <;> cases (h'.trans hr).symm.trans ht <;>
      exact ⟨hp, hwf', hsa, hsl, hda, hn.trans_lt hsl⟩

theorem exec_keeps_laidOut {p : Platform} {i : Instr} {s t : State} (h : LaidOut p s) (ht : exec i s = .next t) :
    LaidOut p t := by
  cases i with
  | kexp alg => obtain ⟨-, h'⟩ | ⟨a, -, h'⟩ := execKexp_cases alg s <;> cases h'.symm.trans ht <;> exact h
  | kinv => obtain ⟨-, h'⟩ | ⟨-, h'⟩ := execKinv_cases s <;> cases h'.symm.trans ht <;> exact h
  | mstart mode v =>
    obtain ⟨-, h'⟩ | ⟨m, -, ⟨-, h'⟩ | ⟨-, -, -, h'⟩ | ⟨-, -, h'⟩⟩ := execMstart_cases mode v s <;>
      cases h'.symm.trans ht <;> exact h
  | encb => obtain ⟨-, h'⟩ | ⟨-, h'⟩ := execEncb_cases s <;> cases h'.symm.trans ht <;> exact h
  | decb => obtain ⟨-, h'⟩ | ⟨-, -, h'⟩ := execDecb_cases s <;> cases h'.symm.trans ht <;> exact h
  | encbuf => exact execEncbuf_keeps_laidOut h ht
  | decbuf => exact execDecbuf_keeps_laidOut h ht
  | init alg mode v =>
    obtain ⟨-, h'⟩ | ⟨a, m, -, -, ⟨-, -, h'⟩ | ⟨-, h'⟩⟩ := execInit_cases alg mode v s <;> cases h'.symm.trans ht <;> exact h
  | clear =>
    obtain ⟨hp, hwf, -⟩ := h
    cases (execClear_eq_reset s).symm.trans ht
    exact ⟨hp, hwf, descriptorsFit_resetOn s.platform⟩

/-- The data invariant together with the platform it stands on. -/
theorem dataInv_kept (p : Platform) : KeptByActions (fun s => DataInv s ∧ s.platform = p) where
  queue _ _ h := h
  read _ _ h := h
  write r v s h := by
    obtain ⟨⟨hwf, hfit, hstatus⟩, hp⟩ := h
    have hfit' := writeRegister_fits r v s hfit
    rw [writeRegister_frame] at hfit' ⊢
    exact ⟨⟨hwf, hfit', hstatus⟩, hp⟩
  command h ht := by
    obtain ⟨⟨hwf, hfit, -⟩, hp⟩ := h
    obtain ⟨hp', hwf', hfit'⟩ := exec_keeps_laidOut ⟨hp, hwf, hfit⟩ ht
    exact ⟨⟨hwf', hfit', exec_statusLegal ht⟩, hp'⟩
  illegal {s} h := ⟨⟨h.1.1, h.1.2.1, by simp [statusLegal]⟩, h.2⟩
  reset {s} h := ⟨⟨h.1.1, descriptorsFit_resetOn s.platform, statusLegal_success rfl rfl⟩, h.2⟩
  store a b {s} h := ⟨⟨Memory.wf_write a b h.1.1, h.1.2⟩, h.2⟩

/-! ### The first command after reset (R372) -/

/-- Round keys 1 and 10 of the all-zero key. -/
theorem expand_aes128_zero_key :
    (expand .aes128 (keyBytes .aes128 0 0)).getD 1 0 = fips 0x62636363626363636263636362636363 ∧
    (expand .aes128 (keyBytes .aes128 0 0)).getD 10 0 = fips 0xb4ef5bcb3e92e21123e951cf6f8f188e := by
  decide +kernel

end Sys2Proof.Machine
end

section
/-! CERTIFICATE. The statements about the steps of the machine, their invariants and the reset state (spec/00_scope.md,
spec/10_state.md, spec/60_exceptions.md, spec/70_reset_and_hazards.md). -/

namespace Sys2Proof.Certificates

open Sys2Proof.Machine

/-- Settles O51: the four commands that run a session need one, and the others set what they clear together. -/
theorem stepKeepsSessionInvariants : Obligations.StepKeepsSessionInvariants := by
  unfold Obligations.StepKeepsSessionInvariants
  exact fun s t h ht => sessionInv_kept.step h ht

/-- Settles O52: `KEXP` and `INIT` write an expanded key, `KINV` and `INIT` its inversion, and no other command a round key. -/
theorem stepKeepsSchedules : Obligations.StepKeepsSchedules := by
  unfold Obligations.StepKeepsSchedules
  exact fun s t h ht => scheduleInv_kept.step h ht

/-- Settles O53: a descriptor is written modulo `2^AW` or with the size of a buffer that fits. -/
theorem stepKeepsDataLegal : Obligations.StepKeepsDataLegal := by
  unfold Obligations.StepKeepsDataLegal
  exact fun s t h ht => (dataInv_kept s.platform).step ⟨h, rfl⟩ ht

/-- Settles O46: every way a command can end carries a code of its row; only a store outside the address space stops a step. -/
theorem commandsEndWithTheirOwnCodes : Obligations.CommandsEndWithTheirOwnCodes := by
  unfold Obligations.CommandsEndWithTheirOwnCodes
  refine ⟨exec_next_allowed, fun s h => ?step⟩
  case step =>
    cases hp : s.pending with
    | nil => exact ⟨s, step_of_idle hp⟩
    | cons a rest =>
      rw [step_of_pending hp]
      exact perform_next fun x b ha => h x b rest (by rw [hp, ha])

/-- Settles O5: the write to `CMD` issues its word, and the word is that of the instruction. -/
theorem stepRunsDecodedCommand : Obligations.StepRunsDecodedCommand := by
  unfold Obligations.StepRunsDecodedCommand
  refine ⟨fun s w rest i hp hd => ?queued, fun s nbits w i hd => ?fetched⟩
  case queued => rw [step_of_pending hp, perform_write_cmd, issueCommand_of_decode hd]
  case fetched => rw [step_withFetchWord, issueCommand_of_decode (decode_of_decodeTableWord hd)]

/-- Settles O6, action by action. -/
theorem stepPerformsAction : Obligations.StepPerformsAction := by
  unfold Obligations.StepPerformsAction
  refine ⟨fun s hp => step_of_idle hp, fun s n rest hp => step_of_pending hp, fun s n v rest hp hn => ?write,
    fun s w e rest hp hd => ?illegal, fun s rest hp => step_of_pending hp, fun s a b rest hp ha hwf => ?store,
    fun s a b rest hp ha => ?fault⟩
  case write =>
    rw [step_of_pending hp]
    refine (hostWrite_of_ne_cmd hn v _).trans ?_
    cases regOf n <;> rfl
  case illegal => rw [step_of_pending hp, perform_write_cmd, issueCommand, hd, failWith_eq, withStatus]
  case store =>
    exact ⟨_, (step_of_pending hp).trans (putByte_of_lt (s := { s with pending := rest }) ha b), rfl,
      fun x => Memory.read_write hwf a b x⟩
  case fault => exact (step_of_pending hp).trans (if_neg ha.not_gt)

/-- Settles O11: no flag is set after reset, and the key registers hold the all-zero key. -/
theorem firstCommandAfterReset : Obligations.FirstCommandAfterReset := by
  unfold Obligations.FirstCommandAfterReset
  refine ⟨fun p i hwf hkexp hinit hclear => ?notReady, fun p => ?kexp⟩
  case notReady =>
    cases i with
    | kexp alg => exact absurd rfl (hkexp alg)
    | kinv => exact execKinv_of_not_ekValid rfl
    | mstart mode v =>
      obtain ⟨m, rfl⟩ := exists_modeCode_of_modeImplemented hwf
      exact execMstart_of_not_ekValid rfl m v
    | encb | decb | encbuf | decbuf => exact sessionCommand_of_not_msValid (by simp) rfl
    | init alg mode v => exact absurd rfl (hinit alg mode v)
    | clear => exact absurd rfl hclear
  case kexp =>
    obtain ⟨hone, hten⟩ := expand_aes128_zero_key
    exact ⟨_, execKexp_algCode .aes128 _, rfl, (keyFile_getElem _ _ (by decide)).trans hone,
      (keyFile_getElem _ _ (by decide)).trans hten⟩

/-- Settles O54: every register, flag and tag is zero after reset. -/
theorem resetMeetsInvariants : Obligations.ResetMeetsInvariants := by
  unfold Obligations.ResetMeetsInvariants
  exact ⟨fun p => ⟨sessionInv_resetOn p, scheduleInv_resetOn p, dataInv_resetOn p⟩, rfl, rfl⟩

end Sys2Proof.Certificates
end

section
/-! SUPPORT. The inverse in GF(2^8), which the algebraic definition of `SBox` rests on, and the layers of the cipher in the other
order (spec/40_block_primitives.md sections 3 and 5): bytes and blocks are finitely many, so what undoes a function is undone by
it. -/

namespace Sys2Proof.Machine

/-! ### The inverse in GF(2^8) (R123, R124)

`GMul` commutes with `XTime` in its first operand, so two second operands can be exchanged and an inverse is unique. -/

theorem xtime_xor (a b : Byte) : xtime (a ^^^ b) = xtime a ^^^ xtime b := by
  simp only [xtime, BitVec.getLsbD_xor, BitVec.shiftLeft_xor_distrib]
  cases a.getLsbD 7 <;> cases b.getLsbD 7
  case false.false => rfl
  case false.true => exact BitVec.xor_assoc _ _ _
  case true.false =>
    change a <<< 1 ^^^ b <<< 1 ^^^ 0x1b#8 = a <<< 1 ^^^ 0x1b#8 ^^^ b <<< 1
    ac_rfl
  case true.true =>
    calc a <<< 1 ^^^ b <<< 1
      _ = a <<< 1 ^^^ b <<< 1 ^^^ (0x1b#8 ^^^ 0x1b#8) := by rw [BitVec.xor_self, BitVec.xor_zero]
      _ = a <<< 1 ^^^ 0x1b#8 ^^^ (b <<< 1 ^^^ 0x1b#8) := by ac_rfl

theorem gmulLoop_left_xor (e : Byte) (n k : Nat) (r r' a a' : Byte) :
    gmulLoop e n k (r ^^^ r') (a ^^^ a') = gmulLoop e n k r a ^^^ gmulLoop e n k r' a' := by
  induction n generalizing k r r' a a' with
  | zero => rfl
  | succ n ih =>
    have hstep : (if e.getLsbD k then r ^^^ r' ^^^ (a ^^^ a') else r ^^^ r') =
        (if e.getLsbD k then r ^^^ a else r) ^^^ (if e.getLsbD k then r' ^^^ a' else r') := by
      split
      · ac_rfl
      · rfl
    rw [gmulLoop, hstep, xtime_xor, ih]
    rfl

theorem gmulLoop_xtime (e : Byte) (n k : Nat) (r a : Byte) :
    gmulLoop e n k (xtime r) (xtime a) = xtime (gmulLoop e n k r a) := by
  induction n generalizing k r a with
  | zero => rfl
  | succ n ih => rw [gmulLoop, ← xtime_xor, ← apply_ite xtime, ih]; rfl

theorem gmul_left_xor (a a' b : Byte) : gmul (a ^^^ a') b = gmul a b ^^^ gmul a' b := gmulLoop_left_xor b 8 0 0 0 a a'

theorem gmul_xtime (a b : Byte) : gmul (xtime a) b = xtime (gmul a b) := gmulLoop_xtime b 8 0 0 a

theorem gmul_gmulLoop (b e : Byte) (n k : Nat) (r c : Byte) :
    gmul (gmulLoop e n k r c) b = gmulLoop e n k (gmul r b) (gmul c b) := by
  induction n generalizing k r c with
  | zero => rfl
  | succ n ih => rw [gmulLoop, ih, gmul_xtime, apply_ite (gmul · b), gmul_left_xor]; rfl

theorem gmul_zero_left (b : Byte) : gmul 0 b = 0 := by
  revert b; decide +kernel

theorem gmul_one_left (b : Byte) : gmul 1 b = b := by
  revert b; decide +kernel

theorem gmul_gmul_comm (c e b : Byte) : gmul (gmul c e) b = gmul (gmul c b) e := by
  refine (gmul_gmulLoop b e 8 0 0 c).trans ?_
  rw [gmul_zero_left]
  rfl

theorem eq_of_gmul_eq_one {a b b' : Byte} (h : gmul a b = 1) (h' : gmul a b' = 1) : b = b' :=
  calc b
    _ = gmul (gmul a b') b := by rw [h', gmul_one_left]
    _ = gmul (gmul a b) b' := gmul_gmul_comm a b' b
    _ = b' := by rw [h, gmul_one_left]

/-- The inverse read off the table of R124 by undoing its affine map. -/
def tableInverse (a : Byte) : Byte :=
  let x := sbox a ^^^ 0x63#8
  x.rotateLeft 1 ^^^ x.rotateLeft 3 ^^^ x.rotateLeft 6

theorem gmul_tableInverse (a : Byte) (h : a ≠ 0) : gmul a (tableInverse a) = 1 := by
  revert a; decide +kernel

theorem sbox_eq_affine_tableInverse (a : Byte) :
    sbox a = tableInverse a ^^^ (tableInverse a).rotateLeft 1 ^^^ (tableInverse a).rotateLeft 2 ^^^
      (tableInverse a).rotateLeft 3 ^^^ (tableInverse a).rotateLeft 4 ^^^ 0x63#8 := by
  revert a; decide +kernel

/-- The search of `GInv` finds an inverse where there is one. -/
theorem gmul_ginv_of_inverse {a b : Byte} (h : gmul a b = 1) : gmul a (ginv a) = 1 := by
  have hmem : b ∈ (List.range 256).map (BitVec.ofNat 8) :=
    List.mem_map.mpr ⟨b.toNat, List.mem_range.mpr b.isLt, (BitVec.ofNat_toNat 8 b).trans (BitVec.setWidth_eq b)⟩
  rw [ginv]
  cases hc : ((List.range 256).map (BitVec.ofNat 8)).find? fun b => gmul a b == 1 with
  | none => exact absurd (beq_iff_eq.mpr h) (List.find?_eq_none.mp hc b hmem)
  | some c =>
    have hgc := List.find?_some hc
    exact beq_iff_eq.mp hgc

theorem gmul_ginv (a : Byte) (h : a ≠ 0) : gmul a (ginv a) = 1 := gmul_ginv_of_inverse (gmul_tableInverse a h)

theorem ginv_zero : ginv 0 = 0 := by decide +kernel

theorem ginv_eq_tableInverse (a : Byte) : ginv a = tableInverse a := by
  obtain rfl | h := eq_or_ne a 0
  · rw [ginv_zero]; decide
  · exact eq_of_gmul_eq_one (gmul_ginv a h) (gmul_tableInverse a h)

theorem sbox_eq_sboxAlgebraic (a : Byte) : sbox a = sboxAlgebraic a := by
  rw [sboxAlgebraic, ginv_eq_tableInverse]
  exact sbox_eq_affine_tableInverse a

/-! ### The substitution tables and the layers -/

/-- Bytes are finitely many, so the table of R124 undoes that of R125 as well. -/
theorem sbox_invSbox (a : Byte) : sbox (invSbox a) = a := by
  have hsurj : Function.Surjective sbox := Finite.surjective_of_injective (Function.LeftInverse.injective invSbox_sbox)
  exact Function.LeftInverse.rightInverse_of_surjective invSbox_sbox hsurj a

theorem subBytes_invSubBytes (s : Block128) : subBytes (invSubBytes s) = s :=
  block_rightInverse_of_leftInverse invSubBytes_subBytes s

theorem shiftRows_invShiftRows (s : Block128) : shiftRows (invShiftRows s) = s :=
  block_rightInverse_of_leftInverse invShiftRows_shiftRows s

theorem invShiftRows_invSubBytes (s : Block128) : invShiftRows (invSubBytes s) = invSubBytes (invShiftRows s) :=
  block_ext fun i hi => by
    rw [blockByte_invShiftRows _ hi, blockByte_invSubBytes _ (by omega), blockByte_invSubBytes _ hi,
      blockByte_invShiftRows _ hi]

theorem mixRow_xor (r : Nat) (a0 a1 a2 a3 b0 b1 b2 b3 : Byte) :
    mixRow r (a0 ^^^ b0) (a1 ^^^ b1) (a2 ^^^ b2) (a3 ^^^ b3) = mixRow r a0 a1 a2 a3 ^^^ mixRow r b0 b1 b2 b3 := by
  unfold mixRow
  split <;> simp only [gmul_xor] <;> ac_rfl

theorem mixColumns_xor128 (x y : Block128) : mixColumns (xor128 x y) = xor128 (mixColumns x) (mixColumns y) :=
  block_ext_columns fun c hc r hr => by
    simp only [xor128, blockByte_xor, mixColumns, blockByte_mapColumns _ _ hc hr, mixRow_xor]

/-- An additive map sends 0 to 0. -/
theorem invMixColumns_zero : invMixColumns 0 = 0 := by
  have h := invMixColumns_xor128 0 0
  rw [xor128, xor128, BitVec.xor_self, BitVec.xor_self] at h
  exact h

/-- `E` undoes `D` under the inverted schedule, for arbitrary round keys. -/
theorem blockEncrypt_blockDecrypt {ek : List Block128} (h : 2 ≤ ek.length) (x : Block128) :
    blockEncrypt (blockDecrypt x (invert ek)) ek = x :=
  block_rightInverse_of_leftInverse (blockDecrypt_blockEncrypt h) x

/-! ### The cipher over the files (R207) -/

/-- Two files that agree on entries 0 to `Nr` hold the same sequence of used keys. -/
theorem fileKeys_congr {a : Alg} {f g : Vector Block128 15} (h : ∀ i : Fin 15, i.val ≤ nr a → f[i.val] = g[i.val]) :
    fileKeys (nr a) f = fileKeys (nr a) g := by
  have hlen (f : Vector Block128 15) : (fileKeys (nr a) f).length = nr a + 1 := fileKeys_length a f
  refine List.ext_getElem ((hlen f).trans (hlen g).symm) fun i hi _ => ?_
  rw [hlen] at hi
  have hi15 : i < 15 := hi.trans_le (Nat.succ_le_succ (nr_le a))
  simpa [fileKeys] using h ⟨i, hi15⟩ (Nat.le_of_lt_succ hi)

end Sys2Proof.Machine
end

section
/-! SUPPORT. The word recurrence of the key schedule (spec/41_key_schedule.md R165). -/

namespace Sys2Proof.Machine

@[simp] theorem wordsFrom_length (nkw n i : Nat) (w : List Word32) : (wordsFrom nkw n i w).length = w.length + n := by
  induction n generalizing i w with
  | zero => rfl
  | succ n ih => rw [wordsFrom, ih, List.length_append, List.length_singleton]; omega

/-- Every word the loop adds is the next word of R165 after those before it. -/
theorem wordsFrom_getD {nkw : Nat} (hnk : 0 < nkw) (n : Nat) {w : List Word32} (hw : 0 < w.length) {i : Nat}
    (hlo : w.length ≤ i) (hhi : i < w.length + n) :
    (wordsFrom nkw n w.length w).getD i 0 = nextWord nkw i ((wordsFrom nkw n w.length w).getD (i - 1) 0)
      ((wordsFrom nkw n w.length w).getD (i - nkw) 0) := by
  induction n generalizing w with
  | zero => omega
  | succ n ih =>
    rw [wordsFrom]
    generalize hx : nextWord nkw w.length (w.getD (w.length - 1) 0) (w.getD (w.length - nkw) 0) = x
    have hlen : (w ++ [x]).length = w.length + 1 := by simp
    rw [← hlen]
    obtain rfl | hlt := hlo.eq_or_lt
    · have hold (j : Nat) (hj : j < w.length) :
          (wordsFrom nkw n (w ++ [x]).length (w ++ [x])).getD j 0 = w.getD j 0 := by
        rw [wordsFrom_getD_of_lt _ _ _ _ (by omega), List.getD_append _ _ _ _ hj]
      have hnew : (wordsFrom nkw n (w ++ [x]).length (w ++ [x])).getD w.length 0 = x := by
        rw [wordsFrom_getD_of_lt _ _ _ _ (by omega)]
        simp
      rw [hnew, hold _ (by omega), hold _ (by omega), hx]
    · exact ih (w := w ++ [x]) (by omega) (by omega) (by omega)

theorem scheduleWords_length (a : Alg) (key : List Byte) : (scheduleWords a key).length = 4 * (nr a + 1) := by
  have hle : nk a ≤ 4 * (nr a + 1) := by cases a <;> decide
  rw [scheduleWords, wordsFrom_length, List.length_map, List.length_range, Nat.add_sub_cancel' hle]

theorem scheduleWords_getD {a : Alg} (key : List Byte) {i : Nat} (hlo : nk a ≤ i) (hhi : i < 4 * (nr a + 1)) :
    (scheduleWords a key).getD i 0 =
      nextWord (nk a) i ((scheduleWords a key).getD (i - 1) 0) ((scheduleWords a key).getD (i - nk a) 0) := by
  have hnk := four_le_nk a
  have h := wordsFrom_getD (nkw := nk a) (by omega) (4 * (nr a + 1) - nk a)
    (w := (List.range (nk a)).map (keyWord key)) (i := i) (by simp; omega) (by simpa using hlo) (by simp; omega)
  simpa [scheduleWords] using h

end Sys2Proof.Machine
end

section
/-! CERTIFICATE. The statements about the cipher's functions and the word recurrence (spec/40_block_primitives.md,
spec/41_key_schedule.md, spec/42_round_function.md). -/

namespace Sys2Proof.Certificates

open Sys2Proof.Machine

/-- Settles O14: one table is checked against the algebra, byte by byte, and the other against the first. -/
theorem sboxAgreesWithAlgebra : Obligations.SboxAgreesWithAlgebra := by
  unfold Obligations.SboxAgreesWithAlgebra
  exact fun a => ⟨sbox_eq_sboxAlgebraic a, invSbox_sbox a, sbox_invSbox a, gmul_ginv a, ginv_zero⟩

/-- Settles O16: each inverse layer undoes its layer, and on finitely many blocks the layer undoes its inverse. -/
theorem cipherLayersInvert : Obligations.CipherLayersInvert := by
  unfold Obligations.CipherLayersInvert
  exact ⟨fun x => ⟨invSubBytes_subBytes x, subBytes_invSubBytes x⟩,
    fun x => ⟨invShiftRows_shiftRows x, shiftRows_invShiftRows x⟩,
    fun x => ⟨invMixColumns_mixColumns x, mixColumns_invMixColumns x⟩,
    fun x => ⟨shiftRows_subBytes x, invShiftRows_invSubBytes x⟩,
    fun x y => ⟨mixColumns_xor128 x y, invMixColumns_xor128 x y⟩, invMixColumns_zero⟩

/-- Settles O22: on finitely many blocks the function `D` undoes undoes `D`. -/
theorem decryptionInvertsEncryption : Obligations.DecryptionInvertsEncryption := by
  unfold Obligations.DecryptionInvertsEncryption
  exact fun ek x h => ⟨blockDecrypt_blockEncrypt h x, blockEncrypt_blockDecrypt h x⟩

/-- Settles O24: the files are read through the list of their entries 0 to `Nr`. -/
theorem cipherReadsUsedKeysOnly : Obligations.CipherReadsUsedKeysOnly := by
  unfold Obligations.CipherReadsUsedKeysOnly
  refine ⟨fun s x => ⟨enc_eq_blockEncrypt s x, dec_eq_blockDecrypt s x⟩, fun s t halg h => ⟨funext fun x => ?enc,
    funext fun x => ?dec⟩⟩
  case enc => rw [State.enc, State.enc, halg, fileKeys_congr fun i hi => (h i hi).1]
  case dec => rw [State.dec, State.dec, halg, fileKeys_congr fun i hi => (h i hi).2]

/-- Settles O18: the loop of R165 adds one word of the recurrence after another, and round key `r` is cut from word `4r` on. -/
theorem expansionFollowsWordRecurrence : Obligations.ExpansionFollowsWordRecurrence := by
  unfold Obligations.ExpansionFollowsWordRecurrence
  refine fun a key => ⟨scheduleWords_length a key, fun i hi => scheduleWords_getD_of_lt key hi, fun i hlo hhi => ?recurrence,
    expand_length a key, fun r hr j hj => blockWord_expand key hr hj⟩
  case recurrence =>
    rw [scheduleWords_getD key hlo hhi, nextWord, rconWord]
    split_ifs <;> rfl

end Sys2Proof.Certificates
end

section
/-! SUPPORT. The lane-level key schedules (spec/41_key_schedule.md R185 to R188): word by word, a cascade xored with a broadcast
word is four words of the recurrence R165. -/

namespace Sys2Proof.Machine

/-! ### The words of the lane functions (R137 to R139) -/

theorem blockWord_xor128 (x y : Block128) (j : Nat) : blockWord (xor128 x y) j = blockWord x j ^^^ blockWord y j := by
  simp [blockWord, xor128, BitVec.extractLsb'_xor]

theorem blockWord_bcast (x : Block128) (k : Nat) {j : Nat} (h : j < 4) : blockWord (bcast x k) j = blockWord x k := by
  obtain ⟨h0, h1, h2, h3⟩ := blockWord_blockOfWords (blockWord x k) (blockWord x k) (blockWord x k) (blockWord x k)
  interval_cases j
  exacts [h0, h1, h2, h3]

theorem blockWord_shl32 (x : Block128) : blockWord (shl32 x) 0 = 0 ∧ blockWord (shl32 x) 1 = blockWord x 0 ∧
    blockWord (shl32 x) 2 = blockWord x 1 ∧ blockWord (shl32 x) 3 = blockWord x 2 :=
  blockWord_blockOfWords 0 (blockWord x 0) (blockWord x 1) (blockWord x 2)

theorem blockWord_keyGenAssist (x : Block128) (rc : Byte) :
    blockWord (keyGenAssist x rc) 1 = rotWord (subWord (blockWord x 1)) ^^^ wordOf rc 0 0 0 ∧
    blockWord (keyGenAssist x rc) 2 = subWord (blockWord x 3) ∧
    blockWord (keyGenAssist x rc) 3 = rotWord (subWord (blockWord x 3)) ^^^ wordOf rc 0 0 0 :=
  (blockWord_blockOfWords _ _ _ _).2

theorem subWord_rotWord (w : Word32) : subWord (rotWord w) = rotWord (subWord w) := by
  obtain ⟨r0, r1, r2, r3⟩ := wordByte_wordOf (wordByte w 1) (wordByte w 2) (wordByte w 3) (wordByte w 0)
  obtain ⟨s0, s1, s2, s3⟩ := wordByte_wordOf (sbox (wordByte w 0)) (sbox (wordByte w 1)) (sbox (wordByte w 2))
    (sbox (wordByte w 3))
  rw [subWord, rotWord, r0, r1, r2, r3, rotWord, subWord, s0, s1, s2, s3]

theorem blockWord_cascadeStep (x : Block128) : blockWord (cascadeStep x) 0 = blockWord x 0 ∧
    blockWord (cascadeStep x) 1 = blockWord x 1 ^^^ blockWord x 0 ∧
    blockWord (cascadeStep x) 2 = blockWord x 2 ^^^ blockWord x 1 ∧
    blockWord (cascadeStep x) 3 = blockWord x 3 ^^^ blockWord x 2 := by
  obtain ⟨h0, h1, h2, h3⟩ := blockWord_shl32 x
  simp only [cascadeStep, blockWord_xor128, h0, h1, h2, h3]
  simp

/-- Each word of a cascade is the xor of the words up to it. -/
theorem blockWord_cascade (x : Block128) : blockWord (cascade x) 0 = blockWord x 0 ∧
    blockWord (cascade x) 1 = blockWord x 1 ^^^ blockWord x 0 ∧
    blockWord (cascade x) 2 = blockWord x 2 ^^^ (blockWord x 1 ^^^ blockWord x 0) ∧
    blockWord (cascade x) 3 = blockWord x 3 ^^^ (blockWord x 2 ^^^ (blockWord x 1 ^^^ blockWord x 0)) := by
  obtain ⟨a0, a1, a2, a3⟩ := blockWord_cascadeStep x
  obtain ⟨b0, b1, b2, b3⟩ := blockWord_cascadeStep (cascadeStep x)
  obtain ⟨c0, c1, c2, c3⟩ := blockWord_cascadeStep (cascadeStep (cascadeStep x))
  rw [cascade, c0, c1, c2, c3, b0, b1, b2, b3, a0, a1, a2, a3]
  have hcomm (a b c : Word32) : a ^^^ (b ^^^ c) = b ^^^ (a ^^^ c) := by ac_rfl
  simp [BitVec.xor_comm, hcomm]

/-- A cascade xored with a broadcast word is the block whose word 0 takes that word and whose every other word takes the word
before it. -/
theorem cascade_xor_bcast {x y b : Block128} {k : Nat} (hfirst : blockWord b 0 = blockWord x 0 ^^^ blockWord y k)
    (hnext : ∀ j < 3, blockWord b (j + 1) = blockWord x (j + 1) ^^^ blockWord b j) :
    xor128 (cascade x) (bcast y k) = b := by
  obtain ⟨c0, c1, c2, c3⟩ := blockWord_cascade x
  have h1 := hnext 0 (by decide)
  have h2 := hnext 1 (by decide)
  have h3 := hnext 2 (by decide)
  refine block_ext_words fun j hj => ?_
  rw [blockWord_xor128, blockWord_bcast y k hj]
  interval_cases j
  · rw [c0, hfirst]
  · rw [c1, h1, hfirst, BitVec.xor_assoc]
  · rw [c2, h2, h1, hfirst]; simp only [BitVec.xor_assoc]
  · rw [c3, h3, h2, h1, hfirst]; simp only [BitVec.xor_assoc]

/-! ### Blocks of schedule words -/

/-- The block of the words `w[i]` to `w[i+3]`. -/
def wordsBlock (w : List Word32) (i : Nat) : Block128 :=
  blockOfWords (w.getD i 0) (w.getD (i + 1) 0) (w.getD (i + 2) 0) (w.getD (i + 3) 0)

theorem roundKey_eq_wordsBlock (w : List Word32) (r : Nat) : roundKey w r = wordsBlock w (4 * r) := rfl

theorem blockWord_wordsBlock (w : List Word32) (i : Nat) {j : Nat} (h : j < 4) :
    blockWord (wordsBlock w i) j = w.getD (i + j) 0 := by
  obtain ⟨h0, h1, h2, h3⟩ := blockWord_blockOfWords (w.getD i 0) (w.getD (i + 1) 0) (w.getD (i + 2) 0) (w.getD (i + 3) 0)
  interval_cases j
  exacts [h0, h1, h2, h3]

section
variable {a : Alg} (key : List Byte)

/-- The first word of a group of `Nk` (R165). -/
theorem scheduleWords_getD_first {i : Nat} (hi : i % nk a = 0) (hend : i + nk a < 4 * (nr a + 1)) :
    (scheduleWords a key).getD (i + nk a) 0 = (scheduleWords a key).getD i 0 ^^^
      (rotWord (subWord ((scheduleWords a key).getD (i + nk a - 1) 0)) ^^^ wordOf (rcon (i / nk a + 1)) 0 0 0) := by
  have hnk := four_le_nk a
  rw [scheduleWords_getD key (by omega) hend, nextWord, if_pos (by rw [Nat.add_mod_right, hi]), Nat.add_sub_cancel,
    Nat.add_div_right _ (by omega), subWord_rotWord, rconWord]

/-- A word that is neither the first of its group nor, for AES-256, the fifth. -/
theorem scheduleWords_getD_other {i : Nat} (hi : i % nk a ≠ 0) (hmid : nk a = 8 → i % nk a ≠ 4)
    (hend : i + nk a < 4 * (nr a + 1)) :
    (scheduleWords a key).getD (i + nk a) 0 =
      (scheduleWords a key).getD i 0 ^^^ (scheduleWords a key).getD (i + nk a - 1) 0 := by
  rw [scheduleWords_getD key (by omega) hend, nextWord, if_neg (by rwa [Nat.add_mod_right]),
    if_neg (by rw [Nat.add_mod_right]; exact fun h => hmid h.1 h.2), Nat.add_sub_cancel]

/-- The fifth word of a group of AES-256. -/
theorem scheduleWords_getD_fifth {i : Nat} (hi : i % 8 = 4) (hend : i + 8 < 60) :
    (scheduleWords .aes256 key).getD (i + 8) 0 =
      (scheduleWords .aes256 key).getD i 0 ^^^ subWord ((scheduleWords .aes256 key).getD (i + 7) 0) := by
  rw [scheduleWords_getD key (by simp [nk]) (by simpa [nr] using hend), nextWord, if_neg (by simp [nk]; omega),
    if_pos (by simp [nk]; omega)]
  rfl

/-- Four words from the first of a group, or the fifth of AES-256, are the cascade of the four words `Nk` before them xored with
the one word that is not the cascade's. -/
theorem wordsBlock_next {i : Nat} (hi : i % nk a = 0 ∨ nk a = 8 ∧ i % nk a = 4) (hend : i + nk a + 3 < 4 * (nr a + 1))
    {y : Block128} {k : Nat}
    (hfirst : (scheduleWords a key).getD (i + nk a) 0 = (scheduleWords a key).getD i 0 ^^^ blockWord y k) :
    xor128 (cascade (wordsBlock (scheduleWords a key) i)) (bcast y k) = wordsBlock (scheduleWords a key) (i + nk a) := by
  have hother (j : Nat) (hj : j < 3) : (scheduleWords a key).getD (i + nk a + (j + 1)) 0 =
      (scheduleWords a key).getD (i + (j + 1)) 0 ^^^ (scheduleWords a key).getD (i + nk a + j) 0 := by
    have h := scheduleWords_getD_other (a := a) key (i := i + (j + 1)) (by cases a <;> simp only [nk] at hi ⊢ <;> omega)
      (by cases a <;> simp only [nk] at hi ⊢ <;> omega) (by omega)
    rwa [show i + (j + 1) + nk a = i + nk a + (j + 1) by omega, ← Nat.add_assoc (i + nk a), Nat.add_sub_cancel] at h
  refine cascade_xor_bcast ?_ fun j hj => ?_
  · rw [blockWord_wordsBlock _ _ (by decide), blockWord_wordsBlock _ _ (by decide)]
    exact hfirst
  · rw [blockWord_wordsBlock _ _ (by omega), blockWord_wordsBlock _ _ (by omega), blockWord_wordsBlock _ _ (by omega)]
    exact hother j hj

end

/-! ### The lanes of the key (R161) -/

theorem wordsBlock_keyBytes_lo (a : Alg) (lo hi : Block128) : wordsBlock (scheduleWords a (keyBytes a lo hi)) 0 = lo :=
  block_ext_words fun j hj => by
    have hnk := four_le_nk a
    rw [blockWord_wordsBlock _ _ hj, Nat.zero_add, scheduleWords_getD_of_lt _ (by omega), keyWord_keyBytes_lo a lo hi hj]

theorem scheduleWords_getD_hi {a : Alg} (lo hi : Block128) {j : Nat} (h : 4 + j < nk a) :
    (scheduleWords a (keyBytes a lo hi)).getD (4 + j) 0 = blockWord hi j := by
  rw [scheduleWords_getD_of_lt _ h, keyWord_keyBytes_hi lo hi h]

/-! ### AES-128 (R185) -/

theorem laneSeq_lane128Next (lo hi : Block128) {i : Nat} (h : i ≤ 10) :
    laneSeq lane128Next lo i = wordsBlock (scheduleWords .aes128 (keyBytes .aes128 lo hi)) (4 * i) := by
  induction i with
  | zero => exact (wordsBlock_keyBytes_lo .aes128 lo hi).symm
  | succ i ih =>
    rw [laneSeq, ih (by omega), lane128Next]
    refine wordsBlock_next (a := .aes128) _ (i := 4 * i) (.inl (Nat.mul_mod_right 4 i)) (by simp [nk, nr]; omega) ?_
    obtain ⟨-, -, h3⟩ := blockWord_keyGenAssist (wordsBlock (scheduleWords .aes128 (keyBytes .aes128 lo hi)) (4 * i))
      (rcon (i + 1))
    rw [h3, blockWord_wordsBlock _ _ (by decide),
      scheduleWords_getD_first (a := .aes128) _ (Nat.mul_mod_right 4 i) (by simp [nk, nr]; omega)]
    simp [nk]

theorem lanes128_eq_expand (lo hi : Block128) : lanes128 lo = expand .aes128 (keyBytes .aes128 lo hi) :=
  List.map_congr_left fun r hr => by
    rw [laneSeq_lane128Next lo hi (by simp at hr; omega), roundKey_eq_wordsBlock]

/-! ### AES-256 (R187) -/

theorem wordsBlock_keyBytes_hi (lo hi : Block128) : wordsBlock (scheduleWords .aes256 (keyBytes .aes256 lo hi)) 4 = hi :=
  block_ext_words fun j hj => by
    rw [blockWord_wordsBlock _ _ hj, scheduleWords_getD_hi lo hi (by simp [nk]; omega)]

/-- The first lane of step `j + 1` is words `8j + 8` to `8j + 11`. -/
theorem lane256Next_fst (key : List Byte) {j : Nat} (h : j ≤ 6) :
    (lane256Next (j + 1) (wordsBlock (scheduleWords .aes256 key) (8 * j),
      wordsBlock (scheduleWords .aes256 key) (8 * j + 4))).1 = wordsBlock (scheduleWords .aes256 key) (8 * j + 8) := by
  obtain ⟨-, -, h3⟩ := blockWord_keyGenAssist (wordsBlock (scheduleWords .aes256 key) (8 * j + 4)) (rcon (j + 1))
  refine wordsBlock_next (a := .aes256) _ (i := 8 * j) (.inl (Nat.mul_mod_right 8 j)) (by simp [nk, nr]; omega) ?_
  rw [h3, blockWord_wordsBlock _ _ (by decide),
    scheduleWords_getD_first (a := .aes256) _ (Nat.mul_mod_right 8 j) (by simp [nk, nr]; omega)]
  simp [nk]

/-- The second lane of step `j + 1` is words `8j + 12` to `8j + 15`. -/
theorem lane256Next_snd (key : List Byte) {j : Nat} (h : j ≤ 5) :
    (lane256Next (j + 1) (wordsBlock (scheduleWords .aes256 key) (8 * j),
      wordsBlock (scheduleWords .aes256 key) (8 * j + 4))).2 = wordsBlock (scheduleWords .aes256 key) (8 * j + 12) := by
  have hfst := lane256Next_fst key (h.trans (by decide))
  simp only [lane256Next] at hfst ⊢
  rw [hfst]
  obtain ⟨-, h2, -⟩ := blockWord_keyGenAssist (wordsBlock (scheduleWords .aes256 key) (8 * j + 8)) 0
  refine wordsBlock_next (a := .aes256) _ (i := 8 * j + 4) (.inr ⟨rfl, by simp [nk]⟩) (by simp [nk, nr]; omega) ?_
  rw [h2, blockWord_wordsBlock _ _ (by decide)]
  exact scheduleWords_getD_fifth _ (i := 8 * j + 4) (by omega) (by omega)

section
variable (lo hi : Block128)

theorem laneSeq_lane256Next {j : Nat} (h : j ≤ 6) :
    laneSeq lane256Next (lo, hi) j = (wordsBlock (scheduleWords .aes256 (keyBytes .aes256 lo hi)) (8 * j),
      wordsBlock (scheduleWords .aes256 (keyBytes .aes256 lo hi)) (8 * j + 4)) := by
  induction j with
  | zero => exact Prod.ext (wordsBlock_keyBytes_lo _ lo hi).symm (wordsBlock_keyBytes_hi lo hi).symm
  | succ j ih =>
    rw [laneSeq, ih (by omega)]
    exact Prod.ext (lane256Next_fst _ (by omega)) (lane256Next_snd _ (by omega))

/-- The last step, whose second lane lies beyond the schedule, is needed for its first lane only. -/
theorem laneSeq_lane256Next_fst {j : Nat} (h : j ≤ 7) :
    (laneSeq lane256Next (lo, hi) j).1 = wordsBlock (scheduleWords .aes256 (keyBytes .aes256 lo hi)) (8 * j) := by
  cases j with
  | zero => exact (wordsBlock_keyBytes_lo _ lo hi).symm
  | succ j =>
    rw [laneSeq, laneSeq_lane256Next lo hi (by omega)]
    exact lane256Next_fst _ (by omega)

theorem lane256Key_eq_roundKey {r : Nat} (h : r < 15) :
    lane256Key lo hi r = roundKey (scheduleWords .aes256 (keyBytes .aes256 lo hi)) r := by
  rw [roundKey_eq_wordsBlock, lane256Key]
  split
  · rw [laneSeq_lane256Next_fst lo hi (by omega), show 8 * (r / 2) = 4 * r by omega]
  · rw [laneSeq_lane256Next lo hi (by omega), show 8 * (r / 2) + 4 = 4 * r by omega]

theorem lanes256_eq_expand : lanes256 lo hi = expand .aes256 (keyBytes .aes256 lo hi) :=
  List.map_congr_left fun _ hr => lane256Key_eq_roundKey lo hi (List.mem_range.mp hr)

end

/-! ### AES-192 (R186) -/

theorem lo64_eq (x : Block128) : lo64 x = blockWord x 1 ++ blockWord x 0 :=
  (BitVec.extractLsb'_append_extractLsb'_eq_extractLsb' (show 32 * 1 = 32 * 0 + 32 from rfl)).symm

theorem hi64_eq (x : Block128) : hi64 x = blockWord x 3 ++ blockWord x 2 :=
  (BitVec.extractLsb'_append_extractLsb'_eq_extractLsb' (show 32 * 3 = 32 * 2 + 32 from rfl)).symm

theorem join_append (w0 w1 w2 w3 : Word32) : join (w1 ++ w0) (w3 ++ w2) = blockOfWords w0 w1 w2 w3 := by
  rw [join, blockOfWords, BitVec.append_assoc (x₁ := w3 ++ w2), BitVec.cast_eq]

theorem join_lo64_zero (x : Block128) : join (lo64 x) 0 = blockOfWords (blockWord x 0) (blockWord x 1) 0 0 := by
  rw [lo64_eq]
  exact join_append _ _ 0 0

theorem join_lo64_lo64 (x y : Block128) :
    join (lo64 x) (lo64 y) = blockOfWords (blockWord x 0) (blockWord x 1) (blockWord y 0) (blockWord y 1) := by
  rw [lo64_eq, lo64_eq, join_append]

theorem join_hi64_lo64 (x y : Block128) :
    join (hi64 x) (lo64 y) = blockOfWords (blockWord x 2) (blockWord x 3) (blockWord y 0) (blockWord y 1) := by
  rw [hi64_eq, lo64_eq, join_append]

/-- The high lane of a step: words 4 and 5 of its group, the upper half 0. -/
def highLane (w : List Word32) (j : Nat) : Block128 := blockOfWords (w.getD (6 * j + 4) 0) (w.getD (6 * j + 5) 0) 0 0

theorem blockWord_highLane (w : List Word32) (j : Nat) :
    blockWord (highLane w j) 0 = w.getD (6 * j + 4) 0 ∧ blockWord (highLane w j) 1 = w.getD (6 * j + 5) 0 := by
  obtain ⟨h0, h1, -⟩ := blockWord_blockOfWords (w.getD (6 * j + 4) 0) (w.getD (6 * j + 5) 0) 0 0
  exact ⟨h0, h1⟩

/-- The low lane of step `j + 1` is words `6j + 6` to `6j + 9`. -/
theorem lane192Next_fst (key : List Byte) {j : Nat} (h : j ≤ 7) :
    (lane192Next (j + 1) (wordsBlock (scheduleWords .aes192 key) (6 * j), highLane (scheduleWords .aes192 key) j)).1 =
      wordsBlock (scheduleWords .aes192 key) (6 * j + 6) := by
  obtain ⟨h1, -⟩ := blockWord_keyGenAssist (highLane (scheduleWords .aes192 key) j) (rcon (j + 1))
  obtain ⟨-, hword⟩ := blockWord_highLane (scheduleWords .aes192 key) j
  refine wordsBlock_next (a := .aes192) _ (i := 6 * j) (.inl (Nat.mul_mod_right 6 j)) (by simp [nk, nr]; omega) ?_
  rw [h1, hword, scheduleWords_getD_first (a := .aes192) _ (Nat.mul_mod_right 6 j) (by simp [nk, nr]; omega)]
  simp [nk]

/-- The high lane of step `j + 1` is words `6j + 10` and `6j + 11`. -/
theorem lane192Next_snd (key : List Byte) {j : Nat} (h : j ≤ 6) :
    (lane192Next (j + 1) (wordsBlock (scheduleWords .aes192 key) (6 * j), highLane (scheduleWords .aes192 key) j)).2 =
      highLane (scheduleWords .aes192 key) (j + 1) := by
  have hfst := lane192Next_fst key (h.trans (by decide))
  obtain ⟨hw0, hw1⟩ := blockWord_highLane (scheduleWords .aes192 key) j
  obtain ⟨s0, s1, -⟩ := blockWord_shl32 (highLane (scheduleWords .aes192 key) j)
  have hten : (scheduleWords .aes192 key).getD (6 * (j + 1) + 4) 0 = (scheduleWords .aes192 key).getD (6 * j + 4) 0 ^^^
      (scheduleWords .aes192 key).getD (6 * j + 6 + 3) 0 :=
    scheduleWords_getD_other (a := .aes192) key (i := 6 * j + 4) (by simp [nk]) (by simp [nk]) (by simp [nk, nr]; omega)
  have heleven : (scheduleWords .aes192 key).getD (6 * (j + 1) + 5) 0 = (scheduleWords .aes192 key).getD (6 * j + 5) 0 ^^^
      (scheduleWords .aes192 key).getD (6 * (j + 1) + 4) 0 :=
    scheduleWords_getD_other (a := .aes192) key (i := 6 * j + 5) (by simp [nk]) (by simp [nk]) (by simp [nk, nr]; omega)
  simp only [lane192Next] at hfst ⊢
  rw [hfst, join_lo64_zero]
  conv_rhs => rw [highLane, heleven, hten]
  simp only [blockWord_xor128, blockWord_bcast _ _ (show 0 < 4 by decide), blockWord_bcast _ _ (show 1 < 4 by decide),
    blockWord_wordsBlock _ _ (show 3 < 4 by decide), s0, s1, hw0, hw1, BitVec.xor_assoc, BitVec.xor_zero,
    BitVec.ofNat_eq_ofNat]

section
variable (lo hi : Block128)

theorem laneSeq_lane192Next {j : Nat} (h : j ≤ 7) :
    laneSeq lane192Next (lo, join (lo64 hi) 0) j = (wordsBlock (scheduleWords .aes192 (keyBytes .aes192 lo hi)) (6 * j),
      highLane (scheduleWords .aes192 (keyBytes .aes192 lo hi)) j) := by
  induction j with
  | zero =>
    refine Prod.ext (wordsBlock_keyBytes_lo _ lo hi).symm ?_
    have hkey (k : Nat) (hk : 4 + k < 6) := scheduleWords_getD_hi (a := .aes192) lo hi hk
    rw [laneSeq, join_lo64_zero, ← hkey 0 (by decide), ← hkey 1 (by decide)]
    rfl
  | succ j ih =>
    rw [laneSeq, ih (by omega)]
    exact Prod.ext (lane192Next_fst _ (by omega)) (lane192Next_snd _ (by omega))

/-- The last step, whose high lane lies beyond the schedule, is needed for its low lane only. -/
theorem laneSeq_lane192Next_fst {j : Nat} (h : j ≤ 8) :
    (laneSeq lane192Next (lo, join (lo64 hi) 0) j).1 =
      wordsBlock (scheduleWords .aes192 (keyBytes .aes192 lo hi)) (6 * j) := by
  cases j with
  | zero => exact (wordsBlock_keyBytes_lo _ lo hi).symm
  | succ j =>
    rw [laneSeq, laneSeq_lane192Next lo hi (by omega)]
    exact lane192Next_fst _ (by omega)

theorem lane192Key_eq_roundKey {r : Nat} (h : r < 13) :
    lane192Key lo hi r = roundKey (scheduleWords .aes192 (keyBytes .aes192 lo hi)) r := by
  rw [roundKey_eq_wordsBlock, lane192Key]
  obtain h3 | h3 | h3 : r % 3 = 0 ∨ r % 3 = 1 ∨ r % 3 = 2 := by omega
  · simp only [h3]
    rw [laneSeq_lane192Next_fst lo hi (by omega), show 6 * (2 * (r / 3)) = 4 * r by omega]
  · obtain ⟨hw0, hw1⟩ := blockWord_highLane (scheduleWords .aes192 (keyBytes .aes192 lo hi)) (2 * (r / 3))
    simp only [h3]
    rw [laneSeq_lane192Next lo hi (by omega), laneSeq_lane192Next_fst lo hi (by omega), join_lo64_lo64, hw0, hw1,
      blockWord_wordsBlock _ _ (by decide), blockWord_wordsBlock _ _ (by decide), wordsBlock,
      show 4 * r = 6 * (2 * (r / 3)) + 4 by omega]
    rfl
  · obtain ⟨hw0, hw1⟩ := blockWord_highLane (scheduleWords .aes192 (keyBytes .aes192 lo hi)) (2 * (r / 3) + 1)
    simp only [h3]
    rw [laneSeq_lane192Next lo hi (by omega), join_hi64_lo64, hw0, hw1,
      blockWord_wordsBlock _ _ (by decide), blockWord_wordsBlock _ _ (by decide), wordsBlock,
      show 4 * r = 6 * (2 * (r / 3) + 1) + 2 by omega]

theorem lanes192_eq_expand : lanes192 lo hi = expand .aes192 (keyBytes .aes192 lo hi) :=
  List.map_congr_left fun _ hr => lane192Key_eq_roundKey lo hi (List.mem_range.mp hr)

end

end Sys2Proof.Machine
end

section
/-! CERTIFICATE. The statement about the lane-level key schedules (spec/41_key_schedule.md R188). -/

namespace Sys2Proof.Certificates

open Sys2Proof.Machine

/-- Settles O19, size by size: each lane holds words of the recurrence. -/
theorem laneSchedulesEqualExpansion : Obligations.LaneSchedulesEqualExpansion := by
  unfold Obligations.LaneSchedulesEqualExpansion
  exact fun lo hi => ⟨lanes128_eq_expand lo hi, lanes192_eq_expand lo hi, lanes256_eq_expand lo hi⟩

end Sys2Proof.Certificates
end

section
/-! SUPPORT. Sessions over several blocks (spec/43_modes.md R228, R229; spec/70_reset_and_hazards.md R382): a decrypt step undoes
an encrypt step, and a sequence of block commands is the mode's stream. -/

namespace Sys2Proof.Machine

/-! ### The two directions of a step (R228) -/

theorem xor128_cancel_left (k x : Block128) : xor128 k (xor128 k x) = x := by
  rw [xor128, xor128, ← BitVec.xor_assoc, BitVec.xor_self, BitVec.zero_xor]

/-- From one chaining state a decrypt step gives back the plaintext and the encrypt step's next chaining state. -/
theorem modeDec_modeEnc {enc dec : Block128 → Block128} (h : ∀ x, dec (enc x) = x) (m : Mode) (p c : Block128) :
    modeDec enc dec m (modeEnc enc m p c).1 c = (p, (modeEnc enc m p c).2) := by
  cases m with
  | ecb => rw [modeEnc, modeDec, h]
  | cbc => rw [modeEnc, modeDec, h, xor128_xor128_cancel]
  | cfb => rw [modeEnc, modeDec, xor128_cancel_left]
  | ofb => rw [modeEnc, modeDec, xor128_cancel_left]
  | ctr => rw [modeEnc, modeDec, xor128_xor128_cancel]

theorem stream_modeDec_modeEnc {enc dec : Block128 → Block128} (h : ∀ x, dec (enc x) = x) (m : Mode) (xs : List Block128)
    (c : Block128) :
    stream (modeDec enc dec m) (stream (modeEnc enc m) xs c).1 c = (xs, (stream (modeEnc enc m) xs c).2) := by
  induction xs generalizing c with
  | nil => rfl
  | cons x xs ih => rw [stream, stream, modeDec_modeEnc h, ih]

section
variable {s : State} (h : s.dk = keyFile (nr s.alg) (invert (fileKeys (nr s.alg) s.ek)))
include h

/-- `Dec` runs `D` under the inversion of the keys `Enc` runs `E` under. -/
theorem dec_of_inverted (x : Block128) : s.dec x = blockDecrypt x (invert (fileKeys (nr s.alg) s.ek)) := by
  rw [State.dec, h, fileKeys_invert (fileKeys_length _ _)]

theorem dec_enc (x : Block128) : s.dec (s.enc x) = x := by
  have hlen : 2 ≤ (fileKeys (nr s.alg) s.ek).length := by
    have := one_le_nr s.alg
    rw [fileKeys_length]
    omega
  rw [dec_of_inverted h]
  exact blockDecrypt_blockEncrypt hlen x

theorem enc_dec (x : Block128) : s.enc (s.dec x) = x := block_rightInverse_of_leftInverse (dec_enc h) x

end

/-! ### A sequence of block commands (R229) -/

/-- Only what a block command writes, and the host before it, may differ: `DIN`, `DOUT`, `S` and `STATUS`. -/
def BlockFrame (s t : State) : Prop :=
  t = { s with din := t.din, dout := t.dout, chain := t.chain, statusCode := t.statusCode, statusArg := t.statusArg }

/-- A command that takes one step `f` on `DIN` from every state of the session takes the stream of `f` over a sequence. -/
theorem blockRun_stream {i : Instr} {f : Block128 → Block128 → Block128 × Block128} {s : State}
    (hstep : ∀ t, BlockFrame s t → exec i t = .next (withStatus .success .none
      { t with dout := (f t.din t.chain).1, chain := (f t.din t.chain).2 }))
    (xs : List Block128) {t : State} (ht : BlockFrame s t) :
    ∃ u, blockRun i xs t = some ((stream f xs t.chain).1, u) ∧ u.chain = (stream f xs t.chain).2 ∧ BlockFrame s u := by
  induction xs generalizing t with
  | nil => exact ⟨t, rfl, rfl, ht⟩
  | cons x xs ih =>
    have hx : BlockFrame s { t with din := x } := by
      rw [BlockFrame] at ht
      rw [BlockFrame, ht]
    have hexec := hstep _ hx
    obtain ⟨u, hrun, hchain, hu⟩ := ih (t := withStatus .success .none
      { t with din := x, dout := (f x t.chain).1, chain := (f x t.chain).2 }) (by
        rw [BlockFrame] at ht
        rw [BlockFrame, ht]
        rfl)
    refine ⟨u, ?_, hchain, hu⟩
    rw [blockRun, hexec]
    simp only [withStatus_statusCode, if_true, hrun]
    rfl

theorem encb_step {s t : State} (hms : s.msValid = true) (ht : BlockFrame s t) :
    exec .encb t = .next (withStatus .success .none
      { t with dout := (modeEnc s.enc s.mode t.din t.chain).1, chain := (modeEnc s.enc s.mode t.din t.chain).2 }) := by
  have hstep : t.encStep t.din = modeEnc s.enc s.mode t.din t.chain := by rw [ht]; rfl
  rw [exec_encb, execEncb_of_msValid (by rw [ht]; exact hms), hstep]

theorem decb_step {s t : State} (hms : s.msValid = true) (hdk : needsDk s.mode = true → s.dkValid = true)
    (ht : BlockFrame s t) :
    exec .decb t = .next (withStatus .success .none
      { t with dout := (modeDec s.enc s.dec s.mode t.din t.chain).1,
               chain := (modeDec s.enc s.dec s.mode t.din t.chain).2 }) := by
  have hstep : t.decStep t.din = modeDec s.enc s.dec s.mode t.din t.chain := by rw [ht]; rfl
  rw [exec_decb, execDecb_of_ready (by rw [ht]; exact hms) (by rw [ht]; exact hdk), hstep]

end Sys2Proof.Machine
end

section
/-! CERTIFICATE. The statements about sessions over several blocks (spec/43_modes.md, spec/70_reset_and_hazards.md). -/

namespace Sys2Proof.Certificates

open Sys2Proof.Machine

/-- Settles O33, mode by mode. -/
theorem directionsStaySynchronous : Obligations.DirectionsStaySynchronous := by
  unfold Obligations.DirectionsStaySynchronous
  exact ⟨fun enc dec m p c h => modeDec_modeEnc h m p c, fun s x h => ⟨dec_enc h x, enc_dec h x⟩⟩

/-- Settles O34: every command of the sequence finds the session as the first one did. -/
theorem blockCommandsFollowModeStream : Obligations.BlockCommandsFollowModeStream := by
  unfold Obligations.BlockCommandsFollowModeStream
  exact ⟨fun xs s hms => blockRun_stream (fun _ => encb_step hms) xs rfl,
    fun xs s hms hdk => blockRun_stream (fun _ => decb_step hms hdk) xs rfl⟩

/-- Settles O35: `MSTART` loads `S` from `IV`, and neither the write nor `MSTART` touches a round key. -/
theorem sessionResumesFromSnapshot : Obligations.SessionResumesFromSnapshot := by
  unfold Obligations.SessionResumesFromSnapshot
  intro s u hms hvalid hek hdk halg
  obtain ⟨-, -, hiv, -⟩ := writeRegister_block s.chain u
  have hwrite : hostWrite 0x06 s.chain.toNat u = .next { u with iv := s.chain } := congrArg Host.Outcome.next hiv
  have hstart := execMstart_of_ready (s := { u with iv := s.chain }) hvalid (m := s.mode) (fun _ => rfl)
  exact ⟨_, _, hwrite, rfl, hstart, rfl, rfl, rfl, enc_congr halg hek, dec_congr halg hdk⟩

end Sys2Proof.Certificates
end

section
/-! SUPPORT. The real runs of the buffer commands as the mode's stream (spec/44_buffer.md R270, R275): what a run leaves in
memory, in `S` and in the registers. -/

namespace Sys2Proof.Machine

/-! ### The run of `ENCBUF` -/

theorem encStep_of_frame {s t : State} (h : t = { s with chain := t.chain, mem := t.mem }) (x : Block128) :
    t.encStep x = modeEnc s.enc s.mode x t.chain := by
  rw [h]
  rfl

/-- One more encrypt step, its output stored as the next destination block. -/
theorem StepsDone.encBlockTo {s t : State} {xs : List Block128} (h : StepsDone (modeEnc s.enc s.mode) s xs t) {i : Nat}
    (hi : i = xs.length) (x : Block128) : StepsDone (modeEnc s.enc s.mode) s (xs ++ [x]) (encBlockTo i x t) := by
  have hdst : t.dstAddr = s.dstAddr := by rw [h.frame]
  have hstep := encStep_of_frame h.frame x
  refine h.snoc (encBlockTo_frame _ _ _) ?_ ?_
  · rw [encBlockTo_chain, hstep]
  · rw [encBlockTo_mem, hstep, hdst, hi]

theorem encChunks_stepsDone {s : State} (hahead : SourceAhead s) (n i : Nat) {t : State} (hlen : 16 * (i + n) ≤ s.srcLen)
    (h : StepsDone (modeEnc s.enc s.mode) s ((List.range i).map (srcChunk s)) t) :
    StepsDone (modeEnc s.enc s.mode) s ((List.range (i + n)).map (srcChunk s)) (encChunks n i t) := by
  induction n generalizing i t with
  | zero => exact h
  | succ n ih =>
    have hchunk := h.srcChunk_eq hahead (by rw [List.length_map, List.length_range]; omega)
    rw [List.length_map, List.length_range] at hchunk
    have hnext : StepsDone (modeEnc s.enc s.mode) s ((List.range (i + 1)).map (srcChunk s))
        (encBlockTo i (srcChunk t i) t) := by
      rw [List.range_succ, List.map_append, List.map_singleton, hchunk]
      exact h.encBlockTo (by simp) _
    rw [encChunks, show i + (n + 1) = i + 1 + n by omega]
    exact ih (i + 1) (by omega) hnext

/-- The steps over the full chunks have left the rest of the source as it was. -/
theorem StepsDone.encTail_eq {f : Block128 → Block128 → Block128 × Block128} {s t : State} {xs : List Block128}
    (h : StepsDone f s xs t) (hahead : SourceAhead s) (hlen : xs.length = s.srcLen / 16) : encTail t = encTail s := by
  obtain ⟨hframe, -, -, hstored⟩ := h
  have hsrc : t.srcAddr = s.srcAddr := by rw [hframe]
  have hn : t.srcLen = s.srcLen := by rw [hframe]
  rw [encTail, encTail, hsrc, hn]
  refine congrArg pad (memRead_congr fun j hj => ?_)
  have hclear := hahead (16 * (s.srcLen / 16) + j) (by omega)
  rw [hstored, storedByte, blocksBytes_length, stream_length, if_neg (by omega)]

theorem memRead_drop (m : Memory) (a n k : Nat) : (memRead m a n).drop k = memRead m (a + k) (n - k) := by
  refine List.ext_getElem (by simp) fun i _ _ => ?_
  simp [memRead, Nat.add_assoc]

/-- The blocks `ENCBUF` encrypts are its source chunks and its tail. -/
theorem paddedBlocks_source (s : State) : paddedBlocks (memRead s.mem s.srcAddr s.srcLen) =
    (List.range (s.srcLen / 16)).map (srcChunk s) ++ [encTail s] := by
  rw [paddedBlocks, memRead_length, fullChunks_source, memRead_drop, encTail,
    show s.srcLen - 16 * (s.srcLen / 16) = s.srcLen % 16 by omega]

theorem paddedBlocks_length (bs : List Byte) : (paddedBlocks bs).length = bs.length / 16 + 1 := by
  simp [paddedBlocks, fullChunks]

/-! ### What a run leaves -/

/-- The state `t` a real run from `s` ends in: the bytes `out` stored at the destination, `S` and `DST_LEN` and the code as
given, everything else unchanged. -/
structure BufferRun (s : State) (out : List Byte) (c : Block128) (n : Nat) (code : StatusCode) (t : State) : Prop where
  frame : t = { s with mem := t.mem, chain := t.chain, dstLen := t.dstLen, statusCode := t.statusCode,
                       statusArg := t.statusArg }
  code : t.statusCode = code
  arg : t.statusArg = .none
  dstLen : t.dstLen = n
  chain : t.chain = c
  stored : ∀ a, Memory.read t.mem a = storedByte s.mem s.dstAddr out a

/-- A run ends where its steps have led, with the given `DST_LEN` and code. -/
theorem StepsDone.bufferRun {f : Block128 → Block128 → Block128 × Block128} {s u : State} {xs : List Block128}
    (h : StepsDone f s xs u) (n : Nat) (code : StatusCode) :
    BufferRun s (blocksBytes (stream f xs s.chain).1) (stream f xs s.chain).2 n code
      (withStatus code .none { u with dstLen := n }) := by
  refine ⟨?_, rfl, rfl, rfl, h.chain, h.stored⟩
  rw [h.frame]
  rfl

theorem execEncbuf_bufferRun {s : State} (hwf : Memory.wf s.mem = true) (hok : encRunOk s = true) :
    ∃ t, execEncbuf s = .next t ∧
      BufferRun s (blocksBytes (encOutput s).1) (encOutput s).2 (encReq s.srcLen) .success t := by
  obtain ⟨-, -, -, -, -, hrange⟩ := (encRunOk_iff s).mp hok
  have hahead := sourceAhead_of_rangeOk (by rw [encReq]; omega) hrange
  have hchunks := encChunks_stepsDone hahead (s.srcLen / 16) 0 (by omega) (StepsDone.nil _ hwf)
  rw [Nat.zero_add] at hchunks
  have hall := hchunks.encBlockTo (i := s.srcLen / 16) (by simp) (encTail s)
  rw [← paddedBlocks_source] at hall
  refine ⟨_, (execEncbuf_of_encRunOk hok).trans ?_, hall.bufferRun (encReq s.srcLen) .success⟩
  rw [encRun, hchunks.encTail_eq hahead (by simp)]
  rfl

theorem execDecbuf_bufferRun_of_invalid {s : State} (hwf : Memory.wf s.mem = true) (hok : decRunOk s = true)
    (hpad : padCheck (decLastBlock s) = none) :
    ∃ t, execDecbuf s = .next t ∧ BufferRun s ((blocksBytes (decOutput s).1).take (16 * (s.srcLen / 16 - 1)))
      (decOutput s).2 (16 * (s.srcLen / 16 - 1)) .invalidPadding t := by
  obtain ⟨hout, -⟩ := decRun_last_step hwf hok
  have hdone := decLeading_stepsDone hwf hok
  refine ⟨_, (execDecbuf_of_decRunOk hok).trans (decRun_of_invalid_padding hwf hok hpad), ?_, rfl, rfl, rfl, rfl,
    fun a => ?_⟩
  · rw [hdone.frame]; rfl
  · rw [hout, blocksBytes_append_singleton, List.take_left' (by simp)]
    exact hdone.stored a

section
variable {s : State} (hwf : Memory.wf s.mem = true) (hok : decRunOk s = true) {k : Nat}
  (hpad : padCheck (decLastBlock s) = some k)
include hwf hok hpad

/-- With valid padding the last block is stored without it. -/
theorem decRun_eq_of_valid_padding :
    decRun s = .next (withStatus .success .none
      { decBlockTo (s.srcLen / 16 - 1) (16 - k) (srcChunk (decLeading s) (s.srcLen / 16 - 1)) (decLeading s) with
        dstLen := s.srcLen - k }) := by
  obtain ⟨-, hstep⟩ := decRun_last_step hwf hok
  rw [decLeading] at hstep
  simp only [decRun, hstep, hpad, succeed_eq]
  rfl

theorem execDecbuf_bufferRun_of_valid :
    ∃ t, execDecbuf s = .next t ∧ BufferRun s ((blocksBytes (decOutput s).1).take (s.srcLen - k)) (decOutput s).2
      (s.srcLen - k) .success t := by
  obtain ⟨-, -, hlen, hmod, -⟩ := (decRunOk_iff s).mp hok
  obtain ⟨-, hk, -⟩ := (padCheck_eq_some_iff _ k).mp hpad
  obtain ⟨hout, hstep⟩ := decRun_last_step hwf hok
  have hdone := decLeading_stepsDone hwf hok
  have hdst : (decLeading s).dstAddr = s.dstAddr := by rw [hdone.frame]
  have hbytes : (blocksBytes (decOutput s).1).take (s.srcLen - k) =
      blocksBytes (stream (modeDec s.enc s.dec s.mode) (leadingChunks s) s.chain).1 ++
        (blockBytes (decLastBlock s)).take (16 - k) := by
    rw [hout, blocksBytes_append_singleton, List.take_append, List.take_of_length_le (by simp; omega)]
    simp only [blocksBytes_length, stream_length, leadingChunks_length]
    rw [show s.srcLen - k - 16 * (s.srcLen / 16 - 1) = 16 - k by omega]
  refine ⟨_, (execDecbuf_of_decRunOk hok).trans (decRun_eq_of_valid_padding hwf hok hpad), ?_, rfl, rfl, rfl, ?_,
    fun a => ?_⟩
  · rw [decBlockTo_frame, hdone.frame]; rfl
  · rw [withStatus_chain]
    exact congrArg Prod.snd hstep
  · rw [hbytes, ← storedByte_append hdone.stored, withStatus_mem]
    simp only [decBlockTo_mem, hstep, hdst, blocksBytes_length, stream_length, leadingChunks_length]
    exact memWrite_read _ _ hdone.canonical a

end

theorem encOutput_length (s : State) : (encOutput s).1.length = s.srcLen / 16 + 1 := by
  rw [encOutput, stream_length, paddedBlocks_length, memRead_length]

theorem decOutput_length (s : State) : (decOutput s).1.length = s.srcLen / 16 := by
  rw [decOutput, stream_length, fullChunks_source, List.length_map, List.length_range]

/-! ### Bytes and blocks -/

theorem memRead_of_stored {m m' : Memory} {addr : Nat} {v : List Byte}
    (h : ∀ a, Memory.read m' a = storedByte m addr v a) : memRead m' addr v.length = v := by
  refine List.ext_getElem (memRead_length _ _ _) fun j _ hj => ?_
  simp only [memRead, List.getElem_map, List.getElem_range, h, storedByte]
  rw [if_pos (by omega), Nat.add_sub_cancel_left, List.getD_eq_getElem _ _ hj]

theorem fullChunks_succ (k : Nat) (bs : List Byte) :
    fullChunks (k + 1) bs = blockOfBytes (bs.take 16) :: fullChunks k (bs.drop 16) := by
  simp [fullChunks, List.range_succ_eq_map, List.drop_drop, Nat.mul_add, Nat.add_comm]

/-- The blocks of the bytes of a sequence of blocks are that sequence. -/
theorem fullChunks_blocksBytes (xs : List Block128) : fullChunks xs.length (blocksBytes xs) = xs := by
  induction xs with
  | nil => rfl
  | cons x xs ih =>
    have hbytes : blocksBytes (x :: xs) = blockBytes x ++ blocksBytes xs := rfl
    rw [List.length_cons, fullChunks_succ, hbytes, List.take_left' (blockBytes_length x),
      List.drop_left' (blockBytes_length x), blockOfBytes_blockBytes, ih]

/-- The bytes of the full chunks of a byte sequence stand at its front. -/
theorem blocksBytes_fullChunks (k : Nat) (bs : List Byte) (h : 16 * k ≤ bs.length) :
    blocksBytes (fullChunks k bs) = bs.take (16 * k) := by
  induction k generalizing bs with
  | zero => rfl
  | succ k ih =>
    have hbytes (x : Block128) (xs : List Block128) : blocksBytes (x :: xs) = blockBytes x ++ blocksBytes xs := rfl
    rw [fullChunks_succ, hbytes, blockBytes_blockOfBytes _ (by simp; omega), ih _ (by simp; omega), Nat.mul_succ,
      Nat.add_comm, List.take_add]

/-- The bytes before the padding are the source bytes. -/
theorem take_blocksBytes_paddedBlocks (bs : List Byte) : (blocksBytes (paddedBlocks bs)).take bs.length = bs := by
  have htail : (bs.drop (16 * (bs.length / 16))).length ≤ 15 := by simp; omega
  rw [paddedBlocks, blocksBytes_append_singleton, blocksBytes_fullChunks _ _ (by omega), pad,
    blockBytes_blockOfBytes _ (by simp; omega), ← List.append_assoc, List.take_append_drop, List.take_left' rfl]

end Sys2Proof.Machine
end

section
/-! SUPPORT. The way from `ENCBUF` to `DECBUF` (spec/44_buffer.md R280): in the session restarted by `MSTART` the ciphertext
decrypts to the padded source blocks. -/

namespace Sys2Proof.Machine

/-- The one way `MSTART` succeeds (R230). -/
theorem eq_of_mstart_success {m : Mode} {v : Bool} {s t : State} (ht : exec (.mstart (modeCode m) v) s = .next t)
    (hok : t.statusCode = .success) :
    t = withStatus .success .none { s with mode := m, chain := if v then s.iv else 0, ivValid := v, msValid := true } := by
  obtain ⟨-, h⟩ | ⟨m', hm, ⟨-, h⟩ | ⟨-, -, -, h⟩ | ⟨-, -, h⟩⟩ := execMstart_cases (modeCode m) v s <;>
    cases h.symm.trans ht
  · cases hok
  · cases hok
  · cases hok
  · rw [modeOf_modeCode, Option.some.injEq] at hm
    rw [hm]

/-- The session `u` reads, from where it was written, the ciphertext of a run of `ENCBUF` from `s`, with the cipher, the mode and
the chaining state of that run. -/
structure ReadsBack (s u : State) : Prop where
  enc : u.enc = s.enc
  dec : u.dec = s.dec
  mode : u.mode = s.mode
  chain : u.chain = s.chain
  srcLen : u.srcLen = encReq s.srcLen
  source : memRead u.mem u.srcAddr u.srcLen = blocksBytes (encOutput s).1

theorem readsBack_of_restart {s t u : State} {v : Bool} {d l : Nat} (hchain : s.chain = if v then s.iv else 0)
    (hrun : BufferRun s (blocksBytes (encOutput s).1) (encOutput s).2 (encReq s.srcLen) .success t)
    (hstart : exec (.mstart (modeCode s.mode) v)
      { t with srcAddr := s.dstAddr, srcLen := t.dstLen, dstAddr := d, dstLen := l } = .next u)
    (hok : u.statusCode = .success) : ReadsBack s u := by
  have halg : t.alg = s.alg := by rw [hrun.frame]
  have hek : t.ek = s.ek := by rw [hrun.frame]
  have hdk : t.dk = s.dk := by rw [hrun.frame]
  have hiv : t.iv = s.iv := by rw [hrun.frame]
  have hlen : (blocksBytes (encOutput s).1).length = encReq s.srcLen := by
    rw [blocksBytes_length, encOutput_length, encReq]
  rw [eq_of_mstart_success hstart hok]
  refine ⟨enc_congr halg hek, dec_congr halg hdk, rfl, ?_, hrun.dstLen, ?_⟩
  · rw [hchain, ← hiv]; rfl
  · have hread := memRead_of_stored hrun.stored
    rw [hlen, ← hrun.dstLen] at hread
    exact hread

/-- What the restarted session decrypts. -/
theorem decOutput_of_readsBack {s u : State} (hdk : s.dk = keyFile (nr s.alg) (invert (fileKeys (nr s.alg) s.ek)))
    (h : ReadsBack s u) : (decOutput u).1 = paddedBlocks (memRead s.mem s.srcAddr s.srcLen) := by
  have hcount : u.srcLen / 16 = (encOutput s).1.length := by
    rw [h.srcLen, encReq, encOutput_length]
    omega
  rw [decOutput, h.source, hcount, fullChunks_blocksBytes, h.enc, h.dec, h.mode, h.chain, encOutput,
    stream_modeDec_modeEnc (dec_enc hdk)]

/-- The last block it decrypts is the one that was padded. -/
theorem padCheck_of_readsBack {s u : State} (hdk : s.dk = keyFile (nr s.alg) (invert (fileKeys (nr s.alg) s.ek)))
    (h : ReadsBack s u) : padCheck (decLastBlock u) = some (16 - s.srcLen % 16) := by
  have htail : ((memRead s.mem s.srcAddr s.srcLen).drop (16 * (s.srcLen / 16))).length = s.srcLen % 16 := by
    simp; omega
  rw [decLastBlock, decOutput_of_readsBack hdk h, paddedBlocks, List.getLastD_concat, memRead_length,
    padCheck_pad (by omega), htail]

end Sys2Proof.Machine
end

section
/-! CERTIFICATE. The statements about the real runs of the buffer commands (spec/44_buffer.md). -/

namespace Sys2Proof.Certificates

open Sys2Proof.Machine

/-- Settles O40: disjoint or in place, no step reads a source byte that an earlier step has overwritten. -/
theorem encbufEncryptsBuffer : Obligations.EncbufEncryptsBuffer := by
  unfold Obligations.EncbufEncryptsBuffer
  intro s hwf hok
  obtain ⟨t, ht, hrun⟩ := execEncbuf_bufferRun hwf hok
  exact ⟨t, ht, hrun.code, hrun.arg, hrun.dstLen, by rw [blocksBytes_length, encOutput_length], hrun.chain, hrun.stored,
    hrun.frame⟩

/-- Settles O41: the last block is stored up to its padding. -/
theorem decbufDecryptsBuffer : Obligations.DecbufDecryptsBuffer := by
  unfold Obligations.DecbufDecryptsBuffer
  intro s k hwf hok hpad
  obtain ⟨-, -, -, hmod, -⟩ := (decRunOk_iff s).mp hok
  obtain ⟨t, ht, hrun⟩ := execDecbuf_bufferRun_of_valid hwf hok hpad
  exact ⟨t, ht, hrun.code, hrun.arg, hrun.dstLen, by rw [blocksBytes_length, decOutput_length]; omega, hrun.chain,
    hrun.stored, hrun.frame⟩

/-- Settles O43: the decrypt steps undo the encrypt steps, and the last block decrypted is the one that was padded. -/
theorem bufferRoundTrip : Obligations.BufferRoundTrip := by
  unfold Obligations.BufferRoundTrip
  intro s t u v d l hwf hok _ hdk hchain hexec hstart hcode huok
  obtain ⟨t', ht', hrun⟩ := execEncbuf_bufferRun hwf hok
  cases ht'.symm.trans hexec
  have hback := readsBack_of_restart hchain hrun hstart hcode
  have hu := eq_of_mstart_success hstart hcode
  have htwf : Memory.wf t.mem = true := encRun_wf hwf ((execEncbuf_of_encRunOk hok).symm.trans hexec)
  have huwf : Memory.wf u.mem = true := by rw [hu]; exact htwf
  have hudst : u.dstAddr = d := by rw [hu]; rfl
  obtain ⟨w, hw, hdec⟩ := execDecbuf_bufferRun_of_valid huwf huok (padCheck_of_readsBack hdk hback)
  have hn : u.srcLen - (16 - s.srcLen % 16) = s.srcLen := by
    rw [hback.srcLen, encReq]
    omega
  have hbytes := take_blocksBytes_paddedBlocks (memRead s.mem s.srcAddr s.srcLen)
  rw [memRead_length] at hbytes
  have hread := memRead_of_stored hdec.stored
  rw [hn, decOutput_of_readsBack hdk hback, hbytes, memRead_length, hudst] at hread
  exact ⟨w, hw, hdec.code, hdec.dstLen.trans hn, hread⟩

end Sys2Proof.Certificates
end

section
/-! SUPPORT. What the commands write (spec/10_state.md section 10) and what of the buffer memory they read (spec/20_memory.md
sections 1 and 4). -/

namespace Sys2Proof.Machine

/-! ### The write matrix of the buffer commands (R37) -/

theorem encChunks_chain_of_ecb (n i : Nat) {s : State} (h : s.mode = .ecb) : (encChunks n i s).chain = s.chain := by
  induction n generalizing i s with
  | zero => rfl
  | succ n ih => rw [encChunks, ih _ (by rwa [encBlockTo_mode]), encBlockTo_chain, encStep_of_ecb h]

theorem decChunks_chain_of_ecb (n i : Nat) {s : State} (h : s.mode = .ecb) : (decChunks n i s).chain = s.chain := by
  induction n generalizing i s with
  | zero => rfl
  | succ n ih => rw [decChunks, ih _ (by rwa [decBlockTo_mode]), decBlockTo_chain, decStep_of_ecb h]

theorem encRun_chain_of_ecb {s t : State} (h : s.mode = .ecb) (ht : encRun s = .next t) : t.chain = s.chain := by
  have hmode : (encChunks (s.srcLen / 16) 0 s).mode = .ecb := by rwa [encChunks_frame]
  rw [encRun, succeed_eq] at ht
  cases ht
  simp only [withStatus_chain, encBlockTo_chain, encStep_of_ecb hmode, encChunks_chain_of_ecb _ _ h]

theorem decRun_chain_of_ecb {s t : State} (h : s.mode = .ecb) (ht : decRun s = .next t) : t.chain = s.chain := by
  have hmode : (decChunks (s.srcLen / 16 - 1) 0 s).mode = .ecb := by rwa [decChunks_frame]
  simp only [decRun] at ht
  split at ht <;> cases ht <;>
    simp only [withStatus_chain, decBlockTo_chain, decStep_of_ecb hmode, decChunks_chain_of_ecb _ _ h]

/-- What a buffer command may write: `S` (not in ECB), `DST_LEN`, `STATUS` and the `Req` bytes at `DST_ADDR`; and what it leaves
when it answers the size or fails otherwise than with `INVALID_PADDING`. -/
structure BufferColumns (i : Instr) (s t : State) : Prop where
  frame : t = { s with chain := t.chain, dstLen := t.dstLen, mem := t.mem, statusCode := t.statusCode,
                       statusArg := t.statusArg }
  ecb : s.mode = .ecb → t.chain = s.chain
  sizing : s.dstAddr = 0 → t.mem = s.mem ∧ t.chain = s.chain
  failure : t.statusCode ≠ .success → t.statusCode ≠ .invalidPadding →
    t.mem = s.mem ∧ t.chain = s.chain ∧ t.dstLen = s.dstLen
  outside : Memory.wf s.mem = true → ∀ a, ¬ (s.dstAddr ≤ a ∧ a < s.dstAddr + reqOf i s) →
    Memory.read t.mem a = Memory.read s.mem a

theorem BufferColumns.of_status (i : Instr) (s : State) (c : StatusCode) (a : StatusArg) :
    BufferColumns i s (withStatus c a s) :=
  ⟨rfl, fun _ => rfl, fun _ => ⟨rfl, rfl⟩, fun _ _ => ⟨rfl, rfl, rfl⟩, fun _ _ _ => rfl⟩

theorem BufferColumns.of_sizing (i : Instr) (s : State) (n : Nat) :
    BufferColumns i s (withStatus .success .none { s with dstLen := n }) :=
  ⟨rfl, fun _ => rfl, fun _ => ⟨rfl, rfl⟩, fun h => absurd rfl h, fun _ _ _ => rfl⟩

theorem execEncbuf_columns {s t : State} (ht : execEncbuf s = .next t) : BufferColumns .encbuf s t := by
  obtain ⟨c, a, -, h, -⟩ | ⟨-, -, -, h⟩ | ⟨hok, h⟩ := execEncbuf_cases s
  · cases h.symm.trans ht; exact .of_status .encbuf s c a
  · cases h.symm.trans ht; exact .of_sizing .encbuf s _
  · obtain ⟨-, -, hdst, -⟩ := (encRunOk_iff s).mp hok
    have hrun := h.symm.trans ht
    obtain ⟨c, m, hr⟩ := encRun_frame s
    refine ⟨?_, fun hm => encRun_chain_of_ecb hm hrun, fun h0 => absurd h0 hdst, ?_,
      fun hwf a ha => encRun_read_outside hwf hrun ha⟩ <;> cases hr.symm.trans hrun
    · rfl
    · exact fun hf => absurd rfl hf

theorem execDecbuf_columns {s t : State} (ht : execDecbuf s = .next t) : BufferColumns .decbuf s t := by
  obtain ⟨c, a, -, h, -⟩ | ⟨-, -, h⟩ | ⟨hok, h⟩ := execDecbuf_cases s
  · cases h.symm.trans ht; exact .of_status .decbuf s c a
  · cases h.symm.trans ht; exact .of_sizing .decbuf s _
  · obtain ⟨-, -, hlen, hmod, hdst, -⟩ := (decRunOk_iff s).mp hok
    have hrun := h.symm.trans ht
    obtain ⟨c, m, n, ⟨hr, -⟩ | ⟨hr, -⟩⟩ := decRun_frame s <;>
      refine ⟨?_, fun hm => decRun_chain_of_ecb hm hrun, fun h0 => absurd h0 hdst, ?_,
        fun hwf a ha => decRun_read_outside hwf (by omega) hrun ha⟩ <;> cases hr.symm.trans hrun
    · rfl
    · exact fun _ hp => absurd rfl hp
    · rfl
    · exact fun hf => absurd rfl hf

/-! ### Other memory contents -/

/-- The state with other contents of the buffer memory. -/
def withMem (m : Memory) (s : State) : State := { s with mem := m }

@[simp] theorem withMem_mem (m : Memory) (s : State) : (withMem m s).mem = m := rfl

theorem withMem_self (s : State) : withMem s.mem s = s := rfl

theorem firstAnswer_withMem (i : Instr) (m : Memory) (s : State) : firstAnswer i (withMem m s) = firstAnswer i s := rfl

/-- A command that ends at a row of R340 ends there whatever the memory holds. -/
theorem exec_withMem_of_answered {i : Instr} {s : State} {a : RowAnswer} (h : firstAnswer i s = some a) (m : Memory) :
    exec i (withMem m s) = mapNext (withMem m) (exec i s) := by
  have hs := answers_of_firstAnswer h
  have hm := answers_of_firstAnswer ((firstAnswer_withMem i m s).trans h)
  cases a <;> rw [Answers] at hs hm <;> rw [hs, hm] <;> rfl

theorem exec_withMem_of_not_buffer {i : Instr} (henc : i ≠ .encbuf) (hdec : i ≠ .decbuf) (m : Memory) (s : State) :
    exec i (withMem m s) = mapNext (withMem m) (exec i s) := by
  cases i with
  | kexp alg =>
    simp only [exec_kexp, execKexp]
    cases algOf alg <;> rfl
  | kinv =>
    simp only [exec_kinv, execKinv, apply_ite (mapNext (withMem m))]
    rfl
  | mstart mode v =>
    simp only [exec_mstart, execMstart]
    cases modeOf mode with
    | none => rfl
    | some md =>
      simp only [apply_ite (mapNext (withMem m))]
      rfl
  | encb =>
    simp only [exec_encb, execEncb, apply_ite (mapNext (withMem m))]
    rfl
  | decb =>
    simp only [exec_decb, execDecb, apply_ite (mapNext (withMem m))]
    rfl
  | encbuf => exact absurd rfl henc
  | decbuf => exact absurd rfl hdec
  | init alg mode v =>
    simp only [exec_init, execInit]
    cases algOf alg with
    | none => rfl
    | some a =>
      cases modeOf mode with
      | none => rfl
      | some md =>
        simp only [apply_ite (mapNext (withMem m))]
        rfl
  | clear => rfl

/-- The rows of R340 are the tests before the real run of `ENCBUF`. -/
theorem encRunOk_of_firstAnswer {s : State} (h : firstAnswer .encbuf s = none) : encRunOk s = true := by
  rw [firstAnswer_encbuf] at h
  split_ifs at h with hms hreq hdst hsrc hcap hrange
  exact (encRunOk_iff s).mpr ⟨by simpa using hms, by omega, hdst, by omega, by omega, by simpa using hrange⟩

/-- The rows of R340 are the tests before the real run of `DECBUF`. -/
theorem decRunOk_of_firstAnswer {s : State} (h : firstAnswer .decbuf s = none) : decRunOk s = true := by
  rw [firstAnswer_decbuf] at h
  split_ifs at h with hms hdk hwhole hdst hsrc hcap hrange
  exact (decRunOk_iff s).mpr
    ⟨by simpa using hms, by simpa using hdk, by omega, by omega, hdst, by omega, by omega, by simpa using hrange⟩

theorem exec_withMem {i : Instr} {s : State} (h : (i ≠ .encbuf ∧ i ≠ .decbuf) ∨ ∃ a, firstAnswer i s = some a)
    (m : Memory) : exec i (withMem m s) = mapNext (withMem m) (exec i s) := by
  obtain ⟨henc, hdec⟩ | ⟨a, ha⟩ := h
  · exact exec_withMem_of_not_buffer henc hdec m s
  · exact exec_withMem_of_answered ha m

/-- With a null destination a buffer command ends at a row of R340: it has no real run. -/
theorem answered_of_null_destination {i : Instr} {s : State} (hi : i = .encbuf ∨ i = .decbuf) (h : s.dstAddr = 0) :
    ∃ a, firstAnswer i s = some a := by
  refine Option.ne_none_iff_exists'.mp fun hnone => ?_
  obtain rfl | rfl := hi
  · obtain ⟨-, -, hdst, -⟩ := (encRunOk_iff s).mp (encRunOk_of_firstAnswer hnone)
    exact hdst h
  · obtain ⟨-, -, -, -, hdst, -⟩ := (decRunOk_iff s).mp (decRunOk_of_firstAnswer hnone)
    exact hdst h

section
variable {i : Instr} {s t : State} (h : (i ≠ .encbuf ∧ i ≠ .decbuf) ∨ ∃ a, firstAnswer i s = some a)
  (ht : exec i s = .next t)
include h ht

theorem exec_withMem_next (m : Memory) : exec i (withMem m s) = .next (withMem m t) := by
  rw [exec_withMem h, ht]
  rfl

/-- What does not depend on the memory leaves it: with its own memory put in its place the result is the same. -/
theorem exec_mem_eq : t.mem = s.mem := by
  have hself := exec_withMem_next h ht s.mem
  rw [withMem_self, ht] at hself
  have hsame : t = withMem s.mem t := Host.Outcome.next.inj hself
  exact (congrArg State.mem hsame).trans (withMem_mem s.mem t)

end

/-! ### The byte at the null address (R71) -/

/-- `t` and `u` are the same state but for memory, there the byte at the null address is `b` in `u` and unchanged since `s` in
`t`, and every other byte is the same. -/
def NullByteOnly (s : State) (b : Byte) (t u : State) : Prop :=
  Memory.read t.mem 0 = Memory.read s.mem 0 ∧ u = { t with mem := u.mem } ∧ Memory.read u.mem 0 = b ∧
    ∀ a ≠ 0, Memory.read u.mem a = Memory.read t.mem a

/-- Runs that store the same bytes away from the null address. -/
theorem BufferRun.nullByteOnly {s t u : State} {out : List Byte} {c : Block128} {n : Nat} {code : StatusCode} {b : Byte}
    (hwf : Memory.wf s.mem = true) (hdst : s.dstAddr ≠ 0) (ht : BufferRun s out c n code t)
    (hu : BufferRun (withMem (Memory.write s.mem 0 b) s) out c n code u) : NullByteOnly s b t u := by
  have hread := Memory.read_write hwf 0 b
  have hnull (m : Memory) : storedByte m s.dstAddr out 0 = Memory.read m 0 := if_neg (by omega)
  refine ⟨(ht.stored 0).trans (hnull _), ?_, ?_, fun a ha => ?_⟩
  · rw [hu.frame, ht.frame, hu.code, hu.arg, hu.dstLen, hu.chain, ht.code, ht.arg, ht.dstLen, ht.chain]
    rfl
  · exact ((hu.stored 0).trans (hnull _)).trans ((hread 0).trans (if_pos rfl))
  · rw [hu.stored, ht.stored]
    simp only [storedByte, withMem, hread, if_neg ha]

/-- A source that begins above the null address, or is empty, reads the same when the byte there changes. -/
theorem memRead_write_null {m : Memory} (hwf : Memory.wf m = true) (b : Byte) {a n : Nat} (h : a = 0 → n = 0) :
    memRead (Memory.write m 0 b) a n = memRead m a n :=
  memRead_congr fun j hj => by rw [Memory.read_write hwf, if_neg (by omega)]

theorem encbuf_nullByteOnly {s t : State} (hwf : Memory.wf s.mem = true) (hok : encRunOk s = true)
    (ht : execEncbuf s = .next t) (b : Byte) :
    ∃ u, execEncbuf (withMem (Memory.write s.mem 0 b) s) = .next u ∧ NullByteOnly s b t u := by
  obtain ⟨-, -, hdst, hsrc, -⟩ := (encRunOk_iff s).mp hok
  have hout : encOutput (withMem (Memory.write s.mem 0 b) s) = encOutput s :=
    congrArg (fun bs => stream (modeEnc s.enc s.mode) (paddedBlocks bs) s.chain) (memRead_write_null hwf b hsrc)
  obtain ⟨t', ht', hrun⟩ := execEncbuf_bufferRun hwf hok
  obtain ⟨u, hu, hrun'⟩ := execEncbuf_bufferRun (s := withMem (Memory.write s.mem 0 b) s) (Memory.wf_write 0 b hwf) hok
  cases ht'.symm.trans ht
  rw [hout] at hrun'
  exact ⟨u, hu, hrun.nullByteOnly hwf hdst hrun'⟩

theorem decbuf_nullByteOnly {s t : State} (hwf : Memory.wf s.mem = true) (hok : decRunOk s = true)
    (ht : execDecbuf s = .next t) (b : Byte) :
    ∃ u, execDecbuf (withMem (Memory.write s.mem 0 b) s) = .next u ∧ NullByteOnly s b t u := by
  obtain ⟨-, -, -, -, hdst, hsrc, -⟩ := (decRunOk_iff s).mp hok
  have hwf' : Memory.wf (withMem (Memory.write s.mem 0 b) s).mem = true := Memory.wf_write 0 b hwf
  have hout : decOutput (withMem (Memory.write s.mem 0 b) s) = decOutput s :=
    congrArg (fun bs => stream (modeDec s.enc s.dec s.mode) (fullChunks (s.srcLen / 16) bs) s.chain)
      (memRead_write_null hwf b fun h => absurd h hsrc)
  have hlast : decLastBlock (withMem (Memory.write s.mem 0 b) s) = decLastBlock s := by
    rw [decLastBlock, decLastBlock, hout]
  cases hpad : padCheck (decLastBlock s) with
  | none =>
    obtain ⟨t', ht', hrun⟩ := execDecbuf_bufferRun_of_invalid hwf hok hpad
    obtain ⟨u, hu, hrun'⟩ := execDecbuf_bufferRun_of_invalid hwf' hok (hlast ▸ hpad)
    cases ht'.symm.trans ht
    rw [hout] at hrun'
    exact ⟨u, hu, hrun.nullByteOnly hwf hdst hrun'⟩
  | some k =>
    obtain ⟨t', ht', hrun⟩ := execDecbuf_bufferRun_of_valid hwf hok hpad
    obtain ⟨u, hu, hrun'⟩ := execDecbuf_bufferRun_of_valid hwf' hok (hlast ▸ hpad)
    cases ht'.symm.trans ht
    rw [hout] at hrun'
    exact ⟨u, hu, hrun.nullByteOnly hwf hdst hrun'⟩

theorem exec_nullByteOnly {i : Instr} {s t : State} (hwf : Memory.wf s.mem = true) (ht : exec i s = .next t) (b : Byte) :
    ∃ u, exec i (withMem (Memory.write s.mem 0 b) s) = .next u ∧ NullByteOnly s b t u := by
  have hleft (h : (i ≠ .encbuf ∧ i ≠ .decbuf) ∨ ∃ a, firstAnswer i s = some a) :
      ∃ u, exec i (withMem (Memory.write s.mem 0 b) s) = .next u ∧ NullByteOnly s b t u := by
    have hmem := exec_mem_eq h ht
    have hread := Memory.read_write hwf 0 b
    refine ⟨_, exec_withMem_next h ht _, congrArg (Memory.read · 0) hmem, rfl, (hread 0).trans (if_pos rfl), fun a ha => ?_⟩
    rw [hmem]
    exact (hread a).trans (if_neg ha)
  cases hanswer : firstAnswer i s with
  | some a => exact hleft (.inr ⟨a, hanswer⟩)
  | none =>
    cases i with
    | encbuf => exact encbuf_nullByteOnly hwf (encRunOk_of_firstAnswer hanswer) ht b
    | decbuf => exact decbuf_nullByteOnly hwf (decRunOk_of_firstAnswer hanswer) ht b
    | _ => exact hleft (.inl ⟨nofun, nofun⟩)

end Sys2Proof.Machine
end

section
/-! CERTIFICATE. The statements about what the commands write and read (spec/10_state.md section 10, spec/20_memory.md sections 1
and 4). -/

namespace Sys2Proof.Certificates

open Sys2Proof.Machine

/-- Settles O47, command by command. -/
theorem commandsWriteOnlyTheirColumns : Obligations.CommandsWriteOnlyTheirColumns := by
  unfold Obligations.CommandsWriteOnlyTheirColumns
  intro i s t ht
  cases i with
  | kexp alg => obtain ⟨-, h⟩ | ⟨a, -, h⟩ := execKexp_cases alg s <;> cases h.symm.trans ht <;> rfl
  | kinv => obtain ⟨-, h⟩ | ⟨-, h⟩ := execKinv_cases s <;> cases h.symm.trans ht <;> rfl
  | mstart mode v =>
    obtain ⟨-, h⟩ | ⟨m, -, ⟨-, h⟩ | ⟨-, -, -, h⟩ | ⟨-, -, h⟩⟩ := execMstart_cases mode v s <;>
      cases h.symm.trans ht <;> rfl
  | encb =>
    obtain ⟨-, h⟩ | ⟨-, h⟩ := execEncb_cases s <;> cases h.symm.trans ht
    · exact ⟨rfl, fun _ => rfl⟩
    · exact ⟨rfl, fun hm => congrArg Prod.snd (encStep_of_ecb hm s.din)⟩
  | decb =>
    obtain ⟨-, h⟩ | ⟨-, -, h⟩ := execDecb_cases s <;> cases h.symm.trans ht
    · exact ⟨rfl, fun _ => rfl⟩
    · exact ⟨rfl, fun hm => congrArg Prod.snd (decStep_of_ecb hm s.din)⟩
  | encbuf =>
    obtain ⟨hframe, hecb, hsizing, hfailure, houtside⟩ := execEncbuf_columns ht
    exact ⟨hframe, hecb, hsizing, hfailure, houtside⟩
  | decbuf =>
    obtain ⟨hframe, hecb, hsizing, hfailure, houtside⟩ := execDecbuf_columns ht
    exact ⟨hframe, hecb, hsizing, hfailure, houtside⟩
  | init alg mode v =>
    obtain ⟨-, h⟩ | ⟨a, m, -, -, ⟨-, -, h⟩ | ⟨-, h⟩⟩ := execInit_cases alg mode v s <;> cases h.symm.trans ht <;> rfl
  | clear =>
    cases (execClear_eq_reset s).symm.trans ht
    exact ⟨rfl, rfl, rfl, rfl⟩

/-- Settles O49: a command that has no real run ends as it does whatever the memory holds, and so leaves its own. -/
theorem onlyRealBufferRunsTouchMemory : Obligations.OnlyRealBufferRunsTouchMemory := by
  unfold Obligations.OnlyRealBufferRunsTouchMemory
  intro i s t m h ht
  have hnorun : (i ≠ .encbuf ∧ i ≠ .decbuf) ∨ ∃ a, firstAnswer i s = some a := by
    by_cases hi : i = .encbuf ∨ i = .decbuf
    · refine .inr (answered_of_null_destination hi (h.resolve_left fun hne => ?_))
      exact hi.elim hne.1 hne.2
    · exact .inl (not_or.mp hi)
  exact ⟨exec_mem_eq hnorun ht, exec_withMem_next hnorun ht m⟩

/-- Settles O50: a real run reads and writes at addresses from `SRC_ADDR` and `DST_ADDR` up, which are not 0. -/
theorem nullAddressByteIsUntouched : Obligations.NullAddressByteIsUntouched := by
  unfold Obligations.NullAddressByteIsUntouched
  intro i s t b hwf ht
  obtain ⟨u, hu, hsame, hframe, hnull, hother⟩ := exec_nullByteOnly hwf ht b
  exact ⟨hsame, u, hu, hframe, hnull, hother⟩

end Sys2Proof.Certificates
end
